-- ==== Sys2Proof/Word.lean ====
section
/-! DEFINITION. The word types of the ICC25 control core and their plainest arithmetic (spec/00_scope.md R9). -/

namespace Sys2Proof

/-- `u8` of R9. -/
abbrev Byte := BitVec 8

/-- The first count the 64-bit time base cannot hold (R20). The spec's `u64` and `u32` counts of microseconds are natural numbers in
this model, because every difference a rule writes is exact (R9) and the time base never wraps (R20). DESIGN CHOICE, log
entry 3. -/
abbrev timeLimit : Nat := 2 ^ 64

/-- An exact rational with a sign, `num / den` (R9: "in Q" computes exactly). `den` is never 0 in a value a rule makes. -/
structure Frac where
  num : Int
  den : Nat
  deriving DecidableEq, Repr

/-- A non-negative exact rational, the form of the fractional parameters of R6. -/
structure Ratio where
  num : Nat
  den : Nat
  deriving DecidableEq, Repr

/-- One value for each motor channel, in the source's order FL, FR, RL, RR (R95). -/
structure PerWheel (α : Type) where
  fl : α
  fr : α
  rl : α
  rr : α
  deriving DecidableEq, Repr

/-- A sign multiplier, +1 or -1 (R7: SIGN[ch], RR_VX_SIGN). -/
inductive Sign where
  | plus
  | minus
  deriving DecidableEq, Repr

/-- The sign multiplier applied to an integer. -/
def Sign.apply : Sign → Int → Int
  | .plus, x => x
  | .minus, x => -x

end Sys2Proof
end

