-- ==== Sys2Proof/Config.lean ====
section
/-! DEFINITION. The parameters of spec/00_scope.md R6 and R7 as one record of plain data, R8's constraints on them, and the free
value. -/

namespace Sys2Proof

/-- `FRAC` and `ONE` of R7: the command's fixed-point 1 is 2^14. -/
abbrev one : Nat := 16384

/-- The free values: a time or a difference of times that the spec does not state (log entry 10). The `n`-th that a run draws is
`freeTime n`, of which nothing is known. -/
opaque freeTime : Nat → BitVec 64

/-- The parameters a model "takes each as a configuration field with this default" (R6), and those of R7. A machine's
`Params` is fixed for a run. -/
structure Params where
  /-- T_START_END. -/
  tStartEnd : Nat := 2400
  /-- T_BIT_1. -/
  tBit1 : Nat := 1600
  /-- T_BIT_0. -/
  tBit0 : Nat := 800
  /-- TX_GAP_US. -/
  txGap : Nat := 800
  /-- CARRIER_HZ. -/
  carrierHz : Nat := 38000
  /-- CARRIER_DUTY. -/
  carrierDuty : Ratio := ⟨1, 2⟩
  /-- TOL_US. -/
  tol : Nat := 200
  /-- RX_GAP_TIMEOUT_US. -/
  rxGapTimeout : Nat := 100000
  /-- FRAME_LEN, the count at which RX_RISE tries a decode (R134); `legal` holds it to the layouts (log entry 24). -/
  frameLen : Nat := 10
  /-- ID_BITS; no rule names it, `legal` holds it to the layouts (log entry 24). -/
  idBits : Nat := 8
  /-- HIT_DISABLE_TIME_US. -/
  hitDisableTime : Nat := 10000000
  /-- CMD_TIMEOUT_US. -/
  cmdTimeout : Nat := 800000
  /-- STANDBY_TIMEOUT_US. -/
  standbyTimeout : Nat := 10000000
  /-- DEADBAND. -/
  deadband : Ratio := ⟨1, 20⟩
  /-- TICK_HZ. -/
  tickHz : Nat := 50
  /-- TICK_PERIOD_US, which R7 derives as 1000000 / TICK_HZ; `legal` holds the two together. -/
  tickPeriod : Nat := 20000
  /-- PURE_DC_THRESHOLD. -/
  pureDc : Ratio := ⟨4, 5⟩
  /-- MIN_DUTY. -/
  minDuty : Ratio := ⟨3, 10⟩
  /-- DUTY_MAX. -/
  dutyMax : Nat := 255
  /-- ZERO_EPS. -/
  zeroEps : Ratio := ⟨1, 1000⟩
  /-- N_WHEELS; no rule names it, `legal` holds it to the four channels (log entry 24). -/
  nWheels : Nat := 4
  /-- N_RX, OPEN; 2 is the value of the spec's examples. -/
  nRx : Nat := 2
  /-- HITQ_DEPTH; `none` is the unbounded queue that R65 recommends to a model (log entry 14). -/
  hitqDepth : Option Nat := some 4
  /-- OWN_ID_RESET, OPEN. -/
  ownIdReset : Byte := 0
  /-- SIGN[FL], SIGN[FR], SIGN[RL], SIGN[RR], OPEN. -/
  sign : PerWheel Sign := ⟨.plus, .plus, .plus, .plus⟩
  /-- RR_VX_SIGN (90_conflicts.md C1). -/
  rrVxSign : Sign := .plus
  /-- F_CLK in Hz, OPEN, "an integer multiple of 1 MHz"; "no rule depends on it" (R7). The default is log entry 2. -/
  fClk : Nat := 1000000
  deriving DecidableEq, Repr

/-- R8 (a): the nominal durations are ordered and the three windows are apart. -/
def Params.windowsApart (c : Params) : Bool :=
  decide (c.tBit0 < c.tBit1) && decide (c.tBit1 < c.tStartEnd) &&
    decide (c.tBit0 + 2 * c.tol < c.tBit1) && decide (c.tBit1 + 2 * c.tol < c.tStartEnd)

/-- R8 (b), (c): no window reaches zero, and every duration lasts. -/
def Params.durationsLast (c : Params) : Bool :=
  decide (c.tol < c.tBit0) && decide (1 ≤ c.tickPeriod) && decide (1 ≤ c.txGap)

/-- R8 (d): the fractional parameters, each a number (its denominator is not 0), in their ranges. -/
def Params.fractionsInRange (c : Params) : Bool :=
  decide (0 < c.minDuty.den) && decide (c.minDuty.num < c.minDuty.den) &&
    decide (0 < c.pureDc.den) && decide (0 < c.pureDc.num) && decide (c.pureDc.num ≤ c.pureDc.den) &&
    decide (0 < c.zeroEps.den) && decide (0 < c.zeroEps.num) &&
    decide (c.zeroEps.num * c.pureDc.den < c.pureDc.num * c.zeroEps.den) &&
    decide (0 < c.deadband.den) && decide (0 < c.deadband.num) && decide (c.deadband.num < c.deadband.den)

/-- R8 (e), (f): the queue can hold an event, there are 1 to 16 receivers, the lockout fits its register. -/
def Params.sizesInRange (c : Params) : Bool :=
  (match c.hitqDepth with
    | none => true
    | some d => decide (1 ≤ d)) &&
    decide (1 ≤ c.nRx) && decide (c.nRx ≤ 16) && decide (c.hitDisableTime < 2 ^ 32)

/-- What R6 and R7 say of the parameters beside R8: TICK_PERIOD_US = 1000000 / TICK_HZ exactly, the duty code fits its
8 bits, the carrier has a frequency and a duty up to 1, F_CLK is a multiple of 1 MHz. DEDUCED, log entry 16. -/
def Params.derivedAgree (c : Params) : Bool :=
  decide (c.tickHz * c.tickPeriod = 1000000) && decide (c.dutyMax ≤ 255) &&
    decide (1 ≤ c.carrierHz) && decide (0 < c.carrierDuty.den) && decide (c.carrierDuty.num ≤ c.carrierDuty.den) &&
    decide (1 ≤ c.fClk) && decide (c.fClk % 1000000 = 0)

/-- The sizes that the layouts fix: "There is one frame length, ten symbols" (R98), the identifier is a u8 sent as eight symbols
(R83, R84, R110), and there are four channels with an equation each (R95, R160). DEDUCED, log entry 24. -/
def Params.shapeFixed (c : Params) : Bool :=
  decide (c.frameLen = 10) && decide (c.idBits = 8) && decide (c.nWheels = 4)

/-- The configurations inside the spec (R8): "a configuration that breaks one is refused by the model". -/
def Params.legal (c : Params) : Bool :=
  c.windowsApart && c.durationsLast && c.fractionsInRange && c.sizesInRange && c.derivedAgree && c.shapeFixed

end Sys2Proof
end

