-- ==== Sys2Proof/Syntax.lean ====
section
/-! DEFINITION. The instruction syntax: one constructor per row of spec/opcode_table.json. The block has no instruction
stream (spec/10_state.md R38); its "instructions" are the operations, sub-operations and functions of spec/30_encoding.md
R96 and the symbols, frame and records of its parts 1 and 2. -/

namespace Sys2Proof

/-- One constructor per row of the opcode table, in the table's order. Operands are the row's `source_fields`. -/
inductive Instr where
  /-- 0x00 RESET (R260). -/
  | reset
  /-- 0x01 CMD_WRITE (R203) with the 80-bit command word of R88. -/
  | cmdWrite (word : BitVec 80)
  /-- 0x02 CFG_WRITE (R204) with the configuration write record of R100. -/
  | cfgWrite (reg : BitVec 3) (data : Byte)
  /-- 0x03 EDGE (R132) with the edge record of R91. -/
  | edge (pin : BitVec 4) (level : Bool) (ts : BitVec 64)
  /-- 0x04 STATUS_READ (R205) of register `n`. -/
  | statusRead (n : Byte)
  /-- 0x05 SHUTDOWN (R206). -/
  | shutdown
  /-- 0x10 TICK (R201). -/
  | tick
  /-- 0x11 TX_REQUEST (R111). -/
  | txRequest (id : Byte)
  /-- 0x12 TX_STEP (R112). -/
  | txStep
  /-- 0x13 EDGE_SYNC (R130): one sample of a receiver pin. -/
  | edgeSync (pin : BitVec 4) (v : Bool)
  /-- 0x14 BOOT (R262). -/
  | boot (drvReady : Bool)
  /-- 0x20 HIT_TAKE (R182). -/
  | hitTake
  /-- 0x21 HIT_EXPIRE (R183). -/
  | hitExpire (elapsed : BitVec 64) (entered : Bool)
  /-- 0x22 SAFETY_STOP (R184). -/
  | safetyStop
  /-- 0x23 STANDBY_UPDATE (R185, R186). -/
  | standbyUpdate
  /-- 0x24 MOTOR_APPLY (R170). -/
  | motorApply (haltMotors : Bool)
  /-- 0x25 FIRE_DISPATCH (R202). -/
  | fireDispatch
  /-- 0x26 HIT_PUSH (R139). -/
  | hitPush (id : Byte) (t : BitVec 64)
  /-- 0x27 RX_FALL (R133). -/
  | rxFall (p : BitVec 4) (t : BitVec 64)
  /-- 0x28 RX_RISE (R134). -/
  | rxRise (p : BitVec 4) (t : BitVec 64)
  /-- 0x30 ENCODE (R110). -/
  | encodeId (id : Byte)
  /-- 0x31 CLASSIFY (R137). -/
  | classify (w : BitVec 64)
  /-- 0x32 DECODE (R138). -/
  | decodeBuf (buf : Vector (BitVec 64) 10)
  /-- 0x33 MECANUM (R160 to R162). -/
  | mecanum (vx vy omega : BitVec 16) (speed : BitVec 16)
  /-- 0x34 DUTYMAP (R164 to R169) of the wheel value `num / (denLess1 + 1)` with a wiring sign; log entry 23. -/
  | dutymap (num : BitVec 32) (denLess1 : BitVec 32) (sign : Sign)
  /-- 0x35 MEANINGFUL (R187) of the fields of a command word. -/
  | meaningful (cmd : BitVec 80)
  /-- The symbol code 0b00 NONE (R82, R87). -/
  | symNone
  /-- The symbol code 0b01 BIT_0 (R82, R87). -/
  | symBit0
  /-- The symbol code 0b10 BIT_1 (R82, R87). -/
  | symBit1
  /-- The symbol code 0b11 START_END (R82, R87). -/
  | symStartEnd
  /-- The 20-bit string of ten symbol codes, position 0 in the two highest bits (R83). -/
  | irFrame (codes : BitVec 20)
  /-- The command word as a record (R88). -/
  | cmdWord (word : BitVec 80)
  /-- The configuration write record (R100). -/
  | cfgRecord (reg : BitVec 3) (data : Byte)
  /-- The motor channel output record (R94). -/
  | motorRecord (dirB dirA fullOn : Bool) (duty : Byte)
  /-- The HitEvent record (R92). -/
  | hitRecord (self : Bool) (team : Byte) (receivedAt : BitVec 64)
  deriving DecidableEq, Repr

end Sys2Proof
end

