-- ==== Sys2Proof/Decode.lean ====
section
/-! DEFINITION. Trace words as bytes, the decoder from any bytes to an instruction or a named rejection, the encoder, and the
reading of an opcode-table word. An operation is one op byte and its payload (spec/30_encoding.md R96); records are the
bit layouts of R82, R83, R88, R91, R92, R94, R100. -/

namespace Sys2Proof

/-- Which of the spec's encoding spaces a word belongs to. The op numbers of R96, the 2-bit symbol codes of R82, the frame
string of R83 and the records of R88, R100, R94, R92 are separate spaces: the port a word stands at says which. -/
inductive Format where
  | op
  | symbol
  | frame
  | commandRecord
  | configRecord
  | motorRecord
  | hitRecord
  deriving DecidableEq, Repr

/-- One word of a trace: its encoding space and its bytes, bits 7..0 first (log entry 4). -/
structure TraceWord where
  fmt : Format
  bytes : List Byte
  deriving DecidableEq, Repr

/-- Why a word does not decode. -/
inductive DecodeError where
  /-- There is no op byte. -/
  | emptyWord
  /-- "Any op byte not listed is not an operation; a model fed one refuses it" (R96). -/
  | unknownOperation (op : Byte)
  /-- The payload has not the length of the operation's or record's fields. -/
  | wrongLength
  /-- A bit above the fields, which the layout gives as zero (R91: [71:69], R92: [79:73]), is set. -/
  | reservedBits
  deriving DecidableEq, Repr

/-- `n` bytes of a number, bits 7..0 first. -/
def bytesLE : Nat → Nat → List Byte
  | 0, _ => []
  | n + 1, v => BitVec.ofNat 8 v :: bytesLE n (v / 256)

/-- The number whose bytes these are, bits 7..0 first; eight bytes a turn, which keeps the recursion over a long word shallow. -/
def natLE : List Byte → Nat
  | b0 :: b1 :: b2 :: b3 :: b4 :: b5 :: b6 :: b7 :: bs =>
    b0.toNat + 2 ^ 8 * b1.toNat + 2 ^ 16 * b2.toNat + 2 ^ 24 * b3.toNat + 2 ^ 32 * b4.toNat + 2 ^ 40 * b5.toNat +
      2 ^ 48 * b6.toNat + 2 ^ 56 * b7.toNat + 2 ^ 64 * natLE bs
  | b :: bs => b.toNat + 256 * natLE bs
  | [] => 0

/-- The fields of a number, lowest first, given their widths. -/
def splitFields : List Nat → Nat → List Nat
  | [], _ => []
  | w :: ws, v => v % 2 ^ w :: splitFields ws (v / 2 ^ w)

/-- What stands above the fields of a number, given their widths. -/
def aboveFields : List Nat → Nat → Nat
  | [], v => v
  | w :: ws, v => aboveFields ws (v / 2 ^ w)

/-- The number whose fields these are, lowest first, given their widths. -/
def joinFields : List Nat → List Nat → Nat
  | w :: ws, f :: fs => f + 2 ^ w * joinFields ws fs
  | _, _ => 0

/-- How many whole bytes the fields take. -/
def fieldBytes (ws : List Nat) : Nat := (ws.sum + 7) / 8

/-- Widths of an operation's payload fields, lowest bits first, by op number (R96). The command word, the edge record and
the configuration record are laid out by R88, R91 and R100; every other payload's layout is DESIGN CHOICE, log entry 4. -/
def opWidths : Nat → Option (List Nat)
  | 0x00 => some []
  | 0x01 => some [80]
  | 0x02 => some [8, 3]
  | 0x03 => some [64, 1, 4]
  | 0x04 => some [8]
  | 0x05 => some []
  | 0x10 => some []
  | 0x11 => some [8]
  | 0x12 => some []
  | 0x13 => some [4, 1]
  | 0x14 => some [1]
  | 0x20 => some []
  | 0x21 => some [64, 1]
  | 0x22 => some []
  | 0x23 => some []
  | 0x24 => some [1]
  | 0x25 => some []
  | 0x26 => some [8, 64]
  | 0x27 => some [4, 64]
  | 0x28 => some [4, 64]
  | 0x30 => some [8]
  | 0x31 => some [64]
  | 0x32 => some [64, 64, 64, 64, 64, 64, 64, 64, 64, 64]
  | 0x33 => some [16, 16, 16, 16]
  | 0x34 => some [32, 32, 1]
  | 0x35 => some [80]
  | _ => none

/-- Widths of a record's fields, lowest bits first: the symbol code of R82, the frame string of R83, the command word of
R88, the configuration record of R100, the motor record of R94, the HitEvent of R92. -/
def recordWidths : Format → List Nat
  | .op => []
  | .symbol => [2]
  | .frame => [20]
  | .commandRecord => [80]
  | .configRecord => [8, 3]
  | .motorRecord => [8, 1, 1, 1]
  | .hitRecord => [64, 8, 1]

/-- Field `k` of a split word. -/
def field (fs : List Nat) (k : Nat) : Nat := fs.getD k 0

/-- A one-bit field as a truth value. -/
def bitField (fs : List Nat) (k : Nat) : Bool := field fs k == 1

/-- A truth value as a one-bit field. -/
def ofBit (b : Bool) : Nat := if b then 1 else 0

/-- A sign as a one-bit field: 0 is +1, 1 is -1 (log entry 23). -/
def ofSign : Sign → Nat
  | .plus => 0
  | .minus => 1

/-- The sign of a one-bit field. -/
def signField (fs : List Nat) (k : Nat) : Sign := if field fs k == 1 then .minus else .plus

/-- The fields of a payload, or why it has none. -/
def payloadFields (ws : List Nat) (bs : List Byte) : Except DecodeError (List Nat) :=
  if bs.length ≠ fieldBytes ws then .error .wrongLength
  else if aboveFields ws (natLE bs) ≠ 0 then .error .reservedBits
  else .ok (splitFields ws (natLE bs))

/-- The operation of an op number (R96) with its split payload. -/
def buildOp (op : Nat) (f : List Nat) : Option Instr :=
  match op with
  | 0x00 => some .reset
  | 0x01 => some (.cmdWrite (BitVec.ofNat 80 (field f 0)))
  | 0x02 => some (.cfgWrite (BitVec.ofNat 3 (field f 1)) (BitVec.ofNat 8 (field f 0)))
  | 0x03 => some (.edge (BitVec.ofNat 4 (field f 2)) (bitField f 1) (BitVec.ofNat 64 (field f 0)))
  | 0x04 => some (.statusRead (BitVec.ofNat 8 (field f 0)))
  | 0x05 => some .shutdown
  | 0x10 => some .tick
  | 0x11 => some (.txRequest (BitVec.ofNat 8 (field f 0)))
  | 0x12 => some .txStep
  | 0x13 => some (.edgeSync (BitVec.ofNat 4 (field f 0)) (bitField f 1))
  | 0x14 => some (.boot (bitField f 0))
  | 0x20 => some .hitTake
  | 0x21 => some (.hitExpire (BitVec.ofNat 64 (field f 0)) (bitField f 1))
  | 0x22 => some .safetyStop
  | 0x23 => some .standbyUpdate
  | 0x24 => some (.motorApply (bitField f 0))
  | 0x25 => some .fireDispatch
  | 0x26 => some (.hitPush (BitVec.ofNat 8 (field f 0)) (BitVec.ofNat 64 (field f 1)))
  | 0x27 => some (.rxFall (BitVec.ofNat 4 (field f 0)) (BitVec.ofNat 64 (field f 1)))
  | 0x28 => some (.rxRise (BitVec.ofNat 4 (field f 0)) (BitVec.ofNat 64 (field f 1)))
  | 0x30 => some (.encodeId (BitVec.ofNat 8 (field f 0)))
  | 0x31 => some (.classify (BitVec.ofNat 64 (field f 0)))
  | 0x32 => some (.decodeBuf (Vector.ofFn fun i : Fin 10 => BitVec.ofNat 64 (field f i.val)))
  | 0x33 => some (.mecanum (BitVec.ofNat 16 (field f 0)) (BitVec.ofNat 16 (field f 1)) (BitVec.ofNat 16 (field f 2))
      (BitVec.ofNat 16 (field f 3)))
  | 0x34 => some (.dutymap (BitVec.ofNat 32 (field f 0)) (BitVec.ofNat 32 (field f 1)) (signField f 2))
  | 0x35 => some (.meaningful (BitVec.ofNat 80 (field f 0)))
  | _ => none

/-- The record of a format other than `op` with its split word. -/
def buildRecord (fmt : Format) (f : List Nat) : Option Instr :=
  match fmt with
  | .op => none
  | .symbol =>
    match field f 0 with
    | 0 => some .symNone
    | 1 => some .symBit0
    | 2 => some .symBit1
    | _ => some .symStartEnd
  | .frame => some (.irFrame (BitVec.ofNat 20 (field f 0)))
  | .commandRecord => some (.cmdWord (BitVec.ofNat 80 (field f 0)))
  | .configRecord => some (.cfgRecord (BitVec.ofNat 3 (field f 1)) (BitVec.ofNat 8 (field f 0)))
  | .motorRecord => some (.motorRecord (bitField f 3) (bitField f 2) (bitField f 1) (BitVec.ofNat 8 (field f 0)))
  | .hitRecord => some (.hitRecord (bitField f 2) (BitVec.ofNat 8 (field f 1)) (BitVec.ofNat 64 (field f 0)))

/-- An operation from its op byte and payload bytes. -/
def decodeOp (op : Byte) (payload : List Byte) : Except DecodeError Instr :=
  match opWidths op.toNat with
  | none => .error (.unknownOperation op)
  | some ws =>
    match payloadFields ws payload with
    | .error e => .error e
    | .ok f =>
      match buildOp op.toNat f with
      | some i => .ok i
      | none => .error (.unknownOperation op)

/-- A record from its bytes. -/
def decodeRecord (fmt : Format) (bs : List Byte) : Except DecodeError Instr :=
  match payloadFields (recordWidths fmt) bs with
  | .error e => .error e
  | .ok f =>
    match buildRecord fmt f with
    | some i => .ok i
    | none => .error .emptyWord

/-- The decoder: total on any bytes, rejecting by name. -/
def decode (w : TraceWord) : Except DecodeError Instr :=
  match w.fmt with
  | .op =>
    match w.bytes with
    | [] => .error .emptyWord
    | op :: payload => decodeOp op payload
  | fmt => decodeRecord fmt w.bytes

/-- An operation's word: the op byte, then its payload fields joined. -/
def opWord (op : Nat) (fs : List Nat) : TraceWord :=
  let ws := (opWidths op).getD []
  { fmt := .op, bytes := BitVec.ofNat 8 op :: bytesLE (fieldBytes ws) (joinFields ws fs) }

/-- A record's word: its fields joined. -/
def recordWord (fmt : Format) (fs : List Nat) : TraceWord :=
  let ws := recordWidths fmt
  { fmt := fmt, bytes := bytesLE (fieldBytes ws) (joinFields ws fs) }

/-- The encoder: the word of an instruction, from the same widths the decoder reads. -/
def encode : Instr → TraceWord
  | .reset => opWord 0x00 []
  | .cmdWrite word => opWord 0x01 [word.toNat]
  | .cfgWrite reg data => opWord 0x02 [data.toNat, reg.toNat]
  | .edge pin level ts => opWord 0x03 [ts.toNat, ofBit level, pin.toNat]
  | .statusRead n => opWord 0x04 [n.toNat]
  | .shutdown => opWord 0x05 []
  | .tick => opWord 0x10 []
  | .txRequest id => opWord 0x11 [id.toNat]
  | .txStep => opWord 0x12 []
  | .edgeSync pin v => opWord 0x13 [pin.toNat, ofBit v]
  | .boot drvReady => opWord 0x14 [ofBit drvReady]
  | .hitTake => opWord 0x20 []
  | .hitExpire elapsed entered => opWord 0x21 [elapsed.toNat, ofBit entered]
  | .safetyStop => opWord 0x22 []
  | .standbyUpdate => opWord 0x23 []
  | .motorApply halt => opWord 0x24 [ofBit halt]
  | .fireDispatch => opWord 0x25 []
  | .hitPush id t => opWord 0x26 [id.toNat, t.toNat]
  | .rxFall p t => opWord 0x27 [p.toNat, t.toNat]
  | .rxRise p t => opWord 0x28 [p.toNat, t.toNat]
  | .encodeId id => opWord 0x30 [id.toNat]
  | .classify w => opWord 0x31 [w.toNat]
  | .decodeBuf buf => opWord 0x32 (buf.toList.map BitVec.toNat)
  | .mecanum vx vy omega speed => opWord 0x33 [vx.toNat, vy.toNat, omega.toNat, speed.toNat]
  | .dutymap num denLess1 sign => opWord 0x34 [num.toNat, denLess1.toNat, ofSign sign]
  | .meaningful cmd => opWord 0x35 [cmd.toNat]
  | .symNone => recordWord .symbol [0]
  | .symBit0 => recordWord .symbol [1]
  | .symBit1 => recordWord .symbol [2]
  | .symStartEnd => recordWord .symbol [3]
  | .irFrame codes => recordWord .frame [codes.toNat]
  | .cmdWord word => recordWord .commandRecord [word.toNat]
  | .cfgRecord reg data => recordWord .configRecord [data.toNat, reg.toNat]
  | .motorRecord dirB dirA fullOn duty => recordWord .motorRecord [duty.toNat, ofBit fullOn, ofBit dirA, ofBit dirB]
  | .hitRecord self team receivedAt => recordWord .hitRecord [receivedAt.toNat, team.toNat, ofBit self]

/-- The encoding space of an opcode-table word, from how many bits the table gives the row. The table numbers the words of
its spaces from bit 0 each, so a symbol code of a whole byte cannot be told from an op byte, nor one 11-bit or 80-bit
record from the other, by the number alone; the choice made here is log entry 5. -/
def tableFormat (nbits w : Nat) : Format :=
  if nbits ≤ 2 then .symbol
  else if nbits ≤ 8 then .op
  else if nbits ≤ 16 then (if w / 256 % 8 ≤ 1 then .configRecord else .motorRecord)
  else if nbits ≤ 24 then .frame
  else if nbits = 80 then (if w / 2 ^ 66 % 64 ≠ 0 ∧ w / 2 ^ 73 = 0 then .hitRecord else .commandRecord)
  else .op

/-- How many bytes the instruction that begins with this word has; an op byte that is no operation stands alone. -/
def wordLength (fmt : Format) (w : Nat) : Nat :=
  match fmt with
  | .op => 1 + fieldBytes ((opWidths (w % 256)).getD [])
  | f => fieldBytes (recordWidths f)

/-- An opcode-table word laid out as a trace word: its bytes, bits 7..0 first, every bit above `nbits` zero. -/
def tableWord (nbits w : Nat) : TraceWord :=
  let fmt := tableFormat nbits (w % 2 ^ nbits)
  { fmt := fmt, bytes := bytesLE (max (wordLength fmt (w % 2 ^ nbits)) ((nbits + 7) / 8)) (w % 2 ^ nbits) }

/-- The instruction the decoder reads from an opcode-table word; none where it rejects. -/
def decodeTableWord (nbits w : Nat) : Option Instr :=
  match decode (tableWord nbits w) with
  | .ok i => some i
  | .error _ => none

end Sys2Proof
end

