-- ==== Sys2Proof/Machine/State.lean ====
section
/-! DEFINITION. The state record of spec/10_state.md as plain data, its reset value (R42), and the reasons a step can stop.
INVENTORY.md's State section lists every field with its rule. -/

namespace Sys2Proof.Machine

/-- `S.run_state` (R21, R95): 0 RESET, 1 RUN, 2 HALT, 3 FATAL. -/
inductive RunState where
  | reset
  | run
  | halt
  | fatal
  deriving DecidableEq, Repr

/-- `S.tx_phase` (R34, R95): 0 BURST, 1 GAP. -/
inductive TxPhase where
  | burst
  | gap
  deriving DecidableEq, Repr

/-- The infrared symbols (R81), with NONE for a width that matches no window (R82). -/
inductive Symbol where
  | none
  | bit0
  | bit1
  | startEnd
  deriving DecidableEq, Repr

/-- A DriveCommand (R23, R88): the axes and the speed are the 16-bit fields of the command word. -/
structure Command where
  vx : BitVec 16 := 0
  vy : BitVec 16 := 0
  omega : BitVec 16 := 0
  speed : BitVec 16 := 0
  estop : Bool := false
  fire : Bool := false
  teamId : Byte := 0
  deriving DecidableEq, Repr

/-- The command mailbox and its timestamps: `S.CMD` (R23), `S.cmd_valid` (R24), `S.t_cmd` and `S.t_input` (R25). -/
structure Mailbox where
  cmd : Command := {}
  valid : Bool := false
  tCmd : Nat := 0
  tInput : Nat := 0
  deriving DecidableEq, Repr

/-- The session fields (R28) and the hit record (R29). -/
structure Session where
  hitActive : Bool := false
  remaining : Nat := 0
  standby : Bool := false
  hitBy : Byte := 0
  hitSelf : Bool := false
  hitAt : Nat := 0
  deriving DecidableEq, Repr

/-- The tick status flags (R30). -/
structure TickFlags where
  stopActive : Bool := false
  fireRefused : Bool := false
  fireDropped : Bool := false
  deriving DecidableEq, Repr

/-- A HitEvent (R31, R92). -/
structure HitEvent where
  team : Byte
  receivedAt : Nat
  self : Bool
  deriving DecidableEq, Repr

/-- One receiver: the decoder state (R32) and the synchroniser bits (R33). -/
structure RxState where
  fallValid : Bool := false
  fallTs : Nat := 0
  cnt : Fin 10 := 0
  buf : Vector Nat 10 := Vector.replicate 10 0
  lastValid : Bool := false
  lastTs : Nat := 0
  s1 : Bool := true
  s2 : Bool := true
  prev : Bool := true
  deriving DecidableEq, Repr

/-- The transmitter (R34). -/
structure TxState where
  busy : Bool := false
  id : Byte := 0
  idx : Fin 10 := 0
  phase : TxPhase := .burst
  deadline : Nat := 0
  irEnv : Bool := false
  deriving DecidableEq, Repr

/-- The output registers of one motor channel (R35, R94). The default is STOP (R165). -/
structure Motor where
  dirA : Bool := false
  dirB : Bool := false
  fullOn : Bool := false
  duty : Byte := 0
  deriving DecidableEq, Repr

/-- The outcome classes (R12). -/
inductive OpOutcome where
  | ok
  | discard
  | drop
  | refuse
  | fatal
  deriving DecidableEq, Repr

/-- The codes of the outcome table (R235), in its order 1 to 11. -/
inductive OutCode where
  | badCommand
  | badRegister
  | decodeFailure
  | gapDiscard
  | ignoredEdge
  | txInFlight
  | fireWhileDisabled
  | hitIgnored
  | queueOverflow
  | driverNotReady
  | ignoredOperation
  deriving DecidableEq, Repr

/-- The status record (R93). -/
structure StatusRecord where
  teamId : Byte
  isHit : Bool
  hitByTeam : Byte
  timeRemaining : Nat
  isSelfHit : Bool
  deriving DecidableEq, Repr

/-- What an operation or function returns. -/
inductive Result where
  | nothing
  /-- The response of an accepted CMD_WRITE (R203; `cmd_resp_valid` of R80). -/
  | status (r : StatusRecord)
  /-- `st_data[63:0]` (R80), the answer of STATUS_READ. -/
  | data (v : BitVec 64)
  /-- `entered`, `stop` or MEANINGFUL. -/
  | flag (b : Bool)
  /-- ENCODE's ten durations. -/
  | durations (d : Vector Nat 10)
  /-- A symbol code. -/
  | symbol (s : Symbol)
  /-- A symbol with its nominal duration and its inclusive window, none of both for NONE (R87). -/
  | symbolTimes (s : Symbol) (nominal : Option Nat) (window : Option (Nat × Nat))
  /-- DECODE's `some id` or `none`. -/
  | identifier (id : Option Byte)
  /-- MECANUM's four wheel values. -/
  | wheels (w : PerWheel Frac)
  /-- DUTYMAP's motor record, and the motor record of R94. -/
  | motor (m : Motor)
  /-- A command word's fields and whether the word is legal (R89, R90). -/
  | command (c : Command) (legal : Bool)
  /-- A configuration record's fields (R100). -/
  | config (reg : BitVec 3) (data : Byte)
  /-- A HitEvent record's fields (R92). -/
  | hit (e : HitEvent)
  deriving DecidableEq, Repr

/-- What the last operation answered. The model's own field: no rule reads it (log entry 13). -/
structure Out where
  outcome : OpOutcome := .ok
  codes : List OutCode := []
  result : Result := .nothing
  deriving DecidableEq, Repr

/-- An input still to come: a trace entry `{op, t, payload}` (R96), or a level change of a receiver pin. -/
inductive Input where
  | op (t : Nat) (w : TraceWord)
  | pin (t : Nat) (p : Fin 16) (level : Bool)
  deriving DecidableEq, Repr

/-- What stands outside the block: the inputs to come in time order (R208), the receiver pins' levels (R37), and whether the
machine samples them (R130) or takes EDGE operations as its input. The model's own fields, log entries 15 and 18. -/
structure Env where
  inputs : List Input := []
  pins : Vector Bool 16 := Vector.replicate 16 true
  sampling : Bool := false
  deriving DecidableEq, Repr

/-- The state `S` (10_state.md), the fixed configuration, the environment, and the operations due now. Defaults are the reset
values of R42. -/
structure State where
  /-- The configuration (00_scope.md R6, R7), which no operation changes. -/
  cfg : Params := {}
  /-- `S.now` (R20). -/
  now : Nat := 0
  /-- `S.run_state` (R21). -/
  runState : RunState := .reset
  /-- `S.t_last_tick` (R22). -/
  tLastTick : Nat := 0
  /-- `S.CMD`, `S.cmd_valid`, `S.t_cmd`, `S.t_input` (R23 to R25). -/
  mailbox : Mailbox := {}
  /-- `S.own_id` (R26). -/
  ownId : Byte := cfg.ownIdReset
  /-- `S.selfhit_en` (R27). -/
  selfhitEn : Bool := true
  /-- The session state and the hit record (R28, R29). -/
  session : Session := {}
  /-- The tick status flags (R30). -/
  flags : TickFlags := {}
  /-- `S.HITQ` (R31), oldest first. -/
  hitq : List HitEvent := []
  /-- `S.RX[p]` (R32, R33); the receivers present are those below N_RX. -/
  rx : Vector RxState 16 := Vector.replicate 16 {}
  /-- `S.tx_*` and `S.ir_env` (R34). -/
  tx : TxState := {}
  /-- `S.MOT[ch]` (R35). -/
  mot : PerWheel Motor := ⟨{}, {}, {}, {}⟩
  /-- `S.drive_enable` (R36). -/
  driveEnable : Bool := false
  /-- The environment. -/
  env : Env := {}
  /-- The operations due at `now` and not yet performed, in the order of R207 (log entry 1). -/
  agenda : List TraceWord := []
  /-- How many free values the run has drawn (log entry 10). The model's own field; its reset value is DESIGN CHOICE 0, and no
  statement rests on it. -/
  draws : Nat := 0
  /-- What the last operation answered. -/
  out : Out := {}
  deriving DecidableEq, Repr

/-- The reset values of R42 for a configuration, with an environment beside them. -/
def State.resetWith (c : Params) (e : Env) : State := { cfg := c, env := e }

/-- The machine right after reset, `rst` still high (R42, R260), in the default configuration, with no input to come. -/
def State.reset : State := State.resetWith {} {}

/-- Faults. There is none: "The block has no trap mechanism", every operation is total (60_exceptions.md R230), and the two
stops FATAL and HALT are run states that RESET leaves and STATUS_READ reads (R242). Log entry 21. -/
inductive Fault where
  deriving DecidableEq, Repr

/-- Refusals: what a model is given that the spec itself puts outside. -/
inductive Refusal where
  /-- `exec`, for a row that has no meaning yet. Safe. -/
  | notModelled (mnemonic : String)
  /-- `step`: the configuration breaks R8, "refused by the model". Safe. -/
  | illegalConfig
  /-- `step` and the arbiter: a word that does not decode (R96: "a model fed one refuses it"). Safe. -/
  | undecodable (e : DecodeError)
  /-- The arbiter: an input whose operation cannot come from outside the block (R96). Safe. -/
  | notAnInput
  /-- The arbiter: an input earlier than `now`; R208's inputs have non-decreasing timestamps. Safe. -/
  | inputOutOfOrder
  /-- The arbiter: `now` would pass 2^64 - 1 (R20). Safe. -/
  | timeBaseExhausted
  /-- EDGE, EDGE_SYNC, RX_FALL, RX_RISE, in every run state: a pin of N_RX or above (R97 (g): "a model fed one refuses it"). Safe; log
  entry 26. -/
  | pinAbsent
  deriving DecidableEq, Repr

/-- What a meaning answers. -/
abbrev Answer := Host.Outcome State Fault Refusal

end Sys2Proof.Machine
end

