-- ==== Sys2Proof/WellFormed.lean ====
section
/-! DEFINITION. Well-formedness of an instruction against a configuration: the operand ranges that the spec states and the
syntax does not hold by its types. -/

namespace Sys2Proof

/-- A receiver pin is one of 0..N_RX-1 (R91, R97 (g)). -/
def pinPresent (c : Params) (p : BitVec 4) : Bool := decide (p.toNat < c.nRx)

/-- A command axis is in -16384..16384 (R23, R88). -/
def axisInRange (v : BitVec 16) : Bool := decide (-16384 ≤ v.toInt) && decide (v.toInt ≤ 16384)

/-- The speed scale is in 0..16384 (R23, R88). -/
def speedInRange (v : BitVec 16) : Bool := decide (v.toNat ≤ 16384)

/-- Well-formed instructions. Only the pin's presence is needed for an instruction to run (R97 (g)); the ranges of MECANUM's
operands (R160) and of a wheel value (R162, R164: magnitude at most 1) are the domain the rules state. A command word or a
configuration record may be illegal and is still a well-formed operand: the write then ends with Discard (R90, R204). -/
def WellFormed (c : Params) : Instr → Bool
  | .edge pin _ _ => pinPresent c pin
  | .edgeSync pin _ => pinPresent c pin
  | .rxFall p _ => pinPresent c p
  | .rxRise p _ => pinPresent c p
  | .mecanum vx vy omega speed => axisInRange vx && axisInRange vy && axisInRange omega && speedInRange speed
  | .dutymap num denLess1 _ => decide (num.toInt.natAbs ≤ denLess1.toNat + 1)
  | .reset => true
  | .cmdWrite _ => true
  | .cfgWrite _ _ => true
  | .statusRead _ => true
  | .shutdown => true
  | .tick => true
  | .txRequest _ => true
  | .txStep => true
  | .boot _ => true
  | .hitTake => true
  | .hitExpire _ _ => true
  | .safetyStop => true
  | .standbyUpdate => true
  | .motorApply _ => true
  | .fireDispatch => true
  | .hitPush _ _ => true
  | .encodeId _ => true
  | .classify _ => true
  | .decodeBuf _ => true
  | .meaningful _ => true
  | .symNone => true
  | .symBit0 => true
  | .symBit1 => true
  | .symStartEnd => true
  | .irFrame _ => true
  | .cmdWord _ => true
  | .cfgRecord _ _ => true
  | .motorRecord _ _ _ _ => true
  | .hitRecord _ _ _ => true

end Sys2Proof
end

