-- ==== Sys2Proof/Machine/Operands.lean ====
section
/-! DEFINITION. Operand forms: the fields of a command word and its legality, pins, wheel values, and the packings of the
records (spec/30_encoding.md R82, R83, R88 to R95, R100). -/

namespace Sys2Proof.Machine

/-- The fields of a command word (R89). -/
def commandOf (w : BitVec 80) : Command where
  vx := w.extractLsb' 0 16
  vy := w.extractLsb' 16 16
  omega := w.extractLsb' 32 16
  speed := w.extractLsb' 48 16
  estop := w.getLsbD 64
  fire := w.getLsbD 65
  teamId := w.extractLsb' 72 8

/-- Every field of a command within its legal range (R23). -/
def Command.inRange (c : Command) : Bool :=
  axisInRange c.vx && axisInRange c.vy && axisInRange c.omega && speedInRange c.speed

/-- A command word is legal (R90): its fields in range and cmd_word[71:66] zero. -/
def commandLegal (w : BitVec 80) : Bool := (commandOf w).inRange && w.extractLsb' 66 6 == 0

/-- The command word of a command (R88), from bit 79 down. -/
def Command.pack (c : Command) : BitVec 80 :=
  c.teamId ++ 0#6 ++ BitVec.ofBool c.fire ++ BitVec.ofBool c.estop ++ c.speed ++ c.omega ++ c.vy ++ c.vx

/-- The motor channel output record (R94): [7:0] duty, [8] full_on, [9] dir_a, [10] dir_b. -/
def Motor.pack (m : Motor) : BitVec 11 :=
  BitVec.ofBool m.dirB ++ BitVec.ofBool m.dirA ++ BitVec.ofBool m.fullOn ++ m.duty

/-- The HitEvent record (R92): [63:0] at, [71:64] team, [72] self, [79:73] zero. -/
def HitEvent.pack (e : HitEvent) : BitVec 80 :=
  0#7 ++ BitVec.ofBool e.self ++ e.team ++ BitVec.ofNat 64 e.receivedAt

/-- The receiver a pin field names (R91: four bits). -/
def pinIndex (p : BitVec 4) : Fin 16 := ⟨p.toNat, p.isLt⟩

/-- The channels' and the receivers' numbers are those of R95; the run state's code. -/
def RunState.code : RunState → BitVec 2
  | .reset => 0
  | .run => 1
  | .halt => 2
  | .fatal => 3

/-- The symbol codes (R82). -/
def Symbol.code : Symbol → BitVec 2
  | .none => 0
  | .bit0 => 1
  | .bit1 => 2
  | .startEnd => 3

/-- The symbol of a code (R82). -/
def symbolOfCode (b : BitVec 2) : Symbol :=
  match b.toNat with
  | 0 => .none
  | 1 => .bit0
  | 2 => .bit1
  | _ => .startEnd

/-- The symbol at a position of a 20-bit frame string, position 0 in the two highest bits (R83). -/
def frameSymbol (codes : BitVec 20) (i : Fin 10) : Symbol := symbolOfCode (codes.extractLsb' (2 * (9 - i.val)) 2)

/-- The wheel value of DUTYMAP's operands (log entry 23). -/
def wheelOf (num denLess1 : BitVec 32) : Frac := ⟨num.toInt, denLess1.toNat + 1⟩

end Sys2Proof.Machine
end

