-- ==== Sys2Proof/Machine/Flags.lean ====
section
/-! DEFINITION. Every condition and flag word the block computes: MEANINGFUL (spec/43_session_fsm.md R187), the safety stop (R184), the
motors' halt (R189), the session state (R181) and the packed ST_FLAGS (spec/10_state.md R40). -/

namespace Sys2Proof.Machine

/-- An axis magnitude above the deadband (R187): with the default 1/20, `abs(v) * 20 > 16384`. -/
def aboveDeadband (c : Params) (v : BitVec 16) : Bool :=
  decide (c.deadband.num * one < v.toInt.natAbs * c.deadband.den)

/-- MEANINGFUL(cmd) (R187). -/
def meaningfulCommand (c : Params) (cmd : Command) : Bool :=
  aboveDeadband c cmd.vx || aboveDeadband c cmd.vy || aboveDeadband c cmd.omega || cmd.estop

/-- The safety-stop condition (R184): no command yet, estop, or the last command older than the timeout. -/
def stopCondition (s : State) : Bool :=
  !s.mailbox.valid || s.mailbox.cmd.estop || decide (s.cfg.cmdTimeout < s.now - s.mailbox.tCmd)

/-- The inactivity condition of R185, strict. -/
def inactive (s : State) : Bool := decide (s.cfg.standbyTimeout < s.now - s.mailbox.tInput)

/-- `halt_motors` (R189), from the stop condition SAFETY_STOP returned. -/
def haltMotors (s : State) (stop : Bool) : Bool := s.session.hitActive || stop || s.session.standby

/-- SessionState (R180), a function of the session fields. -/
inductive SessionState where
  | driving
  | standby
  | hitDisabled (remaining : Nat)
  deriving DecidableEq, Repr

/-- `session(S)` (R181). -/
def sessionState (s : State) : SessionState :=
  if s.session.hitActive then .hitDisabled s.session.remaining
  else if s.session.standby then .standby
  else .driving

/-- The session code (R95). -/
def SessionState.code : SessionState → BitVec 2
  | .driving => 0
  | .standby => 1
  | .hitDisabled _ => 2

/-- ST_FLAGS, register 2 (R40), from bit 0 up: [0] is_hit to [7] cmd_valid, [9:8] the run state, [11:10] the session code,
[12] fire_dropped, [15:13] zero. -/
def stFlags (s : State) : BitVec 16 :=
  BitVec.ofBoolListLE
    [s.session.hitActive, s.session.hitSelf, s.session.standby, s.flags.stopActive, s.tx.busy, s.flags.fireRefused,
      s.driveEnable, s.mailbox.valid, s.runState.code.getLsbD 0, s.runState.code.getLsbD 1,
      (sessionState s).code.getLsbD 0, (sessionState s).code.getLsbD 1, s.flags.fireDropped, false, false, false]

end Sys2Proof.Machine
end

