-- ==== Sys2Proof/Machine/Ops.lean ====
section
/-! DEFINITION. The named operations over the state that the meanings share: the register space (spec/20_memory.md R69), the hit
queue (R64), the receivers' records, taking the lockout and leaving it (spec/60_exceptions.md R239, R240: this hardware's one
analogue of taking an exception and returning), stopping the motors, and what an operation answers. -/

namespace Sys2Proof.Machine

/-- Add one code of the outcome table (R235) to what the operation reports. -/
def State.note (s : State) (c : OutCode) : State := { s with out := { s.out with codes := s.out.codes ++ [c] } }

/-- Set the operation's outcome class (R12). -/
def State.withOutcome (s : State) (o : OpOutcome) : State := { s with out := { s.out with outcome := o } }

/-- Set what the operation returns. -/
def State.withResult (s : State) (r : Result) : State := { s with out := { s.out with result := r } }

/-- Nothing answered yet: an operation begins. -/
def State.clearOut (s : State) : State := { s with out := {} }

/-- An operation performed where it has no effect (R21, R235 code 11). -/
def State.ignored (s : State) : State := s.clearOut.note .ignoredOperation

/-- An operation of a running block: outside RUN it has no effect (R21, R260). -/
def whenRunning (s : State) (f : State → Answer) : Answer :=
  if s.runState = .run then f s.clearOut else .next s.ignored

/-- The width in bits of a numbered register; 0 for a reserved number (R40). -/
def regWidth : Nat → Nat
  | 0 => 8
  | 1 => 8
  | 2 => 16
  | 3 => 8
  | 4 => 32
  | 5 => 64
  | 6 => 64
  | _ => 0

/-- `x[n]` (R40); a reserved number reads 0. -/
def readReg (s : State) (n : Nat) : BitVec 64 :=
  match n with
  | 0 => s.ownId.setWidth 64
  | 1 => (BitVec.ofBool s.selfhitEn).setWidth 64
  | 2 => (stFlags s).setWidth 64
  | 3 => s.session.hitBy.setWidth 64
  | 4 => (BitVec.ofNat 32 s.session.remaining).setWidth 64
  | 5 => BitVec.ofNat 64 s.session.hitAt
  | 6 => BitVec.ofNat 64 s.now
  | _ => 0

/-- `MemRead(n, k)` (R69): the register's value if `k` is its width in bytes, else 0. -/
def memRead (s : State) (n k : Nat) : BitVec 64 :=
  if 8 * k = regWidth n then readReg s n else 0

/-- The write of a configuration register (R204); none where the register is not 0 or 1. -/
def writeReg (s : State) (n : Nat) (data : Byte) : Option State :=
  match n with
  | 0 => some { s with ownId := data }
  | 1 => some { s with selfhitEn := data.getLsbD 0 }
  | _ => none

/-- The body of CFG_WRITE (R204): the register written, or a Discard (R235 code 2). -/
def configWrite (s : State) (n : Nat) (data : Byte) : State :=
  match writeReg s n data with
  | some s' => s'
  | none => (s.withOutcome .discard).note .badRegister

/-- `MemWrite(n, k, v)` (R69): for n = 0 and n = 1 with k = 1 the operation CFG_WRITE, any other a Discard. That the Discard of register 0
or 1 with another k carries code 2, whose cause R235 gives as "register not 0 or 1", is DESIGN CHOICE, log entry 13. -/
def memWrite (s : State) (n k : Nat) (v : Byte) : Answer :=
  whenRunning s fun s => .next (if k = 1 then configWrite s n v else (s.withOutcome .discard).note .badRegister)

/-- Room for one more event (R64). -/
def queueHasRoom (c : Params) (q : List HitEvent) : Bool :=
  match c.hitqDepth with
  | none => true
  | some d => decide (q.length < d)

/-- `push(S.HITQ, e)` (R64): append at the tail, or lose the new event when the queue is full. -/
def pushHit (s : State) (e : HitEvent) : State :=
  if queueHasRoom s.cfg s.hitq then { s with hitq := s.hitq ++ [e] } else s.note .queueOverflow

/-- `pop(S.HITQ)` (R64): the head and the state without it; none where the queue is empty. -/
def popHit (s : State) : Option (HitEvent × State) :=
  match s.hitq with
  | [] => none
  | e :: q => some (e, { s with hitq := q })

/-- `S.RX[p]`. -/
def State.rxAt (s : State) (p : Fin 16) : RxState := s.rx[p.val]

/-- `S.RX[p] <- r`. -/
def State.setRx (s : State) (p : Fin 16) (r : RxState) : State := { s with rx := s.rx.set p.val r }

/-- The time of an operation given the timestamp operand `t` (R20): `t`, or, where `t` is later than `now`, a free value that keeps R43
(a)'s bound (log entry 10). -/
def opTime (s : State) (t : Nat) : Nat := if t ≤ s.now then t else (freeTime s.draws).toNat % (s.now + 1)

/-- The state after `opTime`: a free value drawn where the operand is later than `now`. -/
def State.timed (s : State) (t : Nat) : State := { s with draws := if t ≤ s.now then s.draws else s.draws + 1 }

/-- `later - earlier` of two times (R9), or the `n`-th free value where the difference is not stated, `later` being the earlier of the
two (log entry 10). -/
def timeBetween (n earlier later : Nat) : Nat := if earlier ≤ later then later - earlier else (freeTime n).toNat

/-- STOP on all four channels (R165, R170). -/
def State.stopAll (s : State) : State := { s with mot := ⟨{}, {}, {}, {}⟩ }

/-- Entering the lockout (R182, R239): the timer loaded, the attacker, the self flag and the time saved; the standby latch
stays. -/
def enterLockout (s : State) (e : HitEvent) : State :=
  { s with session := { s.session with
      hitActive := true, remaining := s.cfg.hitDisableTime, hitBy := e.team, hitSelf := e.self, hitAt := e.receivedAt } }

/-- Leaving the lockout (R183, R240): Driving, the hit record cleared, the inactivity timer started afresh. -/
def leaveLockout (s : State) : State :=
  { s with
    session := { hitActive := false, remaining := 0, standby := false, hitBy := 0, hitSelf := false, hitAt := 0 }
    mailbox := { s.mailbox with tInput := s.now } }

/-- The status record (R93). -/
def statusRecord (s : State) : StatusRecord where
  teamId := s.ownId
  isHit := s.session.hitActive
  hitByTeam := s.session.hitBy
  timeRemaining := s.session.remaining
  isSelfHit := s.session.hitSelf

end Sys2Proof.Machine
end

