-- ==== Sys2Proof/Machine/Arbiter.lean ====
section
/-! DEFINITION. What runs next: fetching the operation due now, and the arbiter that finds the next time at which something is due and
lines its operations up (spec/44_control_loop.md R200, R207, R208). -/

namespace Sys2Proof.Machine

/-- The next operation due now and the state without it. -/
def fetch (s : State) : Option (TraceWord × State) :=
  match s.agenda with
  | [] => none
  | w :: rest => some (w, { s with agenda := rest })

/-- The operations that can come from outside the block (R96: 0x01 to 0x05, and 0x00 as the `rst` input), and BOOT, the
release of `rst` (R262). A pin's samples come from its level, not from an entry (log entry 18). -/
def isExternal : Instr → Bool
  | .reset => true
  | .cmdWrite _ => true
  | .cfgWrite _ _ => true
  | .edge _ _ _ => true
  | .statusRead _ => true
  | .shutdown => true
  | .boot _ => true
  | _ => false

/-- Why an input word is turned away: it is no operation, or none that comes from outside. -/
def inputRefusal (w : TraceWord) : Option Refusal :=
  match decode w with
  | .error e => some (.undecodable e)
  | .ok i => if isExternal i then none else some .notAnInput

/-- The first reason among the words. -/
def firstRefusal (ws : List TraceWord) : Option Refusal := ws.findSome? inputRefusal

/-- A word that decodes to RESET. -/
def isResetWord (w : TraceWord) : Bool :=
  match decode w with
  | .ok .reset => true
  | _ => false

/-- The place of an operation among those of one timestamp (R207): SHUTDOWN, CFG_WRITE, EDGE by ascending pin, CMD_WRITE,
TX_STEP, TICK, and STATUS_READ last (R208). The release of `rst` stands before all. -/
def duePlace : Instr → Nat
  | .reset => 0
  | .boot _ => 1
  | .shutdown => 2
  | .cfgWrite _ _ => 3
  | .edge pin _ _ => 4 + pin.toNat
  | .edgeSync pin _ => 4 + pin.toNat
  | .cmdWrite _ => 20
  | .txStep => 21
  | .tick => 22
  | _ => 23

/-- The place of a word. -/
def wordPlace (w : TraceWord) : Nat :=
  match decode w with
  | .ok i => duePlace i
  | .error _ => 0

/-- A word put behind every word of the same or an earlier place. -/
def insertDue (w : TraceWord) : List TraceWord → List TraceWord
  | [] => [w]
  | x :: xs => if wordPlace w < wordPlace x then w :: x :: xs else x :: insertDue w xs

/-- The words in the order of R207; words of one place keep their order. -/
def inDueOrder (ws : List TraceWord) : List TraceWord := ws.foldl (fun acc w => insertDue w acc) []

/-- When an input stands. -/
def Input.time : Input → Nat
  | .op t _ => t
  | .pin t _ _ => t

/-- `t_ext` (R208). -/
def nextInputTime (s : State) : Option Nat := s.env.inputs.head?.map Input.time

/-- `t_tick` (R200, R208). -/
def nextTickTime (s : State) : Option Nat :=
  if s.runState = .run then some (s.tLastTick + s.cfg.tickPeriod) else none

/-- `t_tx` (R112, R208). -/
def nextTxTime (s : State) : Option Nat :=
  if s.runState = .run ∧ s.tx.busy then some s.tx.deadline else none

/-- The next microsecond, when the pins are sampled (R130, R208). -/
def nextSampleTime (s : State) : Option Nat :=
  if s.runState = .run ∧ s.env.sampling then some (s.now + 1) else none

/-- The earlier of two times, `none` being +infinity (R208). -/
def earlier : Option Nat → Option Nat → Option Nat
  | none, b => b
  | some a, none => some a
  | some a, some b => some (min a b)

/-- `min(t_ext, t_tick, t_tx)` (R208), with the next sample. -/
def nextTime (s : State) : Option Nat :=
  earlier (nextInputTime s) (earlier (nextTickTime s) (earlier (nextTxTime s) (nextSampleTime s)))

/-- The time the run moves to: the next at which something is due, never back; the next microsecond where nothing is due ever again
(R20; log entry 17). -/
def moveTo (s : State) : Nat :=
  match nextTime s with
  | none => s.now + 1
  | some t => max s.now t

/-- The next input stands before `now` (R208: non-decreasing timestamps). -/
def inputLate (s : State) : Bool := (nextInputTime s).any fun t => decide (t < s.now)

/-- What is taken from the inputs at a time. -/
structure Taken where
  words : List TraceWord
  pins : Vector Bool 16
  rest : List Input

/-- The leading inputs that stand at `t`, up to a RESET; level changes are applied to the pins. A level change that stands at `t` is a
change at a real time after `t - 1` and at or before `t`, first sampled at `t` as R130 has it ("at or after"), its EDGE at `t + 1`. At
the integer time `t` itself R282's "more than 1 us" would have it a microsecond later: R130 is taken, DESIGN CHOICE, log entry 15. -/
def takeInputs (t : Nat) : List Input → Vector Bool 16 → Taken
  | [], pins => { words := [], pins := pins, rest := [] }
  | .pin t' p level :: rest, pins =>
    if t' = t then takeInputs t rest (pins.set p.val level)
    else { words := [], pins := pins, rest := .pin t' p level :: rest }
  | .op t' w :: rest, pins =>
    if t' = t ∧ isResetWord w = false then
      let k := takeInputs t rest pins
      { k with words := w :: k.words }
    else { words := [], pins := pins, rest := .op t' w :: rest }

/-- The samples of every receiver pin at an increment of `now` (R130), in ascending pin order. -/
def samplesDue (s : State) (t : Nat) (pins : Vector Bool 16) : List TraceWord :=
  if s.runState = .run ∧ s.env.sampling ∧ s.now < t then
    (List.range s.cfg.nRx).map fun p => encode (.edgeSync (BitVec.ofNat 4 p) (pins.toList.getD p true))
  else []

/-- The block's own operation due by `t`, if its time has come. -/
def dueBy (t : Nat) (due : Option Nat) (i : Instr) : List TraceWord :=
  match due with
  | none => []
  | some d => if d ≤ t then [encode i] else []

/-- Move `now` to `t` and line up every operation due there, in the order of R207 (R208). -/
def lineUp (s : State) (t : Nat) : Answer :=
  let k := takeInputs t s.env.inputs s.env.pins
  match firstRefusal k.words with
  | some r => .refused r
  | none =>
    .next { s with
      now := t
      env := { s.env with inputs := k.rest, pins := k.pins }
      agenda := inDueOrder
        (k.words ++ samplesDue s t k.pins ++ dueBy t (nextTxTime s) .txStep ++ dueBy t (nextTickTime s) .tick) }

/-- `rst` asserted at `t`: nothing else of that time runs (R260; log entry 7). -/
def resetFirst (s : State) (t : Nat) : Option State :=
  match s.env.inputs with
  | .op t' w :: rest =>
    if t' = t ∧ isResetWord w then some { s with now := t, env := { s.env with inputs := rest }, agenda := [w] } else none
  | _ => none

/-- While `rst` is high `now` is held at 0 and no tick, transmission or sample is due (R260): the next input is offered, and
with none the block stays in reset (log entry 8). -/
def arbitrateInReset (s : State) : Answer :=
  match s.env.inputs with
  | [] => .next s
  | .pin _ p level :: rest => .next { s with env := { s.env with inputs := rest, pins := s.env.pins.set p.val level } }
  | .op _ w :: rest =>
    match inputRefusal w with
    | some r => .refused r
    | none => .next { s with env := { s.env with inputs := rest }, agenda := [w] }

/-- One turn of R208's loop with nothing left to do now: find the next time, move to it, line up what is due. -/
def arbitrate (s : State) : Answer :=
  let s := s.clearOut
  if s.runState = .reset then arbitrateInReset s
  else if inputLate s then .refused .inputOutOfOrder
  else if timeLimit ≤ moveTo s then .refused .timeBaseExhausted
  else
    match resetFirst s (moveTo s) with
    | some s' => .next s'
    | none => lineUp s (moveTo s)

end Sys2Proof.Machine
end

