-- ==== Sys2Proof/Machine/IrTx.lean ====
section
/-! DEFINITION. The infrared transmitter: ENCODE, TX_REQUEST, TX_STEP (spec/40_ir_tx.md). -/

namespace Sys2Proof.Machine

/-- The duration at a position of a frame (R110): START_END at both ends, the identifier bit `8 - i` at position `i`. -/
def frameDuration (c : Params) (id : Byte) (i : Fin 10) : Nat :=
  if i.val = 0 ∨ i.val = 9 then c.tStartEnd
  else if id.getLsbD (8 - i.val) then c.tBit1
  else c.tBit0

/-- ENCODE(id) (R110). -/
def encodeFrame (c : Params) (id : Byte) : Vector Nat 10 := Vector.ofFn (frameDuration c id)

/-- TX_REQUEST's answers (R111). -/
inductive TxAnswer where
  | ok
  | refuse
  | drop
  deriving DecidableEq, Repr

/-- TX_REQUEST(id) at `now` (R111): the lockout is tested before the lock. -/
def txRequest (s : State) (id : Byte) : TxAnswer × State :=
  if s.session.hitActive then (.refuse, s)
  else if s.tx.busy then (.drop, s)
  else
    (.ok, { s with tx :=
      { busy := true, id := id, idx := 0, phase := .burst, deadline := s.now + frameDuration s.cfg id 0, irEnv := true } })

/-- The next symbol's index. -/
def nextIdx (i : Fin 10) : Fin 10 := if h : i.val + 1 < 10 then ⟨i.val + 1, h⟩ else 0

/-- TX_STEP at `now`, of a transmitter that is sending (R112). -/
def txStep (s : State) : State :=
  match s.tx.phase with
  | .burst => { s with tx := { s.tx with irEnv := false, phase := .gap, deadline := s.now + s.cfg.txGap } }
  | .gap =>
    if s.tx.idx.val = 9 then { s with tx := { s.tx with busy := false } }
    else
      { s with tx := { s.tx with
          idx := nextIdx s.tx.idx, phase := .burst, irEnv := true,
          deadline := s.now + frameDuration s.cfg s.tx.id (nextIdx s.tx.idx) } }

/-- ENCODE (R110): no side effect, the ten durations. -/
def execEncodeId (id : Byte) (s : State) : Answer :=
  .next (s.clearOut.withResult (.durations (encodeFrame s.cfg id)))

/-- TX_REQUEST (R111) with its outcome (R235 codes 6 and 7). -/
def execTxRequest (id : Byte) (s : State) : Answer :=
  whenRunning s fun s =>
    match txRequest s id with
    | (.ok, s') => .next s'
    | (.refuse, s') => .next ((s'.withOutcome .refuse).note .fireWhileDisabled)
    | (.drop, s') => .next ((s'.withOutcome .drop).note .txInFlight)

/-- TX_STEP (R112). With no transmission in flight its precondition fails and nothing changes (log entry 9). -/
def execTxStep (s : State) : Answer :=
  whenRunning s fun s => .next (if s.tx.busy then txStep s else s)

end Sys2Proof.Machine
end

