-- ==== Sys2Proof/Machine/Kinematics.lean ====
section
/-! DEFINITION. Drive kinematics: MECANUM, DUTYMAP, MOTOR_APPLY (spec/42_kinematics.md), in exact integers by cross-multiplication
(spec/92_eei_decisions.md D4). -/

namespace Sys2Proof.Machine

/-- The four sums (R160). -/
def rawSums (c : Params) (vx vy om : Int) : PerWheel Int where
  fl := vy + vx + om
  fr := -vy + vx - om
  rl := -vy + vx + om
  rr := vy + c.rrVxSign.apply vx - om

/-- The normaliser M (R161). -/
def normaliser (a : PerWheel Int) : Nat :=
  max one (max a.fl.natAbs (max a.fr.natAbs (max a.rl.natAbs a.rr.natAbs)))

/-- One wheel value (R161, R162): `a * sp / (M * 16384)`. -/
def wheelValue (m : Nat) (sp : Nat) (a : Int) : Frac := ⟨a * sp, m * one⟩

/-- MECANUM (R160 to R162). -/
def mecanum (c : Params) (vx vy om : Int) (sp : Nat) : PerWheel Frac :=
  let a := rawSums c vx vy om
  let m := normaliser a
  ⟨wheelValue m sp a.fl, wheelValue m sp a.fr, wheelValue m sp a.rl, wheelValue m sp a.rr⟩

/-- MECANUM of a command's fields (R89). -/
def mecanumOf (c : Params) (cmd : Command) : PerWheel Frac :=
  mecanum c cmd.vx.toInt cmd.vy.toInt cmd.omega.toInt cmd.speed.toNat

/-- The magnitude `n / d` is below ZERO_EPS, strictly (R165). -/
def inZeroBand (c : Params) (n d : Nat) : Bool := decide (n * c.zeroEps.den < c.zeroEps.num * d)

/-- The magnitude `n / d` is at or above PURE_DC_THRESHOLD (R167). -/
def isFullyOn (c : Params) (n d : Nat) : Bool := decide (c.pureDc.num * d ≤ n * c.pureDc.den)

/-- `floor(DUTY_MAX * (MIN_DUTY + (1 - MIN_DUTY) * mag))` for the magnitude `n / d` (R168): one integer division. -/
def dutyCode (c : Params) (n d : Nat) : Nat :=
  c.dutyMax * (c.minDuty.num * d + (c.minDuty.den - c.minDuty.num) * n) / (c.minDuty.den * d)

/-- DUTYMAP (R164 to R168) of a wheel value under a wiring sign. -/
def dutyMap (c : Params) (sg : Sign) (w : Frac) : Motor :=
  let e := sg.apply w.num
  let n := e.natAbs
  if inZeroBand c n w.den then {}
  else
    let forward := decide (0 < e)
    if isFullyOn c n w.den then { dirA := forward, dirB := !forward, fullOn := true, duty := 255 }
    else { dirA := forward, dirB := !forward, fullOn := false, duty := BitVec.ofNat 8 (dutyCode c n w.den) }

/-- The four motor registers for a command (R170). -/
def driveMotors (c : Params) (cmd : Command) : PerWheel Motor :=
  let w := mecanumOf c cmd
  ⟨dutyMap c c.sign.fl w.fl, dutyMap c c.sign.fr w.fr, dutyMap c c.sign.rl w.rl, dutyMap c c.sign.rr w.rr⟩

/-- MOTOR_APPLY(halt_motors) (R170). -/
def motorApply (s : State) (halt : Bool) : State :=
  if halt then s.stopAll else { s with mot := driveMotors s.cfg s.mailbox.cmd }

/-- MECANUM (R160 to R162): no side effect, the four wheel values. -/
def execMecanum (vx vy omega : BitVec 16) (speed : BitVec 16) (s : State) : Answer :=
  .next (s.clearOut.withResult (.wheels (mecanum s.cfg vx.toInt vy.toInt omega.toInt speed.toNat)))

/-- DUTYMAP (R164 to R169): no side effect, the motor record. -/
def execDutymap (num denLess1 : BitVec 32) (sign : Sign) (s : State) : Answer :=
  .next (s.clearOut.withResult (.motor (dutyMap s.cfg sign (wheelOf num denLess1))))

/-- MOTOR_APPLY (R170). -/
def execMotorApply (halt : Bool) (s : State) : Answer :=
  whenRunning s fun s => .next (motorApply s halt)

end Sys2Proof.Machine
end

