-- ==== Sys2Proof/Machine/Session.lean ====
section
/-! DEFINITION. The session state machine's sub-operations HIT_TAKE, HIT_EXPIRE, SAFETY_STOP, STANDBY_UPDATE and the function
MEANINGFUL (spec/43_session_fsm.md). -/

namespace Sys2Proof.Machine

/-- A popped event starts the lockout (R182): not disabled, and not a self-hit that the flag masks (R192). -/
def takesHit (s : State) (e : HitEvent) : Bool := !s.session.hitActive && (s.selfhitEn || !e.self)

/-- One event of HIT_TAKE's loop (R182), already popped: taken, or discarded (R235 code 8). -/
def takeEvent (s : State) (e : HitEvent) : State :=
  if takesHit s e then enterLockout s e else s.note .hitIgnored

/-- HIT_TAKE's loop (R182): pop until the queue is empty; `n` bounds the pops. -/
def drainHits : Nat → Bool → State → Bool × State
  | 0, entered, s => (entered, s)
  | n + 1, entered, s =>
    match popHit s with
    | none => (entered, s)
    | some (e, s') => drainHits n (entered || takesHit s' e) (takeEvent s' e)

/-- HIT_TAKE (R182): the whole queue drained, oldest first; whether the lockout was entered. -/
def hitTake (s : State) : Bool × State := drainHits s.hitq.length false s

/-- HIT_EXPIRE(elapsed, entered) (R183). -/
def hitExpire (s : State) (elapsed : Nat) (entered : Bool) : State :=
  if s.session.hitActive && !entered then
    let left := s.session.remaining - min s.session.remaining elapsed
    if left = 0 then leaveLockout s else { s with session := { s.session with remaining := left } }
  else s

/-- SAFETY_STOP (R184). -/
def safetyStop (s : State) : Bool × State :=
  (stopCondition s, { s with flags := { s.flags with stopActive := stopCondition s } })

/-- STANDBY_UPDATE (R185, R186): the latch outside the lockout, the enable lines always. -/
def standbyUpdate (s : State) : State :=
  let standby := if s.session.hitActive then s.session.standby else inactive s
  { s with session := { s.session with standby := standby }, driveEnable := !standby }

/-- HIT_TAKE (R182); the result is `entered`. -/
def execHitTake (s : State) : Answer :=
  whenRunning s fun s => .next ((hitTake s).2.withResult (.flag (hitTake s).1))

/-- HIT_EXPIRE (R183). -/
def execHitExpire (elapsed : BitVec 64) (entered : Bool) (s : State) : Answer :=
  whenRunning s fun s => .next (hitExpire s elapsed.toNat entered)

/-- SAFETY_STOP (R184); the result is `stop`. -/
def execSafetyStop (s : State) : Answer :=
  whenRunning s fun s => .next ((safetyStop s).2.withResult (.flag (safetyStop s).1))

/-- STANDBY_UPDATE (R185, R186). -/
def execStandbyUpdate (s : State) : Answer :=
  whenRunning s fun s => .next (standbyUpdate s)

/-- MEANINGFUL (R187): no side effect, one bit. -/
def execMeaningful (cmd : BitVec 80) (s : State) : Answer :=
  .next (s.clearOut.withResult (.flag (meaningfulCommand s.cfg (commandOf cmd))))

end Sys2Proof.Machine
end

