-- ==== Sys2Proof/Machine/Loop.lean ====
section
/-! DEFINITION. The control loop: TICK, FIRE_DISPATCH, CMD_WRITE, CFG_WRITE, STATUS_READ, SHUTDOWN (spec/44_control_loop.md), RESET
and BOOT (spec/70_reset_and_hazards.md). -/

namespace Sys2Proof.Machine

/-- FIRE_DISPATCH at `now` (R202): level-sensitive, gated only by the lockout, the lock's drop recorded. -/
def fireDispatch (s : State) : State :=
  let s := { s with flags := { s.flags with fireRefused := false, fireDropped := false } }
  if s.mailbox.valid && s.mailbox.cmd.fire then
    if s.session.hitActive then
      { s with flags := { s.flags with fireRefused := true } }.note .fireWhileDisabled
    else
      match txRequest s s.mailbox.cmd.teamId with
      | (.ok, s') => s'
      | (.refuse, s') => s'
      | (.drop, s') => { s' with flags := { s'.flags with fireDropped := true } }.note .txInFlight
  else s

/-- TICK at `now` (R201): the six sub-operations in their fixed order. -/
def tick (s : State) : State :=
  let elapsed := s.now - s.tLastTick
  let s := { s with tLastTick := s.now }
  let (entered, s) := hitTake s
  let s := hitExpire s elapsed entered
  let (stop, s) := safetyStop s
  let s := standbyUpdate s
  let s := motorApply s (haltMotors s stop)
  fireDispatch s

/-- The mailbox after an accepted command at `now` (R203). -/
def acceptCommand (s : State) (cmd : Command) : State :=
  { s with mailbox :=
    { cmd := cmd, valid := true, tCmd := s.now,
      tInput := if meaningfulCommand s.cfg cmd then s.now else s.mailbox.tInput } }

/-- SHUTDOWN's body (R206). -/
def shutdown (s : State) : State :=
  { s.stopAll with driveEnable := false, tx := { s.tx with irEnv := false, busy := false }, runState := .halt }

/-- TICK (R201). -/
def execTick (s : State) : Answer := whenRunning s fun s => .next (tick s)

/-- FIRE_DISPATCH (R202); a refused fire is its outcome (R235 code 7). -/
def execFireDispatch (s : State) : Answer :=
  whenRunning s fun s =>
    let s' := fireDispatch s
    .next (if s'.flags.fireRefused then s'.withOutcome .refuse else s')

/-- CMD_WRITE(word) (R203): Discard of an illegal word, else the mailbox replaced whole and the status record returned. -/
def execCmdWrite (word : BitVec 80) (s : State) : Answer :=
  whenRunning s fun s =>
    if commandLegal word then
      let s' := acceptCommand s (commandOf word)
      .next (s'.withResult (.status (statusRecord s')))
    else .next ((s.withOutcome .discard).note .badCommand)

/-- CFG_WRITE(reg, data) (R204). -/
def execCfgWrite (reg : BitVec 3) (data : Byte) (s : State) : Answer :=
  memWrite s reg.toNat 1 data

/-- STATUS_READ(n) (R205): the register's value, in any run state, no state change. -/
def execStatusRead (n : Byte) (s : State) : Answer :=
  .next (s.clearOut.withResult (.data (memRead s n.toNat (regWidth n.toNat / 8))))

/-- SHUTDOWN (R206). -/
def execShutdown (s : State) : Answer := whenRunning s fun s => .next (shutdown s)

/-- RESET (R260), from any state: every field of S at its reset value, the operations due now lost; the configuration, the
environment and the count of free values are not the block's state (log entry 7). -/
def execReset (s : State) : Answer := .next { State.resetWith s.cfg s.env with draws := s.draws }

/-- BOOT(drv_ready) at the release of `rst` (R262); with `rst` not held there is no release and nothing changes (log entry 8). That
it notes code 11 there, in RUN too, where R235 lists HALT and FATAL, is DESIGN CHOICE, log entry 13. -/
def execBoot (drvReady : Bool) (s : State) : Answer :=
  if s.runState = .reset then
    if drvReady then .next { s.clearOut with runState := .run, driveEnable := true }
    else .next (({ s.clearOut with runState := .fatal }.withOutcome .fatal).note .driverNotReady)
  else .next s.ignored

end Sys2Proof.Machine
end

