-- ==== Sys2Proof/Machine/Output.lean ====
section
/-! DEFINITION. The block's outputs as functions of the state: the gated carrier (spec/40_ir_tx.md R114, R115) and the pins of a motor
channel (spec/30_encoding.md R94, spec/42_kinematics.md R173). No operation reads them. -/

namespace Sys2Proof.Machine

/-- Whole carrier cycles in a burst of `d` microseconds (R115). -/
def carrierCycles (c : Params) (d : Nat) : Nat := d * c.carrierHz / 1000000

/-- The carrier's level at `num / den` microseconds after a burst's start (R114): the phase restarts at the start, the high
half first, high for CARRIER_DUTY of a period. -/
def carrierHigh (c : Params) (num den : Nat) : Bool :=
  decide (num * c.carrierHz % (1000000 * den) * c.carrierDuty.den < c.carrierDuty.num * (1000000 * den))

/-- When the burst in progress started (R111, R112): its deadline less its duration. -/
def burstStart (s : State) : Nat := s.tx.deadline - frameDuration s.cfg s.tx.id s.tx.idx

/-- `ir_tx` (R114) at the real time `now + num / den`, a time inside the microsecond that begins at `now` (log entry 20). -/
def irTxAt (s : State) (num den : Nat) : Bool :=
  s.tx.irEnv && carrierHigh s.cfg ((s.now - burstStart s) * den + num) den

/-- How a channel's enable pin is driven. -/
inductive EnablePin where
  /-- Held low as a plain output (R173). -/
  | low
  /-- Held high, PWM bypassed (R94: `set_output(enable pin, 1)`). -/
  | high
  /-- Driven by the PWM generator (R94: `set_pwm_duty(enable pin, duty)`). -/
  | pwm (duty : Byte)
  deriving DecidableEq, Repr

/-- The enable pin of a channel (R36, R94, R173). -/
def enablePin (s : State) (m : Motor) : EnablePin :=
  if s.driveEnable then (if m.fullOn then .high else .pwm m.duty) else .low

end Sys2Proof.Machine
end

