-- ==== Sys2Proof/Machine/IrRx.lean ====
section
/-! DEFINITION. The infrared receiver: CLASSIFY, DECODE, HIT_PUSH, RX_FALL, RX_RISE, EDGE, EDGE_SYNC (spec/41_ir_rx.md). -/

namespace Sys2Proof.Machine

/-- A width inside the window of a nominal duration, both ends included (R87). -/
def inWindow (c : Params) (nominal w : Nat) : Bool := decide (nominal - c.tol ≤ w) && decide (w ≤ nominal + c.tol)

/-- CLASSIFY(w) (R137). -/
def classify (c : Params) (w : Nat) : Symbol :=
  if inWindow c c.tStartEnd w then .startEnd
  else if inWindow c c.tBit1 w then .bit1
  else if inWindow c c.tBit0 w then .bit0
  else .none

/-- The number of bit symbols, first sent most significant (R84); none where a symbol is no bit. -/
def bitsValue : List Symbol → Option Nat
  | [] => some 0
  | .bit1 :: cs => (bitsValue cs).map (· + 2 ^ cs.length)
  | .bit0 :: cs => bitsValue cs
  | .none :: _ => Option.none
  | .startEnd :: _ => Option.none

/-- The identifier of a frame's ten symbols (R83, R138): START_END at both ends, bit symbols between. -/
def decodeSymbols (f : Fin 10 → Symbol) : Option Byte :=
  if f 0 = .startEnd ∧ f 9 = .startEnd then
    (bitsValue [f 1, f 2, f 3, f 4, f 5, f 6, f 7, f 8]).map (BitVec.ofNat 8)
  else none

/-- DECODE(buf) (R138). -/
def decodeFrame (c : Params) (buf : Vector Nat 10) : Option Byte := decodeSymbols fun i => classify c buf[i.val]

/-- HIT_PUSH(id, t) (R139): the event is marked against `S.own_id` now. -/
def hitPush (s : State) (id : Byte) (t : Nat) : State :=
  pushHit s { team := id, receivedAt := t, self := id == s.ownId }

/-- RX_FALL(p, t) (R133). -/
def rxFall (s : State) (p : Fin 16) (t : Nat) : State :=
  s.setRx p { s.rxAt p with fallValid := true, fallTs := t }

/-- The width of the burst that a rising edge at `t` completes (R134); free where the edge is earlier than the fall (log entry 10). -/
def burstWidth (s : State) (r : RxState) (t : Nat) : Nat := timeBetween s.draws r.fallTs t

/-- The gap rule fires (R135): some burst has completed and the rise-to-rise time exceeds the timeout. That time is free where the edge
is earlier than the last rise (log entry 10). -/
def gapFires (s : State) (r : RxState) (t : Nat) : Bool :=
  r.lastValid && decide (s.cfg.rxGapTimeout < timeBetween (s.draws + 1) r.lastTs t)

/-- The free values a rising edge at `t` draws (log entry 10): none where both differences of R134 are stated. -/
def drawnByRise (r : RxState) (t : Nat) : Nat := if r.fallTs ≤ t ∧ (r.lastValid = true → r.lastTs ≤ t) then 0 else 2

/-- The count before the append (R135): a partial buffer is discarded when the gap rule fires. -/
def countBefore (r : RxState) (gap : Bool) : Fin 10 := if gap then 0 else r.cnt

/-- The receiver after the append of a burst of width `w` completed at `t` (R134, R136): a count that would be FRAME_LEN is cleared. -/
def appendBurst (c : Params) (r : RxState) (t w : Nat) (gap : Bool) : RxState :=
  let k := countBefore r gap
  { r with
    fallValid := false
    buf := r.buf.set k.val w
    cnt := if h : k.val + 1 < 10 ∧ k.val + 1 < c.frameLen then ⟨k.val + 1, h.1⟩ else 0
    lastTs := t
    lastValid := true }

/-- The burst is the last of a frame: with it the count is FRAME_LEN (R134, R136). -/
def completesFrame (c : Params) (r : RxState) (gap : Bool) : Bool := (countBefore r gap).val + 1 == c.frameLen

/-- The receiver after a rising edge at `t` that ends a burst. -/
def riseReceiver (s : State) (r : RxState) (t : Nat) : RxState :=
  appendBurst s.cfg r t (burstWidth s r t) (gapFires s r t)

/-- RX_RISE(p, t) (R134): gap rule, append, completion, decode and event in one operation; the codes are those of R235. -/
def rxRise (s : State) (p : Fin 16) (t : Nat) : State :=
  let r := s.rxAt p
  if r.fallValid then
    let gap := gapFires s r t
    let r' := riseReceiver s r t
    let s' := { s.setRx p r' with draws := s.draws + drawnByRise r t }
    let s'' := if gap && decide (0 < r.cnt.val) then s'.note .gapDiscard else s'
    if completesFrame s.cfg r gap then
      match decodeFrame s.cfg r'.buf with
      | some id => hitPush s'' id t
      | none => s''.note .decodeFailure
    else s''
  else s.note .ignoredEdge

/-- RX_FALL with the timestamp operand `t`. -/
def runFall (s : State) (p : Fin 16) (t : Nat) : State := rxFall (s.timed t) p (opTime s t)

/-- RX_RISE with the timestamp operand `t`. -/
def runRise (s : State) (p : Fin 16) (t : Nat) : State := rxRise (s.timed t) p (opTime s t)

/-- EDGE's dispatch (R132). -/
def runEdge (s : State) (p : Fin 16) (level : Bool) (ts : Nat) : State :=
  if level then runRise s p ts else runFall s p ts

/-- The synchroniser's shift (R130): the three assignments use the values from before. -/
def syncShift (r : RxState) (v : Bool) : RxState := { r with prev := r.s2, s2 := r.s1, s1 := v }

/-- EDGE_SYNC with the sampled level `v` (R130). -/
def runEdgeSync (s : State) (p : Fin 16) (v : Bool) : State :=
  let r := syncShift (s.rxAt p) v
  let s' := s.setRx p r
  if r.s2 = r.prev then s' else runEdge s' p r.s2 s.now

/-- An operation of a receiver pin: refused where the pin is absent, whatever the run state (R97 (g): "a model fed one refuses it"; R132's
operand is 0..N_RX-1), and else ignored outside RUN (R132). R97 (g) speaks of the edge record; that the operations beside EDGE follow
it is DEDUCED, log entry 26. -/
def onPin (s : State) (pin : BitVec 4) (f : State → Fin 16 → State) : Answer :=
  if pinPresent s.cfg pin then whenRunning s fun s => .next (f s (pinIndex pin)) else .refused .pinAbsent

/-- EDGE (R132). -/
def execEdge (pin : BitVec 4) (level : Bool) (ts : BitVec 64) (s : State) : Answer :=
  onPin s pin fun s p => runEdge s p level ts.toNat

/-- EDGE_SYNC (R130). -/
def execEdgeSync (pin : BitVec 4) (v : Bool) (s : State) : Answer := onPin s pin fun s p => runEdgeSync s p v

/-- RX_FALL (R133). -/
def execRxFall (pin : BitVec 4) (t : BitVec 64) (s : State) : Answer := onPin s pin fun s p => runFall s p t.toNat

/-- RX_RISE (R134). -/
def execRxRise (pin : BitVec 4) (t : BitVec 64) (s : State) : Answer := onPin s pin fun s p => runRise s p t.toNat

/-- HIT_PUSH (R139). -/
def execHitPush (id : Byte) (t : BitVec 64) (s : State) : Answer :=
  whenRunning s fun s => .next (hitPush (s.timed t.toNat) id (opTime s t.toNat))

/-- CLASSIFY (R137): no side effect, the symbol. -/
def execClassify (w : BitVec 64) (s : State) : Answer :=
  .next (s.clearOut.withResult (.symbol (classify s.cfg w.toNat)))

/-- DECODE (R138): no side effect, `some id` or `none`. -/
def execDecodeBuf (buf : Vector (BitVec 64) 10) (s : State) : Answer :=
  .next (s.clearOut.withResult (.identifier (decodeFrame s.cfg (Vector.ofFn fun i => buf[i.val].toNat))))

end Sys2Proof.Machine
end

