-- ==== Sys2Proof/Machine/Records.lean ====
section
/-! DEFINITION. The table's symbols, frame and records (spec/30_encoding.md R81 to R83, R87 to R94, R100): what each word stands
for. A record at a port has no effect by itself, so each answers its reading and changes no state (log entry 12). -/

namespace Sys2Proof.Machine

/-- A symbol's answer: its nominal duration (R81) and its window (R87). -/
def symbolAnswer (s : State) (sym : Symbol) (nominal : Nat) : Answer :=
  .next (s.clearOut.withResult (.symbolTimes sym (some nominal) (some (nominal - s.cfg.tol, nominal + s.cfg.tol))))

/-- SYM_NONE (R82, R87): no nominal duration, no window. -/
def execSymNone (s : State) : Answer := .next (s.clearOut.withResult (.symbolTimes .none none none))

/-- SYM_BIT_0 (R81, R87). -/
def execSymBit0 (s : State) : Answer := symbolAnswer s .bit0 s.cfg.tBit0

/-- SYM_BIT_1 (R81, R87). -/
def execSymBit1 (s : State) : Answer := symbolAnswer s .bit1 s.cfg.tBit1

/-- SYM_START_END (R81, R87). -/
def execSymStartEnd (s : State) : Answer := symbolAnswer s .startEnd s.cfg.tStartEnd

/-- IR_FRAME (R83, R84): the identifier of the ten symbol codes, or none where the frame is invalid. -/
def execIrFrame (codes : BitVec 20) (s : State) : Answer :=
  .next (s.clearOut.withResult (.identifier (decodeSymbols (frameSymbol codes))))

/-- CMD_WORD (R88 to R90): the fields and the legality. -/
def execCmdWord (word : BitVec 80) (s : State) : Answer :=
  .next (s.clearOut.withResult (.command (commandOf word) (commandLegal word)))

/-- CFG_RECORD (R100). -/
def execCfgRecord (reg : BitVec 3) (data : Byte) (s : State) : Answer :=
  .next (s.clearOut.withResult (.config reg data))

/-- MOTOR_RECORD (R94). -/
def execMotorRecord (dirB dirA fullOn : Bool) (duty : Byte) (s : State) : Answer :=
  .next (s.clearOut.withResult (.motor { dirA := dirA, dirB := dirB, fullOn := fullOn, duty := duty }))

/-- HIT_RECORD (R92). -/
def execHitRecord (self : Bool) (team : Byte) (receivedAt : BitVec 64) (s : State) : Answer :=
  .next (s.clearOut.withResult (.hit { team := team, receivedAt := receivedAt.toNat, self := self }))

end Sys2Proof.Machine
end

