-- ==== Sys2Proof/Machine/Dispatch.lean ====
section
/-! DEFINITION. The one dispatch from an instruction to its meaning. -/

namespace Sys2Proof.Machine

def exec (i : Instr) (s : State) : Host.Outcome State Fault Refusal :=
  match i with
  | .reset => Sys2Proof.Machine.execReset s
  | .cmdWrite word => Sys2Proof.Machine.execCmdWrite word s
  | .cfgWrite reg data => Sys2Proof.Machine.execCfgWrite reg data s
  | .edge pin level ts => Sys2Proof.Machine.execEdge pin level ts s
  | .statusRead n => Sys2Proof.Machine.execStatusRead n s
  | .shutdown => Sys2Proof.Machine.execShutdown s
  | .tick => Sys2Proof.Machine.execTick s
  | .txRequest id => Sys2Proof.Machine.execTxRequest id s
  | .txStep => Sys2Proof.Machine.execTxStep s
  | .edgeSync pin v => Sys2Proof.Machine.execEdgeSync pin v s
  | .boot drvReady => Sys2Proof.Machine.execBoot drvReady s
  | .hitTake => Sys2Proof.Machine.execHitTake s
  | .hitExpire elapsed entered => Sys2Proof.Machine.execHitExpire elapsed entered s
  | .safetyStop => Sys2Proof.Machine.execSafetyStop s
  | .standbyUpdate => Sys2Proof.Machine.execStandbyUpdate s
  | .motorApply halt => Sys2Proof.Machine.execMotorApply halt s
  | .fireDispatch => Sys2Proof.Machine.execFireDispatch s
  | .hitPush id t => Sys2Proof.Machine.execHitPush id t s
  | .rxFall p t => Sys2Proof.Machine.execRxFall p t s
  | .rxRise p t => Sys2Proof.Machine.execRxRise p t s
  | .encodeId id => Sys2Proof.Machine.execEncodeId id s
  | .classify w => Sys2Proof.Machine.execClassify w s
  | .decodeBuf buf => Sys2Proof.Machine.execDecodeBuf buf s
  | .mecanum vx vy omega speed => Sys2Proof.Machine.execMecanum vx vy omega speed s
  | .dutymap num denLess1 sign => Sys2Proof.Machine.execDutymap num denLess1 sign s
  | .meaningful cmd => Sys2Proof.Machine.execMeaningful cmd s
  | .symNone => Sys2Proof.Machine.execSymNone s
  | .symBit0 => Sys2Proof.Machine.execSymBit0 s
  | .symBit1 => Sys2Proof.Machine.execSymBit1 s
  | .symStartEnd => Sys2Proof.Machine.execSymStartEnd s
  | .irFrame codes => Sys2Proof.Machine.execIrFrame codes s
  | .cmdWord word => Sys2Proof.Machine.execCmdWord word s
  | .cfgRecord reg data => Sys2Proof.Machine.execCfgRecord reg data s
  | .motorRecord dirB dirA fullOn duty => Sys2Proof.Machine.execMotorRecord dirB dirA fullOn duty s
  | .hitRecord self team receivedAt => Sys2Proof.Machine.execHitRecord self team receivedAt s

end Sys2Proof.Machine
end

