-- ==== Sys2Proof/Machine/Step.lean ====
section
/-! DEFINITION. One step: perform the operation due next, or, with none left at `now`, one turn of the arbiter
(spec/44_control_loop.md R208). Log entry 1. -/

namespace Sys2Proof.Machine

/-- Perform the operation a word encodes. -/
def perform (w : TraceWord) (s : State) : Host.Outcome State Fault Refusal :=
  match decode w with
  | .error e => .refused (.undecodable e)
  | .ok i => exec i s

/-- One step. A configuration that breaks R8 is refused. -/
def step (s : State) : Host.Outcome State Fault Refusal :=
  if s.cfg.legal then
    match fetch s with
    | some (w, s') => perform w s'
    | none => arbitrate s
  else .refused .illegalConfig

/-- `s` with an opcode-table word standing first among the operations due now, which the next step performs (log entry 6). -/
def State.withFetchWord (s : State) (nbits w : Nat) : State := { s with agenda := tableWord nbits w :: s.agenda }

end Sys2Proof.Machine
end

