-- ==== Sys2Proof/Safety.lean ====
section
/-! DEFINITION. What counts as a safe state: the invariants of spec/10_state.md R43 and the safe outputs of spec/60_exceptions.md R242. -/

namespace Sys2Proof

/-- The exact rational of a wheel value (R9: "in Q"). -/
def Frac.toRat (w : Frac) : ℚ := (w.num : ℚ) / (w.den : ℚ)

/-- The exact rational of a fractional parameter (R6). -/
def Ratio.toRat (r : Ratio) : ℚ := (r.num : ℚ) / (r.den : ℚ)

end Sys2Proof

namespace Sys2Proof.Machine

/-- A channel at STOP (R165). -/
abbrev Motor.stopped (m : Motor) : Prop := m = {}

/-- All four channels at STOP. -/
def AllStopped (m : PerWheel Motor) : Prop := m.fl.stopped ∧ m.fr.stopped ∧ m.rl.stopped ∧ m.rr.stopped

/-- The safe outputs of R242 and R260: motors stopped, driver stage off, emitter off. -/
def SafeOutputs (s : State) : Prop := AllStopped s.mot ∧ s.driveEnable = false ∧ s.tx.irEnv = false

/-- R43 (e) for one channel, its last clause under the condition R43 gives it, DUTY_MAX x MIN_DUTY >= 1. -/
structure Motor.Ok (c : Params) (m : Motor) : Prop where
  fullOnDuty : m.fullOn = true → m.duty = 255
  notBoth : ¬ (m.dirA = true ∧ m.dirB = true)
  stopIffZero : c.minDuty.den ≤ c.dutyMax * c.minDuty.num → (m.dirA = false ∧ m.dirB = false ↔ m.duty = 0)

/-- R43 (a) and (c) for one receiver. -/
structure RxState.Ok (now : Nat) (r : RxState) : Prop where
  fall : r.fallTs ≤ now
  last : r.lastTs ≤ now
  partialBuffer : 0 < r.cnt.val → r.lastValid = true

/-- R43 (b): the hit record is empty outside the lockout; inside it the timer is within the lockout's length, and running if
that length is not zero. -/
structure Session.Ok (c : Params) (now : Nat) (x : Session) : Prop where
  hitAt : x.hitAt ≤ now
  idle : x.hitActive = false → x.remaining = 0 ∧ x.hitBy = 0 ∧ x.hitSelf = false ∧ x.hitAt = 0
  bounded : x.hitActive = true → x.remaining ≤ c.hitDisableTime
  running : x.hitActive = true → 0 < c.hitDisableTime → 0 < x.remaining

/-- R43 (d): the envelope only inside a transmission, and there exactly in its bursts; the deadline not passed; a transmission
only in RUN. -/
structure TxState.Ok (now : Nat) (rs : RunState) (x : TxState) : Prop where
  idle : x.busy = false → x.irEnv = false
  burst : x.busy = true → (x.irEnv = true ↔ x.phase = .burst)
  deadline : x.busy = true → now ≤ x.deadline
  onlyInRun : x.busy = true → rs = .run

/-- The invariant of R43, with the bound of the time base (R20), the tick never overdue (R200), the queue within its depth
(R31), absent receivers untouched, and the safe outputs outside RUN (R242, R260). -/
structure Inv (s : State) : Prop where
  clock : s.now < timeLimit
  heldInReset : s.runState = .reset → s.now = 0
  lastTick : s.tLastTick ≤ s.now
  tickNotOverdue : s.runState = .run → s.now ≤ s.tLastTick + s.cfg.tickPeriod
  lastCommand : s.mailbox.tCmd ≤ s.now
  lastInput : s.mailbox.tInput ≤ s.now
  command : s.mailbox.cmd.inRange = true
  session : s.session.Ok s.cfg s.now
  queueStamps : ∀ e ∈ s.hitq, e.receivedAt ≤ s.now
  queueBound : ∀ d, s.cfg.hitqDepth = some d → s.hitq.length ≤ d
  receivers : ∀ p : Fin 16, (s.rxAt p).Ok s.now
  absentReceivers : ∀ p : Fin 16, s.cfg.nRx ≤ p.val → s.rxAt p = {}
  transmitter : s.tx.Ok s.now s.runState
  motors : s.mot.fl.Ok s.cfg ∧ s.mot.fr.Ok s.cfg ∧ s.mot.rl.Ok s.cfg ∧ s.mot.rr.Ok s.cfg
  safeOutsideRun : s.runState ≠ .run → SafeOutputs s

/-- The operations the arbiter lines up: those from outside and the block's own agents' (R13, R96). -/
def isIssued : Instr → Bool
  | .reset => true
  | .cmdWrite _ => true
  | .cfgWrite _ _ => true
  | .edge _ _ _ => true
  | .statusRead _ => true
  | .shutdown => true
  | .boot _ => true
  | .tick => true
  | .txStep => true
  | .edgeSync _ _ => true
  | _ => false

/-- R43 (f) with what makes it hold at every step: only agents' operations are due, the session is at its reset value while
`rst` is high, and in RUN the enable lines are the negation of the standby latch. -/
structure EnableFollowsLatch (s : State) : Prop where
  agenda : ∀ w ∈ s.agenda, ∃ i, decode w = .ok i ∧ isIssued i = true
  heldSession : s.runState = .reset → s.session = {}
  enable : s.runState = .run → s.driveEnable = !s.session.standby

/-- The operations and sub-operations that have no effect outside RUN (R21, R235 code 11, R260), those of an absent pin apart
(`pinMissing`). -/
def needsRun : Instr → Bool
  | .cmdWrite _ => true
  | .cfgWrite _ _ => true
  | .edge _ _ _ => true
  | .shutdown => true
  | .tick => true
  | .txRequest _ => true
  | .txStep => true
  | .edgeSync _ _ => true
  | .hitTake => true
  | .hitExpire _ _ => true
  | .safetyStop => true
  | .standbyUpdate => true
  | .motorApply _ => true
  | .fireDispatch => true
  | .hitPush _ _ => true
  | .rxFall _ _ => true
  | .rxRise _ _ => true
  | _ => false

/-- The operations of a receiver pin that the configuration does not have (R97 (g)). -/
def pinMissing (c : Params) : Instr → Bool
  | .edge pin _ _ => !pinPresent c pin
  | .edgeSync pin _ => !pinPresent c pin
  | .rxFall pin _ => !pinPresent c pin
  | .rxRise pin _ => !pinPresent c pin
  | _ => false

/-- The words of a list of inputs. -/
def inputWords : List Input → List TraceWord
  | [] => []
  | .op _ w :: xs => w :: inputWords xs
  | .pin _ _ _ :: xs => inputWords xs

/-- The pins' levels after the level changes of a list of inputs. -/
def levelsAfter : List Input → Vector Bool 16 → Vector Bool 16
  | [], pins => pins
  | .op _ _ :: xs, pins => levelsAfter xs pins
  | .pin _ p level :: xs, pins => levelsAfter xs (pins.set p.val level)

/-- An answer followed by more of a run. -/
def andThen (a : Answer) (f : State → Answer) : Answer :=
  match a with
  | .next s => f s
  | .fault r => .fault r
  | .refused r => .refused r

/-- The edges of a train of bursts at a receiver pin with zero delay (40_ir_tx.md R113): each burst a falling edge at its start and a
rising edge at its end, `now` moved to each, a gap of TX_GAP_US between bursts. -/
def feedBursts (pin : BitVec 4) : List Nat → Nat → State → Answer
  | [], _, s => .next s
  | d :: ds, t, s =>
    andThen (exec (.edge pin false (BitVec.ofNat 64 t)) { s with now := t }) fun s' =>
      andThen (exec (.edge pin true (BitVec.ofNat 64 (t + d))) { s' with now := t + d }) fun s'' =>
        feedBursts pin ds (t + d + s.cfg.txGap) s''

/-- `n` transmit steps, each at its deadline (R112). -/
def sendSteps : Nat → State → Answer
  | 0, s => .next s
  | n + 1, s => andThen (exec .txStep { s with now := s.tx.deadline }) (sendSteps n)

/-- `n` ticks, each when it is due (R200). -/
def tickTimes : Nat → State → Answer
  | 0, s => .next s
  | n + 1, s => andThen (exec .tick { s with now := s.tLastTick + s.cfg.tickPeriod }) (tickTimes n)

end Sys2Proof.Machine
end

