-- ==== Sys2Proof/Certificates/Slice0/Obligations.lean ====
section
/-! DEFINITION. The statements for the provers, one definition each, in the order of OBLIGATIONS.json. A clause that rests on a choice of
the model names its log entry; every other clause is the cited rule's. -/

open Sys2Proof Sys2Proof.Machine

/-! ### Encoding and decoding -/

/-- A word of each encoding space, written from the spec's layouts (R96, R88, R91, R100, R82, R83, R94, R92), decodes to what
it stands for. Byte order and the payloads without a layout are the model's, log entry 4. -/
def Obligations.SpecWordsDecode : Prop :=
  decode ⟨.op, [0x10]⟩ = .ok .tick ∧
  decode ⟨.op, [0x01, 0x00, 0x20, 0x00, 0x00, 0x00, 0x10, 0x00, 0x40, 0x00, 0x07]⟩ =
    .ok (.cmdWrite 0x07004000100000002000#80) ∧
  decode ⟨.op, [0x02, 0x07, 0x00]⟩ = .ok (.cfgWrite 0 7) ∧
  decode ⟨.op, [0x03, 0x42, 0x9c, 0, 0, 0, 0, 0, 0, 0x03]⟩ = .ok (.edge 1 true 40002) ∧
  decode ⟨.symbol, [0x02]⟩ = .ok .symBit1 ∧
  decode ⟨.frame, [0x9b, 0x65, 0x0e]⟩ = .ok (.irFrame 0xe659b#20) ∧
  decode ⟨.commandRecord, [0x00, 0x20, 0x00, 0x00, 0x00, 0x10, 0x00, 0x40, 0x00, 0x07]⟩ =
    .ok (.cmdWord 0x07004000100000002000#80) ∧
  decode ⟨.configRecord, [0xfe, 0x01]⟩ = .ok (.cfgRecord 1 0xfe) ∧
  decode ⟨.motorRecord, [0xd2, 0x02]⟩ = .ok (.motorRecord false true false 210) ∧
  decode ⟨.hitRecord, [0xa0, 0xf0, 0, 0, 0, 0, 0, 0, 0xa5, 0x01]⟩ = .ok (.hitRecord true 0xa5 61600)

/-- Every instruction, with every operand value, is what the decoder reads from its own word. -/
def Obligations.DecodeOfEncode : Prop := ∀ i : Instr, decode (encode i) = .ok i

/-- R96: an op byte not listed is not an operation, and a model fed one refuses it, whatever follows it. -/
def Obligations.UnlistedOpByteRefused : Prop :=
  ∀ (op : Byte) (payload : List Byte) (s : State),
    op.toNat ∉ [0x00, 0x01, 0x02, 0x03, 0x04, 0x05, 0x10, 0x11, 0x12, 0x13, 0x14, 0x20, 0x21, 0x22, 0x23, 0x24, 0x25, 0x26,
      0x27, 0x28, 0x30, 0x31, 0x32, 0x33, 0x34, 0x35] →
    perform ⟨.op, op :: payload⟩ s = .refused (.undecodable (.unknownOperation op))

/-- A step performs the operation due first: exec of what its word decodes to, on the state without that word. -/
def Obligations.StepPerformsDecoded : Prop :=
  ∀ (s : State) (w : TraceWord) (rest : List TraceWord) (i : Instr),
    s.cfg.legal = true → s.agenda = w :: rest → decode w = .ok i → step s = exec i { s with agenda := rest }

/-- R8: a configuration that breaks a constraint is refused. -/
def Obligations.IllegalConfigurationRefused : Prop :=
  ∀ s : State,
    (s.cfg.tBit1 ≤ s.cfg.tBit0 ∨ s.cfg.tStartEnd ≤ s.cfg.tBit1 ∨ s.cfg.tBit1 ≤ s.cfg.tBit0 + 2 * s.cfg.tol ∨
      s.cfg.tStartEnd ≤ s.cfg.tBit1 + 2 * s.cfg.tol ∨ s.cfg.tBit0 ≤ s.cfg.tol ∨ s.cfg.tickPeriod = 0 ∨ s.cfg.txGap = 0 ∨
      s.cfg.minDuty.den ≤ s.cfg.minDuty.num ∨ s.cfg.pureDc.num = 0 ∨ s.cfg.pureDc.den < s.cfg.pureDc.num ∨
      s.cfg.zeroEps.num = 0 ∨ s.cfg.pureDc.num * s.cfg.zeroEps.den ≤ s.cfg.zeroEps.num * s.cfg.pureDc.den ∨
      s.cfg.deadband.num = 0 ∨ s.cfg.deadband.den ≤ s.cfg.deadband.num ∨ s.cfg.hitqDepth = some 0 ∨ s.cfg.nRx = 0 ∨
      16 < s.cfg.nRx ∨ 2 ^ 32 ≤ s.cfg.hitDisableTime) →
    step s = .refused .illegalConfig

/-! ### Reset, boot, shutdown, run states -/

/-- R42: after RESET, from any state, every field of S has its reset value, and the session state is Driving. -/
def Obligations.ResetValues : Prop :=
  ∀ s : State, ∃ t, exec .reset s = .next t ∧
    t.now = 0 ∧ t.runState = .reset ∧ t.tLastTick = 0 ∧
    t.mailbox = { cmd := ⟨0, 0, 0, 0, false, false, 0⟩, valid := false, tCmd := 0, tInput := 0 } ∧
    t.ownId = s.cfg.ownIdReset ∧ t.selfhitEn = true ∧
    t.session = { hitActive := false, remaining := 0, standby := false, hitBy := 0, hitSelf := false, hitAt := 0 } ∧
    t.flags = { stopActive := false, fireRefused := false, fireDropped := false } ∧ t.hitq = [] ∧
    (∀ p : Fin 16, t.rxAt p =
      { fallValid := false, fallTs := 0, cnt := 0, buf := Vector.replicate 10 0, lastValid := false, lastTs := 0,
        s1 := true, s2 := true, prev := true }) ∧
    t.tx = { busy := false, id := 0, idx := 0, phase := .burst, deadline := 0, irEnv := false } ∧
    (∀ m ∈ [t.mot.fl, t.mot.fr, t.mot.rl, t.mot.rr], m = { dirA := false, dirB := false, fullOn := false, duty := 0 }) ∧
    t.driveEnable = false ∧ sessionState t = .driving

/-- R262: BOOT with `drv_ready` enters RUN with the driver stage energised and the first tick due at TICK_PERIOD_US; without
it, FATAL, and nothing else changes. -/
def Obligations.BootEntersRunOrFatal : Prop :=
  ∀ s : State, s.runState = .reset →
    exec (.boot true) s = .next { s with runState := .run, driveEnable := true, out := {} } ∧
    exec (.boot false) s = .next { s with runState := .fatal, out := { outcome := .fatal, codes := [.driverNotReady] } } ∧
    (s.tLastTick = 0 → ∀ t, exec (.boot true) s = .next t → nextTickTime t = some s.cfg.tickPeriod)

/-- R206: SHUTDOWN stops the motors, de-energises the driver stage, cuts a transmission and halts, and no other field changes; after it
no operation but RESET has any effect, and those that need RUN are ignored. Outside RUN SHUTDOWN itself is ignored. An operation of an
absent pin, which a model refuses in every run state (R97 (g)), is NoEffectOutsideRun's. -/
def Obligations.ShutdownHalts : Prop :=
  ∀ s : State,
    (s.runState = .run → ∃ t, exec .shutdown s = .next t ∧
      t = { s with mot := ⟨{}, {}, {}, {}⟩, driveEnable := false, tx := { s.tx with irEnv := false, busy := false },
                   runState := .halt, out := {} } ∧
      ∀ i, i ≠ .reset → pinMissing s.cfg i = false → ∃ o, exec i t = .next { t with out := o } ∧
        (needsRun i = true → o = { codes := [.ignoredOperation] })) ∧
    (s.runState ≠ .run → ∃ codes, exec .shutdown s = .next { s with out := { codes := codes } })

/-- R21, R235 code 11: outside RUN an operation that needs RUN has no effect; BOOT has none where `rst` is not held (log entry
8). In RESET the code is the model's record (log entry 13). R97 (g): an operation of an absent pin is refused in every run state, EDGE by
the rule's words, the others by log entry 26. -/
def Obligations.NoEffectOutsideRun : Prop :=
  ∀ (s : State) (i : Instr),
    (pinMissing s.cfg i = true → exec i s = .refused .pinAbsent) ∧
    (s.runState ≠ .run → pinMissing s.cfg i = false → needsRun i = true →
      exec i s = .next { s with out := { codes := [.ignoredOperation] } }) ∧
    (s.runState ≠ .reset → ∀ r, exec (.boot r) s = .next { s with out := { codes := [.ignoredOperation] } })

/-- R21, R242: in HALT and FATAL nothing but RESET changes any state of the block, and only RESET leaves them; in every state
only RESET, BOOT and SHUTDOWN write the run state. The last clause, what RESET does to the model's own fields, is log entry 7. -/
def Obligations.OnlyResetLeavesHaltAndFatal : Prop :=
  ∀ (i : Instr) (s t : State), exec i s = .next t →
    ((s.runState = .halt ∨ s.runState = .fatal) → i ≠ .reset → t = { s with out := t.out }) ∧
    (t.runState ≠ s.runState → i = .reset ∨ i = .shutdown ∨ i = .boot true ∨ i = .boot false) ∧
    (i = .reset → t.cfg = s.cfg ∧ t.env = s.env ∧ t.draws = s.draws ∧ t.agenda = [] ∧ t.out = {})

/-! ### The register space -/

/-- R205, R69: STATUS_READ answers the register's value in any run state and changes no state of the block; a reserved number
reads 0, and so does MemRead with a size that is not the register's. -/
def Obligations.StatusReadAnswersRegister : Prop :=
  ∀ (s : State) (n : Byte),
    exec (.statusRead n) s = .next { s with out := { result := .data (readReg s n.toNat) } } ∧
    (7 ≤ n.toNat → readReg s n.toNat = 0) ∧
    (∀ m k : Nat, k ≠ 0 → 8 * k = regWidth m → memRead s m k = readReg s m) ∧
    (∀ m k : Nat, 8 * k ≠ regWidth m → memRead s m k = 0)

/-- R40: the numbered registers' widths and fields, bit by bit for ST_FLAGS, and the codes of R95. -/
def Obligations.RegisterFields : Prop :=
  (∀ n, regWidth n = [8, 8, 16, 8, 32, 64, 64].getD n 0) ∧
  (RunState.code .reset = 0 ∧ RunState.code .run = 1 ∧ RunState.code .halt = 2 ∧ RunState.code .fatal = 3) ∧
  (SessionState.code .driving = 0 ∧ SessionState.code .standby = 1 ∧ ∀ n, SessionState.code (.hitDisabled n) = 2) ∧
  ∀ s : State,
    readReg s 0 = s.ownId.setWidth 64 ∧
    (readReg s 1).getLsbD 0 = s.selfhitEn ∧ (readReg s 1).toNat < 2 ∧
    (readReg s 2).getLsbD 0 = s.session.hitActive ∧ (readReg s 2).getLsbD 1 = s.session.hitSelf ∧
    (readReg s 2).getLsbD 2 = s.session.standby ∧ (readReg s 2).getLsbD 3 = s.flags.stopActive ∧
    (readReg s 2).getLsbD 4 = s.tx.busy ∧ (readReg s 2).getLsbD 5 = s.flags.fireRefused ∧
    (readReg s 2).getLsbD 6 = s.driveEnable ∧ (readReg s 2).getLsbD 7 = s.mailbox.valid ∧
    (readReg s 2).extractLsb' 8 2 = s.runState.code ∧ (readReg s 2).extractLsb' 10 2 = (sessionState s).code ∧
    (readReg s 2).getLsbD 12 = s.flags.fireDropped ∧ (readReg s 2).toNat < 2 ^ 13 ∧
    readReg s 3 = s.session.hitBy.setWidth 64 ∧
    sessionState s = (if s.session.hitActive then .hitDisabled s.session.remaining
      else if s.session.standby then .standby else .driving) ∧
    (s.session.remaining < 2 ^ 32 → (readReg s 4).toNat = s.session.remaining) ∧
    (s.session.hitAt < 2 ^ 64 → (readReg s 5).toNat = s.session.hitAt) ∧
    (s.now < 2 ^ 64 → (readReg s 6).toNat = s.now) ∧
    ∀ n, 7 ≤ n → readReg s n = 0

/-- R204, R69: CFG_WRITE and MemWrite write register 0 or 1 and discard any other, whole; outside RUN CFG_WRITE is ignored. That the Discard
of a MemWrite to register 0 or 1 with a size other than 1 carries code 2 is log entry 13. -/
def Obligations.ConfigWriteEffect : Prop :=
  ∀ (s : State) (reg : BitVec 3) (data : Byte),
    (s.runState = .run →
      (reg.toNat = 0 → exec (.cfgWrite reg data) s = .next { s with ownId := data, out := {} }) ∧
      (reg.toNat = 1 → exec (.cfgWrite reg data) s = .next { s with selfhitEn := data.getLsbD 0, out := {} }) ∧
      (2 ≤ reg.toNat →
        exec (.cfgWrite reg data) s = .next { s with out := { outcome := .discard, codes := [.badRegister] } }) ∧
      (∀ n k : Nat, (2 ≤ n ∨ k ≠ 1) →
        memWrite s n k data = .next { s with out := { outcome := .discard, codes := [.badRegister] } }) ∧
      memWrite s reg.toNat 1 data = exec (.cfgWrite reg data) s) ∧
    (s.runState ≠ .run → ∃ codes, exec (.cfgWrite reg data) s = .next { s with out := { codes := codes } })

/-! ### The command port -/

/-- R88 to R90: where each field of a command word stands; the fields of the word packed from a command are the command's, and that
word is legal exactly when its fields are in range; any word is legal exactly when its fields are and its reserved bits are zero. The
last clause, that CMD_WORD answers this reading and changes nothing else, is log entry 12. -/
def Obligations.CommandWordFields : Prop :=
  (∀ w : BitVec 80, commandOf w =
    { vx := w.extractLsb' 0 16, vy := w.extractLsb' 16 16, omega := w.extractLsb' 32 16, speed := w.extractLsb' 48 16,
      estop := w.getLsbD 64, fire := w.getLsbD 65, teamId := w.extractLsb' 72 8 }) ∧
  (∀ c : Command, commandOf c.pack = c ∧ (commandLegal c.pack = true ↔
    (-16384 ≤ c.vx.toInt ∧ c.vx.toInt ≤ 16384) ∧ (-16384 ≤ c.vy.toInt ∧ c.vy.toInt ≤ 16384) ∧
      (-16384 ≤ c.omega.toInt ∧ c.omega.toInt ≤ 16384) ∧ c.speed.toNat ≤ 16384)) ∧
  (∀ w : BitVec 80, commandLegal w = true ↔ commandLegal (commandOf w).pack = true ∧ w.extractLsb' 66 6 = 0) ∧
  (∀ (w : BitVec 80) (k : Nat), 66 ≤ k → k ≤ 71 → w.getLsbD k = true → commandLegal w = false) ∧
  ∀ (w : BitVec 80) (s : State),
    exec (.cmdWord w) s = .next { s with out := { result := .command (commandOf w) (commandLegal w) } }

/-- R203: CMD_WRITE of a legal word replaces the mailbox whole, moves its timestamps and answers the status record; an illegal
word is a Discard with no state change and no response; outside RUN it is ignored. -/
def Obligations.CommandWriteEffect : Prop :=
  ∀ (s : State) (w : BitVec 80),
    (s.runState = .run → commandLegal w = true →
      exec (.cmdWrite w) s = .next { s with
        mailbox := { cmd := commandOf w, valid := true, tCmd := s.now,
                     tInput := if meaningfulCommand s.cfg (commandOf w) then s.now else s.mailbox.tInput }
        out := { result := .status ⟨s.ownId, s.session.hitActive, s.session.hitBy, s.session.remaining, s.session.hitSelf⟩ } }) ∧
    (s.runState = .run → commandLegal w = false →
      exec (.cmdWrite w) s = .next { s with out := { outcome := .discard, codes := [.badCommand] } }) ∧
    (s.runState ≠ .run → ∃ codes, exec (.cmdWrite w) s = .next { s with out := { codes := codes } })

/-- R187: MEANINGFUL, over Q: an axis magnitude above DEADBAND, strictly, or estop; it changes no state of the block. That an illegal
word runs the same formula is log entry 25. -/
def Obligations.MeaningfulAboveDeadband : Prop :=
  ∀ (s : State) (w : BitVec 80), 0 < s.cfg.deadband.den → ∃ b,
    exec (.meaningful w) s = .next { s with out := { result := .flag b } } ∧
    (b = true ↔
      s.cfg.deadband.toRat < |((commandOf w).vx.toInt : ℚ) / 16384| ∨
      s.cfg.deadband.toRat < |((commandOf w).vy.toInt : ℚ) / 16384| ∨
      s.cfg.deadband.toRat < |((commandOf w).omega.toInt : ℚ) / 16384| ∨ (commandOf w).estop = true)

/-! ### Infrared transmit -/

/-- R110: ENCODE gives START_END at both ends and at position 1 + k the identifier's bit 7 - k; it changes no state of the
block. -/
def Obligations.EncodeDurations : Prop :=
  ∀ (s : State) (id : Byte), ∃ d : Vector Nat 10,
    exec (.encodeId id) s = .next { s with out := { result := .durations d } } ∧
    d[0] = s.cfg.tStartEnd ∧ d[9] = s.cfg.tStartEnd ∧
    ∀ k : Fin 8, d[1 + k.val] = if id.getLsbD (7 - k.val) then s.cfg.tBit1 else s.cfg.tBit0

/-- R86: the bursts of a frame last 2 T_START_END, one T_BIT_1 for each one bit and one T_BIT_0 for each zero bit. -/
def Obligations.FrameBurstsTotal : Prop :=
  ∀ (c : Params) (id : Byte),
    let n := ((List.range 8).filter fun k => id.getLsbD k).length
    (encodeFrame c id).toList.sum = 2 * c.tStartEnd + n * c.tBit1 + (8 - n) * c.tBit0

/-- R111: TX_REQUEST refuses under the lockout before it looks at the lock, drops while the lock is held, and else takes the
lock and starts the first burst at once. -/
def Obligations.TxRequestAnswers : Prop :=
  ∀ (s : State) (id : Byte), s.runState = .run →
    (s.session.hitActive = true →
      exec (.txRequest id) s = .next { s with out := { outcome := .refuse, codes := [.fireWhileDisabled] } }) ∧
    (s.session.hitActive = false → s.tx.busy = true →
      exec (.txRequest id) s = .next { s with out := { outcome := .drop, codes := [.txInFlight] } }) ∧
    (s.session.hitActive = false → s.tx.busy = false →
      exec (.txRequest id) s = .next { s with
        tx := { busy := true, id := id, idx := 0, phase := .burst, deadline := s.now + s.cfg.tStartEnd, irEnv := true }
        out := {} })

/-- R112: TX_STEP ends a burst with a gap, and a gap with the next symbol's burst or, after the tenth, the lock's release. With no
transmission in flight it does nothing (log entry 9). -/
def Obligations.TxStepEffect : Prop :=
  ∀ s : State, s.runState = .run →
    (s.tx.busy = false → exec .txStep s = .next { s with out := {} }) ∧
    (s.tx.busy = true → s.tx.phase = .burst →
      exec .txStep s = .next { s with
        tx := { s.tx with irEnv := false, phase := .gap, deadline := s.now + s.cfg.txGap }, out := {} }) ∧
    (s.tx.busy = true → s.tx.phase = .gap → s.tx.idx = 9 →
      exec .txStep s = .next { s with tx := { s.tx with busy := false }, out := {} }) ∧
    (s.tx.busy = true → s.tx.phase = .gap → ∀ k : Fin 10, k.val = s.tx.idx.val + 1 →
      exec .txStep s = .next { s with
        tx := { s.tx with idx := k, phase := .burst, irEnv := true,
                          deadline := s.now + (encodeFrame s.cfg s.tx.id)[k.val] }
        out := {} })

/-- R113, R117: from an accepted request on, the 20 steps taken each at its deadline send the whole envelope: after `n` of them
the transmitter is in burst (n even) or gap (n odd) `n / 2`, whose end stands at the sum of what was sent; the twentieth
releases the lock at the sum of all bursts and ten gaps. -/
def Obligations.TransmissionSendsEnvelope : Prop :=
  ∀ (s : State) (id : Byte), s.runState = .run → s.session.hitActive = false → s.tx.busy = false →
    let d := (encodeFrame s.cfg id).toList
    ∃ s1, exec (.txRequest id) s = .next s1 ∧
      (∀ n, n < 20 → ∃ t, sendSteps n s1 = .next t ∧ t.tx.busy = true ∧ t.tx.id = id ∧ t.tx.idx.val = n / 2 ∧
        (t.tx.irEnv = true ↔ n % 2 = 0) ∧
        t.tx.deadline = s.now + (d.take (n / 2 + 1)).sum + (n / 2) * s.cfg.txGap + (n % 2) * s.cfg.txGap) ∧
      ∃ t, sendSteps 20 s1 = .next t ∧ t.tx.busy = false ∧ t.tx.irEnv = false ∧
        t.now = s.now + d.sum + 10 * s.cfg.txGap ∧ t.session = s.session ∧ t.mot = s.mot ∧ t.hitq = s.hitq

/-! ### Infrared receive -/

/-- R137, R87: CLASSIFY answers the one symbol whose inclusive window holds the width, NONE where none does; it changes no
state of the block. -/
def Obligations.ClassifyWindows : Prop :=
  ∀ (s : State) (w : BitVec 64), s.cfg.legal = true → ∃ sym,
    exec (.classify w) s = .next { s with out := { result := .symbol sym } } ∧
    (sym = .startEnd ↔ s.cfg.tStartEnd - s.cfg.tol ≤ w.toNat ∧ w.toNat ≤ s.cfg.tStartEnd + s.cfg.tol) ∧
    (sym = .bit1 ↔ s.cfg.tBit1 - s.cfg.tol ≤ w.toNat ∧ w.toNat ≤ s.cfg.tBit1 + s.cfg.tol) ∧
    (sym = .bit0 ↔ s.cfg.tBit0 - s.cfg.tol ≤ w.toNat ∧ w.toNat ≤ s.cfg.tBit0 + s.cfg.tol)

/-- R138: DECODE answers an identifier exactly when both ends classify as START_END and every position between as the
identifier's bit; it changes no state of the block. -/
def Obligations.DecodeOnlyFullFrames : Prop :=
  ∀ (s : State) (buf : Vector (BitVec 64) 10), ∃ r,
    exec (.decodeBuf buf) s = .next { s with out := { result := .identifier r } } ∧
    ∀ id : Byte, r = some id ↔
      classify s.cfg buf[0].toNat = .startEnd ∧ classify s.cfg buf[9].toNat = .startEnd ∧
      ∀ k : Fin 8, classify s.cfg buf[1 + k.val].toNat = if id.getLsbD (7 - k.val) then .bit1 else .bit0

/-- R141: decoding the nominal durations of an identifier gives it back, in every legal configuration. -/
def Obligations.DecodeOfEncodedDurations : Prop :=
  ∀ (c : Params) (id : Byte), c.legal = true → decodeFrame c (encodeFrame c id) = some id

/-- R133, R132: RX_FALL records the falling edge at the operation's time, and EDGE with level 0 is RX_FALL. That time is the operand,
or, where the operand is later than `now`, some time not later than `now` (log entry 10). -/
def Obligations.FallingEdgeRecorded : Prop :=
  ∀ (s : State) (pin : BitVec 4) (t : BitVec 64), s.runState = .run → pin.toNat < s.cfg.nRx → ∃ tau d,
    tau ≤ s.now ∧ (t.toNat ≤ s.now → tau = t.toNat ∧ d = s.draws) ∧
    exec (.rxFall pin t) s = .next { s with
      rx := s.rx.set pin.toNat { s.rxAt (pinIndex pin) with fallValid := true, fallTs := tau }, draws := d, out := {} } ∧
    exec (.edge pin false t) s = exec (.rxFall pin t) s

/-- R134 to R136, R139, R132: RX_RISE, whole, for every timestamp operand. A rising edge with no recorded fall is ignored; else the
width is appended, after the gap rule; the tenth burst clears the count and pushes the event of a frame that decodes. EDGE with level
1 is RX_RISE. `tau` is the operation's time, `w` the width, `gap` the gap rule: each is what the rule says wherever the rule's
operands have a value, and else free (log entry 10). The codes are those of R235. -/
def Obligations.RisingEdgeEffect : Prop :=
  ∀ (s : State) (pin : BitVec 4) (t : BitVec 64), s.cfg.legal = true → s.runState = .run → pin.toNat < s.cfg.nRx →
    let r := s.rxAt (pinIndex pin)
    ∃ (tau w d : Nat) (gap : Bool),
      (tau ≤ s.now ∧ (t.toNat ≤ s.now → tau = t.toNat)) ∧
      (r.fallTs ≤ tau → w = tau - r.fallTs) ∧
      (r.lastValid = false → gap = false) ∧
      (r.lastValid = true → r.lastTs ≤ tau → (gap = true ↔ s.cfg.rxGapTimeout < tau - r.lastTs)) ∧
      (t.toNat ≤ s.now → r.fallTs ≤ tau → (r.lastValid = true → r.lastTs ≤ tau) → d = s.draws) ∧
      let after (k : Fin 10) (i : Fin 10) : Vector RxState 16 := s.rx.set pin.toNat
        { r with fallValid := false, cnt := k, buf := r.buf.set i.val w, lastTs := tau, lastValid := true }
      exec (.edge pin true t) s = exec (.rxRise pin t) s ∧
      (r.fallValid = false → exec (.rxRise pin t) s = .next { s with draws := d, out := { codes := [.ignoredEdge] } }) ∧
      (r.fallValid = true → gap = true →
        exec (.rxRise pin t) s = .next { s with
          rx := after 1 0, draws := d, out := { codes := if r.cnt = 0 then [] else [.gapDiscard] } }) ∧
      (r.fallValid = true → gap = false → ∀ k : Fin 10, k.val = r.cnt.val + 1 →
        exec (.rxRise pin t) s = .next { s with rx := after k r.cnt, draws := d, out := {} }) ∧
      (r.fallValid = true → gap = false → r.cnt = 9 →
        (decodeFrame s.cfg (r.buf.set 9 w) = none →
          exec (.rxRise pin t) s = .next { s with rx := after 0 9, draws := d, out := { codes := [.decodeFailure] } }) ∧
        ∀ id, decodeFrame s.cfg (r.buf.set 9 w) = some id →
          ((∀ n, s.cfg.hitqDepth = some n → s.hitq.length < n) →
            exec (.rxRise pin t) s = .next { s with
              rx := after 0 9, draws := d
              hitq := s.hitq ++ [{ team := id, receivedAt := tau, self := decide (id = s.ownId) }], out := {} }) ∧
          (∀ n, s.cfg.hitqDepth = some n → n ≤ s.hitq.length →
            exec (.rxRise pin t) s = .next { s with rx := after 0 9, draws := d, out := { codes := [.queueOverflow] } }))

/-- R139, R64: HIT_PUSH appends the event, marked against the own identifier, or loses it when the queue is full. The event's time is
the operand, or, where that is later than `now`, some time not later than `now` (log entry 10). -/
def Obligations.HitPushAppends : Prop :=
  ∀ (s : State) (id : Byte) (t : BitVec 64), s.runState = .run → ∃ tau d,
    tau ≤ s.now ∧ (t.toNat ≤ s.now → tau = t.toNat ∧ d = s.draws) ∧
    ((∀ n, s.cfg.hitqDepth = some n → s.hitq.length < n) →
      exec (.hitPush id t) s = .next { s with
        hitq := s.hitq ++ [{ team := id, receivedAt := tau, self := decide (id = s.ownId) }], draws := d, out := {} }) ∧
    (∀ n, s.cfg.hitqDepth = some n → n ≤ s.hitq.length →
      exec (.hitPush id t) s = .next { s with draws := d, out := { codes := [.queueOverflow] } })

/-- R230, R97 (g), R132: the receiver's operations run in RUN whatever their operands, in every state, and outside RUN change nothing,
but for a pin of N_RX or above, which is refused in every run state: EDGE by R97 (g)'s words, the others by log entry 26. That
what is ignored in RESET notes code 11, which R235 lists for HALT and FATAL, is log entry 13. -/
def Obligations.ReceiverRunsUnlessPinAbsent : Prop :=
  ∀ (s : State) (pin : BitVec 4) (t : BitVec 64) (id : Byte) (level : Bool),
    (s.runState = .run → pin.toNat < s.cfg.nRx →
      (∃ u, exec (.edge pin level t) s = .next u) ∧ (∃ u, exec (.edgeSync pin level) s = .next u) ∧
      (∃ u, exec (.rxFall pin t) s = .next u) ∧ ∃ u, exec (.rxRise pin t) s = .next u) ∧
    (s.runState = .run → ∃ u, exec (.hitPush id t) s = .next u) ∧
    (s.cfg.nRx ≤ pin.toNat →
      exec (.edge pin level t) s = .refused .pinAbsent ∧ exec (.edgeSync pin level) s = .refused .pinAbsent ∧
      exec (.rxFall pin t) s = .refused .pinAbsent ∧ exec (.rxRise pin t) s = .refused .pinAbsent) ∧
    (s.runState ≠ .run → pin.toNat < s.cfg.nRx → ∀ i ∈ [Instr.edge pin level t, .edgeSync pin level, .rxFall pin t, .rxRise pin t],
      exec i s = .next { s with out := { codes := [.ignoredOperation] } })

/-- R130: EDGE_SYNC shifts the sample in, and performs EDGE at `now` exactly when the two stages then differ. -/
def Obligations.EdgeSyncShifts : Prop :=
  ∀ (s : State) (pin : BitVec 4) (v : Bool), s.runState = .run → pin.toNat < s.cfg.nRx → s.now < 2 ^ 64 →
    let r := s.rxAt (pinIndex pin)
    let s' : State := { s with rx := s.rx.set pin.toNat { r with prev := r.s2, s2 := r.s1, s1 := v } }
    (r.s1 = r.s2 → exec (.edgeSync pin v) s = .next { s' with out := {} }) ∧
    (r.s1 ≠ r.s2 → exec (.edgeSync pin v) s = exec (.edge pin r.s1 (BitVec.ofNat 64 s.now)) s')

/-- R141: the edges of a transmission of `id` at a pin with an empty buffer push exactly one event, at the last rising edge,
with the identifier and the self mark; the buffer is empty again, and nothing else changes but `now` and what was answered. The
gap rule stays silent inside the frame because no rise-to-rise time of it exceeds the timeout (R135). -/
def Obligations.FrameAtPinPushesOneHit : Prop :=
  ∀ (s : State) (pin : BitVec 4) (id : Byte) (t0 : Nat),
    s.cfg.legal = true → Inv s → s.runState = .run → pin.toNat < s.cfg.nRx → (s.rxAt (pinIndex pin)).cnt = 0 →
    s.now ≤ t0 → (∀ d, s.cfg.hitqDepth = some d → s.hitq.length < d) →
    s.cfg.txGap + s.cfg.tStartEnd ≤ s.cfg.rxGapTimeout →
    let bursts := (encodeFrame s.cfg id).toList
    let last := t0 + bursts.sum + 9 * s.cfg.txGap
    last < 2 ^ 64 →
    ∃ t, feedBursts pin bursts t0 s = .next t ∧
      t.hitq = s.hitq ++ [{ team := id, receivedAt := last, self := decide (id = s.ownId) }] ∧
      (t.rxAt (pinIndex pin)).cnt = 0 ∧ (t.rxAt (pinIndex pin)).buf = encodeFrame s.cfg id ∧
      (t.rxAt (pinIndex pin)).lastTs = last ∧ (∀ q, q ≠ pinIndex pin → t.rxAt q = s.rxAt q) ∧
      t = { s with now := last, rx := t.rx, hitq := t.hitq, out := t.out }

/-! ### Kinematics -/

/-- R160 to R162, over Q: each wheel value is its sum divided by the normaliser and multiplied by the speed scale; MECANUM
changes no state of the block. That operands outside R160's ranges run the same formula is log entry 25. -/
def Obligations.MecanumWheelValues : Prop :=
  ∀ (s : State) (vx vy om sp : BitVec 16), ∃ w : PerWheel Frac,
    exec (.mecanum vx vy om sp) s = .next { s with out := { result := .wheels w } } ∧
    let x := vx.toInt; let y := vy.toInt; let o := om.toInt
    let rrx := if s.cfg.rrVxSign = .plus then x else -x
    let m : ℚ := max 16384 (max |((y + x + o : Int) : ℚ)| (max |((-y + x - o : Int) : ℚ)|
      (max |((-y + x + o : Int) : ℚ)| |((y + rrx - o : Int) : ℚ)|)))
    w.fl.toRat = ((y + x + o : Int) : ℚ) / m * ((sp.toNat : ℚ) / 16384) ∧
    w.fr.toRat = ((-y + x - o : Int) : ℚ) / m * ((sp.toNat : ℚ) / 16384) ∧
    w.rl.toRat = ((-y + x + o : Int) : ℚ) / m * ((sp.toNat : ℚ) / 16384) ∧
    w.rr.toRat = ((y + rrx - o : Int) : ℚ) / m * ((sp.toNat : ℚ) / 16384)

/-- R161, R162: with a speed scale of at most 1 no wheel value exceeds 1 in magnitude, and negating the three axes negates every
wheel value. -/
def Obligations.WheelValuesBoundedAndOdd : Prop :=
  ∀ (c : Params) (x y o : Int) (sp : Nat), sp ≤ 16384 →
    (∀ w ∈ [(mecanum c x y o sp).fl, (mecanum c x y o sp).fr, (mecanum c x y o sp).rl, (mecanum c x y o sp).rr],
      |w.toRat| ≤ 1) ∧
    mecanum c (-x) (-y) (-o) sp =
      ⟨⟨-(mecanum c x y o sp).fl.num, (mecanum c x y o sp).fl.den⟩, ⟨-(mecanum c x y o sp).fr.num, (mecanum c x y o sp).fr.den⟩,
        ⟨-(mecanum c x y o sp).rl.num, (mecanum c x y o sp).rl.den⟩, ⟨-(mecanum c x y o sp).rr.num, (mecanum c x y o sp).rr.den⟩⟩

/-- R163: the symmetry properties, with RR_VX_SIGN = +1. -/
def Obligations.KinematicsSymmetry : Prop :=
  ∀ c : Params, c.rrVxSign = .plus →
    let rats (w : PerWheel Frac) : List ℚ := [w.fl.toRat, w.fr.toRat, w.rl.toRat, w.rr.toRat]
    rats (mecanum c 16384 0 0 16384) = [1, 1, 1, 1] ∧ rats (mecanum c 0 0 16384 16384) = [1, -1, 1, -1] ∧
    rats (mecanum c 0 16384 0 16384) = [1, -1, -1, 1] ∧
    rats (mecanum c 16384 16384 16384 16384) = [1, -1 / 3, 1 / 3, 1 / 3] ∧
    ∀ sp, rats (mecanum c 0 0 0 sp) = [0, 0, 0, 0]

/-- R164 to R169, over Q: DUTYMAP's regimes in a legal configuration, for every wheel value that its operands can name (their form, and
magnitudes above 1, are log entry 23): STOP below ZERO_EPS, fully on from PURE_DC_THRESHOLD, and
between them the floor of the line; the sign of the signed value picks the direction pin. It changes no state of the block. -/
def Obligations.DutyMapRegimes : Prop :=
  ∀ (s : State) (num den : BitVec 32) (sg : Sign), s.cfg.legal = true → ∃ m : Motor,
    exec (.dutymap num den sg) s = .next { s with out := { result := .motor m } } ∧
    let e : ℚ := (if sg = .plus then 1 else -1) * ((num.toInt : ℚ) / ((den.toNat : ℚ) + 1))
    (|e| < s.cfg.zeroEps.toRat → m = { dirA := false, dirB := false, fullOn := false, duty := 0 }) ∧
    (s.cfg.zeroEps.toRat ≤ |e| →
      (m.dirA = true ↔ 0 < e) ∧ (m.dirB = true ↔ e < 0) ∧
      (s.cfg.pureDc.toRat ≤ |e| → m.fullOn = true ∧ m.duty = 255) ∧
      (|e| < s.cfg.pureDc.toRat → m.fullOn = false ∧
        (m.duty.toNat : Int) =
          ⌊(s.cfg.dutyMax : ℚ) * (s.cfg.minDuty.toRat + (1 - s.cfg.minDuty.toRat) * |e|)⌋))

/-- R169: with the default parameters the duty codes 1 to 75 and 220 to 254 are never produced, and 255 goes with fully on. -/
def Obligations.DefaultDutyCodes : Prop :=
  ∀ (sg : Sign) (w : Frac), 0 < w.den →
    let m := dutyMap {} sg w
    (m.duty = 0 ∧ m.fullOn = false ∧ m.dirA = false ∧ m.dirB = false) ∨
    (76 ≤ m.duty.toNat ∧ m.duty.toNat ≤ 219 ∧ m.fullOn = false) ∨ (m.duty = 255 ∧ m.fullOn = true)

/-- R170: MOTOR_APPLY stops all four channels, or gives each the duty map of its wheel value under its sign. -/
def Obligations.MotorApplyEffect : Prop :=
  ∀ s : State, s.runState = .run →
    exec (.motorApply true) s = .next { s with mot := ⟨{}, {}, {}, {}⟩, out := {} } ∧
    let c := s.mailbox.cmd
    let w := mecanum s.cfg c.vx.toInt c.vy.toInt c.omega.toInt c.speed.toNat
    exec (.motorApply false) s = .next { s with
      mot := ⟨dutyMap s.cfg s.cfg.sign.fl w.fl, dutyMap s.cfg s.cfg.sign.fr w.fr, dutyMap s.cfg s.cfg.sign.rl w.rl,
              dutyMap s.cfg s.cfg.sign.rr w.rr⟩
      out := {} }

/-! ### Session -/

/-- R182, R192: HIT_TAKE outside the lockout takes the first event that passes the self-hit filter, discards every other one, and
leaves the queue empty. -/
def Obligations.HitTakeTakesFirst : Prop :=
  ∀ (s : State) (before after : List HitEvent) (e : HitEvent), s.runState = .run → s.session.hitActive = false →
    s.hitq = before ++ e :: after → (∀ x ∈ before, s.selfhitEn = false ∧ x.self = true) →
    (s.selfhitEn = true ∨ e.self = false) →
    exec .hitTake s = .next { s with
      hitq := []
      session := { s.session with hitActive := true, remaining := s.cfg.hitDisableTime, hitBy := e.team, hitSelf := e.self,
                                  hitAt := e.receivedAt }
      out := { codes := List.replicate (before.length + after.length) .hitIgnored, result := .flag true } }

/-- R191, R182: a hit while disabled changes nothing, nor does a self-hit that the flag masks: the queue is emptied and every
session field keeps its value. -/
def Obligations.HitTakeDiscards : Prop :=
  ∀ s : State, s.runState = .run →
    (s.session.hitActive = true ∨ ∀ x ∈ s.hitq, s.selfhitEn = false ∧ x.self = true) →
    exec .hitTake s = .next { s with
      hitq := [], out := { codes := List.replicate s.hitq.length .hitIgnored, result := .flag false } }

/-- R65: with `S.selfhit_en` = 1 the queue's depth cannot be observed: whatever events are pushed, the tick that follows leaves the
same session, and the same everything else but the answer, under any bound of at least 1 as under none. The unbounded queue holds
every event, the bounded one the oldest (R64). -/
def Obligations.QueueDepthUnobservable : Prop :=
  ∀ (s : State) (events : List HitEvent) (d : Nat), s.runState = .run → s.selfhitEn = true → 1 ≤ d →
    let pushed (depth : Option Nat) : State := events.foldl pushHit { s with cfg := { s.cfg with hitqDepth := depth } }
    (pushed none).hitq = s.hitq ++ events ∧
    (s.hitq.length ≤ d → (pushed (some d)).hitq = (s.hitq ++ events).take d) ∧
    ∃ b u, exec .tick (pushed (some d)) = .next b ∧ exec .tick (pushed none) = .next u ∧ b.session = u.session ∧
      { b with cfg := s.cfg, out := {} } = { u with cfg := s.cfg, out := {} }

/-- R183, R240: HIT_EXPIRE counts the lockout down, saturating, and at 0 returns to Driving with the hit record cleared and the
inactivity timer started afresh; it does nothing outside the lockout or on the tick that entered it. -/
def Obligations.HitExpireEffect : Prop :=
  ∀ (s : State) (el : BitVec 64) (entered : Bool), s.runState = .run →
    (s.session.hitActive = false ∨ entered = true → exec (.hitExpire el entered) s = .next { s with out := {} }) ∧
    (s.session.hitActive = true → el.toNat < s.session.remaining →
      exec (.hitExpire el false) s = .next { s with
        session := { s.session with remaining := s.session.remaining - el.toNat }, out := {} }) ∧
    (s.session.hitActive = true → s.session.remaining ≤ el.toNat →
      exec (.hitExpire el false) s = .next { s with
        session := { hitActive := false, remaining := 0, standby := false, hitBy := 0, hitSelf := false, hitAt := 0 }
        mailbox := { s.mailbox with tInput := s.now }, out := {} })

/-- R184: SAFETY_STOP answers and records the stop condition; it writes no session field. -/
def Obligations.SafetyStopCondition : Prop :=
  ∀ s : State, s.runState = .run → ∃ stop,
    exec .safetyStop s = .next { s with flags := { s.flags with stopActive := stop }, out := { result := .flag stop } } ∧
    (stop = true ↔ s.mailbox.valid = false ∨ s.mailbox.cmd.estop = true ∨ s.cfg.cmdTimeout < s.now - s.mailbox.tCmd)

/-- R185, R186: STANDBY_UPDATE runs the latch outside the lockout only, strictly by the inactivity timeout, and writes the enable
lines always. -/
def Obligations.StandbyUpdateEffect : Prop :=
  ∀ s : State, s.runState = .run → ∃ standby,
    exec .standbyUpdate s = .next { s with
      session := { s.session with standby := standby }, driveEnable := !standby, out := {} } ∧
    (s.session.hitActive = true → standby = s.session.standby) ∧
    (s.session.hitActive = false → (standby = true ↔ s.cfg.standbyTimeout < s.now - s.mailbox.tInput))

/-- R202: FIRE_DISPATCH, level-sensitive on the latest command: refused under the lockout, dropped while the lock is held, else a
transmission of the command's identifier starts. -/
def Obligations.FireDispatchEffect : Prop :=
  ∀ s : State, s.runState = .run →
    let fires := s.mailbox.valid = true ∧ s.mailbox.cmd.fire = true
    let f (refused dropped : Bool) : TickFlags := { s.flags with fireRefused := refused, fireDropped := dropped }
    (¬ fires → exec .fireDispatch s = .next { s with flags := f false false, out := {} }) ∧
    (fires → s.session.hitActive = true →
      exec .fireDispatch s = .next { s with
        flags := f true false, out := { outcome := .refuse, codes := [.fireWhileDisabled] } }) ∧
    (fires → s.session.hitActive = false → s.tx.busy = true →
      exec .fireDispatch s = .next { s with flags := f false true, out := { codes := [.txInFlight] } }) ∧
    (fires → s.session.hitActive = false → s.tx.busy = false →
      exec .fireDispatch s = .next { s with
        flags := f false false
        tx := { busy := true, id := s.mailbox.cmd.teamId, idx := 0, phase := .burst,
                deadline := s.now + s.cfg.tStartEnd, irEnv := true }
        out := {} })

/-! ### The tick -/

/-- R201: TICK is its six sub-operations in their order, the elapsed time taken before `S.t_last_tick` is written, each seeing
what the ones before it wrote; its outcome is `ok`. -/
def Obligations.TickIsItsSubOperations : Prop :=
  ∀ s : State, s.runState = .run → s.now < 2 ^ 64 →
    ∃ entered stop s1 s2 s3 s4 s5 s6 o,
      exec .hitTake { s with tLastTick := s.now } = .next s1 ∧ s1.out.result = .flag entered ∧
      exec (.hitExpire (BitVec.ofNat 64 (s.now - s.tLastTick)) entered) s1 = .next s2 ∧
      exec .safetyStop s2 = .next s3 ∧ s3.out.result = .flag stop ∧
      exec .standbyUpdate s3 = .next s4 ∧
      exec (.motorApply (s4.session.hitActive || stop || s4.session.standby)) s4 = .next s5 ∧
      exec .fireDispatch s5 = .next s6 ∧
      exec .tick s = .next { s6 with out := o } ∧ o.outcome = .ok

/-- The frame of TICK (R62): it leaves the command, the configuration registers, the receivers, the clock and the run state, empties
the queue (R64), and of the mailbox moves at most the inactivity timestamp. -/
def Obligations.TickFrame : Prop :=
  ∀ s : State, s.runState = .run → ∃ t, exec .tick s = .next t ∧
    t = { s with
      tLastTick := s.now, hitq := [], mailbox := { s.mailbox with tInput := t.mailbox.tInput }, session := t.session,
      flags := t.flags, tx := t.tx, mot := t.mot, driveEnable := t.driveEnable, out := t.out } ∧
    (t.mailbox.tInput = s.mailbox.tInput ∨ t.mailbox.tInput = s.now)

/-- R189, R190, R43 (f): after a tick the motors are stopped if the robot is hit-disabled, in standby or under a safety stop, and
else follow the latest command; the enable lines are the negation of the standby latch. -/
def Obligations.MotorsFollowStateAfterTick : Prop :=
  ∀ s t : State, s.runState = .run → exec .tick s = .next t →
    t.driveEnable = !t.session.standby ∧
    ((t.session.hitActive = true ∨ t.session.standby = true ∨ t.flags.stopActive = true) → AllStopped t.mot) ∧
    (t.session.hitActive = false → t.session.standby = false → t.flags.stopActive = false →
      t.mot = driveMotors s.cfg s.mailbox.cmd) ∧
    (t.flags.stopActive = true ↔
      s.mailbox.valid = false ∨ s.mailbox.cmd.estop = true ∨ s.cfg.cmdTimeout < s.now - s.mailbox.tCmd)

/-- R182, R239, R202: a tick that takes a hit enters the lockout with its full length, stops the motors, keeps the standby latch,
refuses a fire and leaves a transmission in flight alone. -/
def Obligations.HitDisablesAtNextTick : Prop :=
  ∀ (s : State) (e : HitEvent) (rest : List HitEvent), s.runState = .run → s.session.hitActive = false →
    s.hitq = e :: rest → (s.selfhitEn = true ∨ e.self = false) → ∃ t, exec .tick s = .next t ∧
      t.session = { hitActive := true, remaining := s.cfg.hitDisableTime, standby := s.session.standby, hitBy := e.team,
                    hitSelf := e.self, hitAt := e.receivedAt } ∧
      sessionState t = .hitDisabled s.cfg.hitDisableTime ∧ AllStopped t.mot ∧ t.tx = s.tx ∧ t.mailbox = s.mailbox ∧
      (t.flags.fireRefused = true ↔ s.mailbox.valid = true ∧ s.mailbox.cmd.fire = true) ∧
      t.driveEnable = !s.session.standby

/-- R183, R241, R282: a lockout of `n` tick periods lasts exactly `n` ticks, whatever hits stand in the queue: before the `n`-th
tick the robot is disabled with that much time left and stopped; at the `n`-th it is Driving with the driver stage energised. -/
def Obligations.LockoutLastsItsTicks : Prop :=
  ∀ (s : State) (n : Nat), s.runState = .run → s.session.hitActive = true → 0 < s.cfg.tickPeriod → 0 < n →
    s.session.remaining = n * s.cfg.tickPeriod →
    (∀ k, 0 < k → k < n → ∃ t, tickTimes k s = .next t ∧ t.session.hitActive = true ∧
      t.session.remaining = (n - k) * s.cfg.tickPeriod ∧ t.session.hitBy = s.session.hitBy ∧ AllStopped t.mot ∧ t.tx = s.tx) ∧
    ∃ t, tickTimes n s = .next t ∧ sessionState t = .driving ∧ t.driveEnable = true ∧
      t.session = { hitActive := false, remaining := 0, standby := false, hitBy := 0, hitSelf := false, hitAt := 0 } ∧
      t.mailbox.tInput = t.now ∧ t.now = s.tLastTick + n * s.cfg.tickPeriod

/-! ### Symbols, frame and records -/

/-- R81, R87: the symbols' nominal durations and windows. R83, R84: a frame string answers an identifier exactly when its ends are
START_END and its interior the identifier's bits, bit 7 first. That these rows answer their reading is log entry 12. -/
def Obligations.SymbolAndFrameReadings : Prop :=
  ∀ s : State,
    let window (t : Nat) : Option (Nat × Nat) := some (t - s.cfg.tol, t + s.cfg.tol)
    exec .symNone s = .next { s with out := { result := .symbolTimes .none none none } } ∧
    exec .symBit0 s = .next { s with out := { result := .symbolTimes .bit0 (some s.cfg.tBit0) (window s.cfg.tBit0) } } ∧
    exec .symBit1 s = .next { s with out := { result := .symbolTimes .bit1 (some s.cfg.tBit1) (window s.cfg.tBit1) } } ∧
    exec .symStartEnd s =
      .next { s with out := { result := .symbolTimes .startEnd (some s.cfg.tStartEnd) (window s.cfg.tStartEnd) } } ∧
    ∀ codes : BitVec 20, ∃ r, exec (.irFrame codes) s = .next { s with out := { result := .identifier r } } ∧
      ∀ id : Byte, r = some id ↔ codes.extractLsb' 18 2 = 0b11#2 ∧ codes.extractLsb' 0 2 = 0b11#2 ∧
        ∀ k : Fin 8, codes.extractLsb' (2 * (k.val + 1)) 2 = if id.getLsbD k.val then 0b10#2 else 0b01#2

/-- R100, R94, R92: the records' readings, and that a motor register or an event packed into its record reads back. That these rows
answer their reading is log entry 12. -/
def Obligations.RecordReadings : Prop :=
  ∀ s : State,
    (∀ reg data, exec (.cfgRecord reg data) s = .next { s with out := { result := .config reg data } }) ∧
    (∀ m : Motor, exec (.motorRecord (m.pack.getLsbD 10) (m.pack.getLsbD 9) (m.pack.getLsbD 8) (m.pack.extractLsb' 0 8)) s =
      .next { s with out := { result := .motor m } }) ∧
    ∀ e : HitEvent, e.receivedAt < 2 ^ 64 →
      exec (.hitRecord (e.pack.getLsbD 72) (e.pack.extractLsb' 64 8) (e.pack.extractLsb' 0 64)) s =
        .next { s with out := { result := .hit e } } ∧
      e.pack.extractLsb' 73 7 = 0

/-- R36, R94, R173: with the driver stage off every enable pin is held low, else it is high or carries the duty code. R114, R115: `ir_tx` is
the envelope gated with a carrier that begins each burst high and is high for CARRIER_DUTY of each period; `num / den` is the time
since `now` in microseconds (log entry 20). The whole cycles of a burst are the floor of R115. -/
def Obligations.OutputsFollowState : Prop :=
  ∀ (s : State) (m : Motor) (num den d : Nat),
    (s.driveEnable = false → enablePin s m = .low) ∧
    (s.driveEnable = true → enablePin s m = if m.fullOn then .high else .pwm m.duty) ∧
    (s.tx.irEnv = false → irTxAt s num den = false) ∧
    (s.cfg.legal = true → 0 < den → s.tx.irEnv = true →
      let start := s.tx.deadline - (encodeFrame s.cfg s.tx.id)[s.tx.idx.val]
      let cycles : ℚ := (((s.now - start : Nat) : ℚ) + (num : ℚ) / den) * s.cfg.carrierHz / 1000000
      (irTxAt s num den = true ↔ Int.fract cycles < s.cfg.carrierDuty.toRat)) ∧
    (carrierCycles s.cfg d : Int) = ⌊(d : ℚ) * s.cfg.carrierHz / 1000000⌋ ∧
    [2400, 1600, 800].map (carrierCycles {}) = [91, 60, 30]

/-! ### The run -/

/-- R62, R244: the single-writer table, with the sub-operations as parts of TICK and RX_RISE: what each instruction but RESET may
change. The free values drawn are the model's own field (log entry 10). No instruction moves the clock, the configuration or the
environment. -/
def Obligations.SingleWriterTable : Prop :=
  ∀ (i : Instr) (s t : State), exec i s = .next t → i ≠ .reset →
    t.cfg = s.cfg ∧ t.now = s.now ∧ t.env = s.env ∧ t.agenda = s.agenda ∧
    ((∀ w, i ≠ .cmdWrite w) → t.mailbox.cmd = s.mailbox.cmd ∧ t.mailbox.valid = s.mailbox.valid ∧ t.mailbox.tCmd = s.mailbox.tCmd) ∧
    ((∀ w, i ≠ .cmdWrite w) → i ≠ .tick → (∀ a b, i ≠ .hitExpire a b) → t.mailbox.tInput = s.mailbox.tInput) ∧
    ((∀ a b, i ≠ .cfgWrite a b) → t.ownId = s.ownId ∧ t.selfhitEn = s.selfhitEn) ∧
    (i ≠ .tick → i ≠ .hitTake → (∀ a b, i ≠ .hitExpire a b) → i ≠ .standbyUpdate → t.session = s.session) ∧
    (i ≠ .tick → i ≠ .safetyStop → i ≠ .fireDispatch → t.flags = s.flags) ∧
    (i ≠ .tick → t.tLastTick = s.tLastTick) ∧
    ((∀ a b, i ≠ .hitPush a b) → (∀ p a, i ≠ .rxFall p a) → (∀ p a, i ≠ .rxRise p a) → (∀ p l a, i ≠ .edge p l a) →
      (∀ p v, i ≠ .edgeSync p v) → t.draws = s.draws) ∧
    (i ≠ .tick → i ≠ .hitTake → (∀ a b, i ≠ .hitPush a b) → (∀ p a, i ≠ .rxRise p a) → (∀ p l a, i ≠ .edge p l a) →
      (∀ p v, i ≠ .edgeSync p v) → t.hitq = s.hitq) ∧
    (∀ q : BitVec 4, (∀ a, i ≠ .rxFall q a) → (∀ a, i ≠ .rxRise q a) → (∀ l a, i ≠ .edge q l a) → (∀ v, i ≠ .edgeSync q v) →
      t.rxAt (pinIndex q) = s.rxAt (pinIndex q)) ∧
    (i ≠ .tick → i ≠ .fireDispatch → (∀ a, i ≠ .txRequest a) → i ≠ .txStep → i ≠ .shutdown → t.tx = s.tx) ∧
    (i ≠ .tick → (∀ h, i ≠ .motorApply h) → i ≠ .shutdown → t.mot = s.mot) ∧
    (i ≠ .tick → i ≠ .standbyUpdate → i ≠ .shutdown → (∀ r, i ≠ .boot r) → t.driveEnable = s.driveEnable) ∧
    (i ≠ .shutdown → (∀ r, i ≠ .boot r) → t.runState = s.runState)

/-- R208, R200, R207: with nothing left to do now, the step moves the clock to the first time at which something is due, an input,
the next tick, the transmit deadline or a sample, and lines up everything due there and nothing else: every input that stands there,
TX_STEP, TICK, and every present pin's sample at its new level; those inputs are taken and no other. That a pin's level changes by
an input is log entry 18, and that a change stamped t is sampled at t is log entry 15. A RESET that stands first is taken alone, and
one that stands behind other inputs of its time waits for the next turn (log entry 7). While `rst` is high each input, BOOT among
them, is offered in turn (log entry 8). With no input to come the order is spelled out, TX_STEP before TICK. -/
def Obligations.ArbiterLinesUpWhatIsDue : Prop :=
  ∀ s : State, s.cfg.legal = true → s.agenda = [] →
    let running := s.runState = .run
    let tickTime := s.tLastTick + s.cfg.tickPeriod
    let noneBefore (t : Nat) : Prop := s.now ≤ t ∧ t < 2 ^ 64 ∧ (running → t ≤ tickTime) ∧
      (running → s.tx.busy = true → t ≤ s.tx.deadline) ∧ (running → s.env.sampling = true → t ≤ s.now + 1)
    (∀ (t : Nat) (xs rest : List Input), s.runState ≠ .reset → s.env.inputs = xs ++ rest → noneBefore t →
      (xs ≠ [] ∨ running ∧ (t = tickTime ∨ s.tx.busy = true ∧ t = s.tx.deadline ∨ s.env.sampling = true ∧ t = s.now + 1)) →
      (∀ x ∈ xs, x.time = t) →
      (∀ x, rest.head? = some x → t < x.time ∨ xs ≠ [] ∧ ∃ w, x = .op t w ∧ decode w = .ok .reset) →
      (∀ w ∈ inputWords xs, ∃ i, decode w = .ok i ∧ isExternal i = true ∧ i ≠ .reset) → ∃ u,
        step s = .next { s with
          now := t, agenda := u, env := { s.env with inputs := rest, pins := levelsAfter xs s.env.pins }, out := {} } ∧
        u.Perm (inputWords xs ++
          (if running ∧ s.env.sampling = true ∧ s.now < t then (List.finRange 16).filterMap fun p =>
            if p.val < s.cfg.nRx then some (encode (.edgeSync (BitVec.ofNat 4 p.val) (levelsAfter xs s.env.pins)[p.val])) else none
          else []) ++
          (if running ∧ s.tx.busy = true ∧ t = s.tx.deadline then [encode .txStep] else []) ++
          (if running ∧ t = tickTime then [encode .tick] else []))) ∧
    (∀ (t : Nat) (w : TraceWord) (rest : List Input), s.runState ≠ .reset → s.env.inputs = .op t w :: rest →
      decode w = .ok .reset → noneBefore t →
      step s = .next { s with now := t, env := { s.env with inputs := rest }, agenda := [w], out := {} }) ∧
    (s.runState = .reset → ∀ (t : Nat) (rest : List Input),
      (∀ w i, s.env.inputs = .op t w :: rest → decode w = .ok i → isExternal i = true →
        step s = .next { s with env := { s.env with inputs := rest }, agenda := [w], out := {} }) ∧
      (∀ p l, s.env.inputs = .pin t p l :: rest →
        step s = .next { s with env := { s.env with inputs := rest, pins := s.env.pins.set p.val l }, out := {} }) ∧
      (s.env.inputs = [] → step s = .next { s with out := {} })) ∧
    (running → s.env.inputs = [] → s.env.sampling = false → s.now ≤ tickTime → tickTime < 2 ^ 64 →
      (s.tx.busy = false → step s = .next { s with now := tickTime, agenda := [encode .tick], out := {} }) ∧
      (s.tx.busy = true → s.now ≤ s.tx.deadline → s.tx.deadline < tickTime →
        step s = .next { s with now := s.tx.deadline, agenda := [encode .txStep], out := {} }) ∧
      (s.tx.busy = true → s.tx.deadline = tickTime →
        step s = .next { s with now := tickTime, agenda := [encode .txStep, encode .tick], out := {} }) ∧
      (s.tx.busy = true → tickTime < s.tx.deadline →
        step s = .next { s with now := tickTime, agenda := [encode .tick], out := {} }))

/-- R130, R207: with the pins sampled, nothing else due and no input to come, one microsecond passes and every present pin's level
is lined up as a sample, in ascending pin order. -/
def Obligations.ArbiterSamplesPins : Prop :=
  ∀ s : State, s.cfg.legal = true → s.runState = .run → s.agenda = [] → s.env.inputs = [] → s.env.sampling = true →
    s.now + 1 < s.tLastTick + s.cfg.tickPeriod → (s.tx.busy = true → s.now + 1 < s.tx.deadline) → s.now + 1 < 2 ^ 64 →
    step s = .next { s with
      now := s.now + 1
      agenda := (List.finRange 16).filterMap fun p =>
        if p.val < s.cfg.nRx then some (encode (.edgeSync (BitVec.ofNat 4 p.val) s.env.pins[p.val])) else none
      out := {} }

/-- R207: what the arbiter lines up stands in the order of the operations' places, SHUTDOWN, CFG_WRITE, EDGE by pin, CMD_WRITE,
TX_STEP, TICK, and STATUS_READ last (R208); it is due at the clock's new value (R208: an input that stands there, a tick or a
transmit step whose time has come, a sample of a present pin), but for the inputs offered while `rst` is high (log entry 8); and
every word of it decodes to an operation that an agent may issue (R96). -/
def Obligations.ArbiterKeepsOrder : Prop :=
  (∀ (r : BitVec 3) (d n : Byte) (p q : BitVec 4) (l m : Bool) (a b : BitVec 64) (w : BitVec 80), p.toNat < q.toNat →
    ([Instr.shutdown, .cfgWrite r d, .edge p l a, .edge q m b, .cmdWrite w, .txStep, .tick, .statusRead n].map
      duePlace).Pairwise (· < ·)) ∧
  ∀ s t : State, s.agenda = [] → step s = .next t →
    t.agenda.Pairwise (fun a b => wordPlace a ≤ wordPlace b) ∧
    (∀ w ∈ t.agenda, ∃ i, decode w = .ok i ∧ isIssued i = true) ∧
    (s.runState ≠ .reset → ∀ w ∈ t.agenda,
      .op t.now w ∈ s.env.inputs ∨
      w = encode .tick ∧ s.runState = .run ∧ s.tLastTick + s.cfg.tickPeriod ≤ t.now ∨
      w = encode .txStep ∧ s.runState = .run ∧ s.tx.busy = true ∧ s.tx.deadline ≤ t.now ∨
      ∃ (p : BitVec 4) (v : Bool), w = encode (.edgeSync p v) ∧ p.toNat < s.cfg.nRx ∧ s.runState = .run ∧
        s.env.sampling = true ∧ s.now < t.now) ∧
    s.now ≤ t.now ∧ (s.runState = .reset → t.now = s.now) ∧
    t = { s with now := t.now, agenda := t.agenda, env := t.env, out := {} }

/-- What the arbiter refuses. R208, log entry 18: an input earlier than the clock. R96: an input that is no operation, or none that comes
from outside (here it stands first, at the clock's value); that it is turned away so is log entry 18. R20: a run past 2^64 - 1,
whatever is the next thing due; that a block with nothing due ever again, in HALT or FATAL, still moves the clock and so comes to that
end is log entry 17. -/
def Obligations.ArbiterRefusals : Prop :=
  ∀ s : State, s.cfg.legal = true → s.agenda = [] → s.runState ≠ .reset →
    (∀ (t : Nat) (w : TraceWord) (rest : List Input), s.env.inputs = .op t w :: rest →
      (t < s.now → step s = .refused .inputOutOfOrder) ∧
      (s.now = t → t < 2 ^ 64 →
        (∀ i, decode w = .ok i → isExternal i = false → step s = .refused .notAnInput) ∧
        ∀ e, decode w = .error e → step s = .refused (.undecodable e))) ∧
    (s.now < 2 ^ 64 → (∀ x, s.env.inputs.head? = some x → 2 ^ 64 ≤ x.time) →
      (s.runState = .run → 2 ^ 64 ≤ s.tLastTick + s.cfg.tickPeriod ∧ (s.tx.busy = true → 2 ^ 64 ≤ s.tx.deadline) ∧
        (s.env.sampling = true → 2 ^ 64 ≤ s.now + 1)) →
      (s.runState = .run ∨ s.env.inputs ≠ [] ∨ 2 ^ 64 ≤ s.now + 1) → step s = .refused .timeBaseExhausted)

/-- R43, R20, R242: the invariant holds after reset, in every legal configuration and environment. -/
def Obligations.InvariantAtReset : Prop :=
  ∀ (c : Params) (e : Env), c.legal = true →
    Inv (State.resetWith c e) ∧ EnableFollowsLatch (State.resetWith c e) ∧ Inv State.reset

/-- R43: every step keeps the invariant, from every state that has it. -/
def Obligations.StepKeepsInvariant : Prop :=
  ∀ s t : State, Inv s → step s = .next t → Inv t

/-- R43 (f): every step keeps the enable lines on the standby latch in RUN, from every state that has it and lines up only agents'
operations. -/
def Obligations.StepKeepsEnableOnLatch : Prop :=
  ∀ s t : State, Inv s → EnableFollowsLatch s → step s = .next t → EnableFollowsLatch t

/-- R20: no step moves the clock back but RESET, and none past 2^64 - 1. -/
def Obligations.ClockNeverGoesBack : Prop :=
  ∀ s t : State, s.now < timeLimit → step s = .next t →
    t.now < timeLimit ∧ (s.now ≤ t.now ∨ ∃ w rest, s.agenda = w :: rest ∧ decode w = .ok .reset)
end

