-- ==== Sys2Proof/Laws/Config.lean ====
section
/-! SUPPORT. What a legal configuration satisfies, as facts of arithmetic (spec/00_scope.md R8). -/

namespace Sys2Proof

theorem Params.legal_iff (c : Params) :
    c.legal = true ↔ c.windowsApart = true ∧ c.durationsLast = true ∧ c.fractionsInRange = true ∧ c.sizesInRange = true ∧
      c.derivedAgree = true ∧ c.shapeFixed = true := by
  simp [Params.legal, and_assoc]

theorem Params.windowsApart_iff (c : Params) :
    c.windowsApart = true ↔ c.tBit0 < c.tBit1 ∧ c.tBit1 < c.tStartEnd ∧ c.tBit0 + 2 * c.tol < c.tBit1 ∧
      c.tBit1 + 2 * c.tol < c.tStartEnd := by
  simp [Params.windowsApart, and_assoc]

theorem Params.durationsLast_iff (c : Params) :
    c.durationsLast = true ↔ c.tol < c.tBit0 ∧ 1 ≤ c.tickPeriod ∧ 1 ≤ c.txGap := by
  simp [Params.durationsLast, and_assoc]

theorem Params.fractionsInRange_iff (c : Params) :
    c.fractionsInRange = true ↔ 0 < c.minDuty.den ∧ c.minDuty.num < c.minDuty.den ∧ 0 < c.pureDc.den ∧ 0 < c.pureDc.num ∧
      c.pureDc.num ≤ c.pureDc.den ∧ 0 < c.zeroEps.den ∧ 0 < c.zeroEps.num ∧
      c.zeroEps.num * c.pureDc.den < c.pureDc.num * c.zeroEps.den ∧ 0 < c.deadband.den ∧ 0 < c.deadband.num ∧
      c.deadband.num < c.deadband.den := by
  simp only [Params.fractionsInRange, Bool.and_eq_true, decide_eq_true_eq, and_assoc]

theorem Params.sizesInRange_iff (c : Params) :
    c.sizesInRange = true ↔ (∀ d, c.hitqDepth = some d → 1 ≤ d) ∧ 1 ≤ c.nRx ∧ c.nRx ≤ 16 ∧ c.hitDisableTime < 2 ^ 32 := by
  unfold Params.sizesInRange
  cases h : c.hitqDepth <;> simp [and_assoc]

theorem Params.derivedAgree_iff (c : Params) :
    c.derivedAgree = true ↔ c.tickHz * c.tickPeriod = 1000000 ∧ c.dutyMax ≤ 255 ∧ 1 ≤ c.carrierHz ∧ 0 < c.carrierDuty.den ∧
      c.carrierDuty.num ≤ c.carrierDuty.den ∧ 1 ≤ c.fClk ∧ c.fClk % 1000000 = 0 := by
  simp only [Params.derivedAgree, Bool.and_eq_true, decide_eq_true_eq, and_assoc]

theorem Params.shapeFixed_iff (c : Params) : c.shapeFixed = true ↔ c.frameLen = 10 ∧ c.idBits = 8 ∧ c.nWheels = 4 := by
  simp only [Params.shapeFixed, Bool.and_eq_true, decide_eq_true_eq, and_assoc]

/-- A legal frame has ten symbols (R98). -/
theorem Params.legal_frameLen {c : Params} (h : c.legal = true) : c.frameLen = 10 :=
  (c.shapeFixed_iff.mp (c.legal_iff.mp h).2.2.2.2.2).1

/-- The three windows are apart and none reaches zero (R8 (a), (b)). -/
theorem Params.legal_windows {c : Params} (h : c.legal = true) :
    c.tBit0 + 2 * c.tol < c.tBit1 ∧ c.tBit1 + 2 * c.tol < c.tStartEnd ∧ c.tol < c.tBit0 := by
  have h := c.legal_iff.mp h
  have ha := c.windowsApart_iff.mp h.1
  exact ⟨ha.2.2.1, ha.2.2.2, (c.durationsLast_iff.mp h.2.1).1⟩

end Sys2Proof
end

