-- ==== Sys2Proof/Laws/Encoding.lean ====
section
/-! SUPPORT. What the byte and field splitting of Decode.lean does, once: reading back what was written. -/

namespace Sys2Proof

@[simp] theorem bytesLE_length (n v : Nat) : (bytesLE n v).length = n := by
  induction n generalizing v with
  | zero => rfl
  | succ n ih => simp [bytesLE, ih]

/-- One byte at a time. -/
theorem natLE_cons (b : Byte) (bs : List Byte) : natLE (b :: bs) = b.toNat + 256 * natLE bs := by
  match bs with
  | [] => rfl
  | [_] => rfl
  | [_, _] => rfl
  | [_, _, _] => rfl
  | [_, _, _, _] => rfl
  | [_, _, _, _, _] => rfl
  | [_, _, _, _, _, _] => rfl
  | [_, _, _, _, _, _, _] => simp [natLE]; omega
  | _ :: _ :: _ :: _ :: _ :: _ :: _ :: c :: r =>
    have := natLE_cons c r
    rw [natLE, natLE, this]
    omega

theorem natLE_bytesLE (n v : Nat) (h : v < 256 ^ n) : natLE (bytesLE n v) = v := by
  induction n generalizing v with
  | zero => simp [bytesLE, natLE]; omega
  | succ n ih =>
    have hd : v / 256 < 256 ^ n := by
      rw [Nat.pow_succ] at h
      exact Nat.div_lt_of_lt_mul (by omega)
    simp only [bytesLE, natLE_cons, ih _ hd, BitVec.toNat_ofNat]
    omega

/-- Each field fits its width. -/
def FieldsFit : List Nat → List Nat → Prop
  | [], [] => True
  | w :: ws, f :: fs => f < 2 ^ w ∧ FieldsFit ws fs
  | _, _ => False

theorem joinFields_lt (ws fs : List Nat) (h : FieldsFit ws fs) : joinFields ws fs < 2 ^ ws.sum := by
  induction ws generalizing fs with
  | nil => cases fs <;> simp [joinFields]
  | cons w ws ih =>
    cases fs with
    | nil => simp [FieldsFit] at h
    | cons f fs =>
      have hi := ih fs h.2
      have hf := h.1
      simp only [joinFields, List.sum_cons, Nat.pow_add]
      calc f + 2 ^ w * joinFields ws fs < 2 ^ w + 2 ^ w * joinFields ws fs := by omega
        _ = 2 ^ w * (joinFields ws fs + 1) := by ring
        _ ≤ 2 ^ w * 2 ^ ws.sum := Nat.mul_le_mul_left _ hi

theorem splitFields_joinFields (ws fs : List Nat) (h : FieldsFit ws fs) : splitFields ws (joinFields ws fs) = fs := by
  induction ws generalizing fs with
  | nil => cases fs <;> simp_all [splitFields, FieldsFit]
  | cons w ws ih =>
    cases fs with
    | nil => simp [FieldsFit] at h
    | cons f fs =>
      have hp : 0 < 2 ^ w := Nat.two_pow_pos w
      simp only [joinFields, splitFields, Nat.add_mul_mod_self_left, Nat.mod_eq_of_lt h.1]
      rw [Nat.add_mul_div_left _ _ hp, Nat.div_eq_of_lt h.1, Nat.zero_add, ih fs h.2]

theorem aboveFields_eq_div (ws : List Nat) (v : Nat) : aboveFields ws v = v / 2 ^ ws.sum := by
  induction ws generalizing v with
  | nil => simp [aboveFields]
  | cons w ws ih => rw [aboveFields, ih, Nat.div_div_eq_div_mul, List.sum_cons, Nat.pow_add]

theorem two_pow_sum_le (ws : List Nat) : 2 ^ ws.sum ≤ 256 ^ fieldBytes ws := by
  have h : (256 : Nat) = 2 ^ 8 := rfl
  rw [h, ← Nat.pow_mul]
  exact Nat.pow_le_pow_right (by omega) (by unfold fieldBytes; omega)

/-- A payload written from fields that fit reads back as those fields. -/
theorem payloadFields_bytesLE (ws fs : List Nat) (h : FieldsFit ws fs) :
    payloadFields ws (bytesLE (fieldBytes ws) (joinFields ws fs)) = .ok fs := by
  have hj := joinFields_lt ws fs h
  have hn := natLE_bytesLE (fieldBytes ws) (joinFields ws fs) (Nat.lt_of_lt_of_le hj (two_pow_sum_le ws))
  simp [payloadFields, hn, aboveFields_eq_div, Nat.div_eq_of_lt hj, splitFields_joinFields ws fs h]

@[simp] theorem ofBit_lt (b : Bool) : ofBit b < 2 ^ 1 := by cases b <;> decide

@[simp] theorem ofSign_lt (g : Sign) : ofSign g < 2 ^ 1 := by cases g <;> decide

end Sys2Proof
end

