-- ==== Sys2Proof/Laws/State.lean ====
section
/-! SUPPORT. One lemma per field per named update of State, each true by rfl, so that no later proof unfolds a record update. -/

namespace Sys2Proof.Machine

/-! ### note -/

@[simp] theorem note_cfg (s : State) (c : OutCode) : (s.note c).cfg = s.cfg := rfl
@[simp] theorem note_now (s : State) (c : OutCode) : (s.note c).now = s.now := rfl
@[simp] theorem note_runState (s : State) (c : OutCode) : (s.note c).runState = s.runState := rfl
@[simp] theorem note_tLastTick (s : State) (c : OutCode) : (s.note c).tLastTick = s.tLastTick := rfl
@[simp] theorem note_mailbox (s : State) (c : OutCode) : (s.note c).mailbox = s.mailbox := rfl
@[simp] theorem note_ownId (s : State) (c : OutCode) : (s.note c).ownId = s.ownId := rfl
@[simp] theorem note_selfhitEn (s : State) (c : OutCode) : (s.note c).selfhitEn = s.selfhitEn := rfl
@[simp] theorem note_session (s : State) (c : OutCode) : (s.note c).session = s.session := rfl
@[simp] theorem note_flags (s : State) (c : OutCode) : (s.note c).flags = s.flags := rfl
@[simp] theorem note_hitq (s : State) (c : OutCode) : (s.note c).hitq = s.hitq := rfl
@[simp] theorem note_rx (s : State) (c : OutCode) : (s.note c).rx = s.rx := rfl
@[simp] theorem note_tx (s : State) (c : OutCode) : (s.note c).tx = s.tx := rfl
@[simp] theorem note_mot (s : State) (c : OutCode) : (s.note c).mot = s.mot := rfl
@[simp] theorem note_driveEnable (s : State) (c : OutCode) : (s.note c).driveEnable = s.driveEnable := rfl
@[simp] theorem note_env (s : State) (c : OutCode) : (s.note c).env = s.env := rfl
@[simp] theorem note_agenda (s : State) (c : OutCode) : (s.note c).agenda = s.agenda := rfl
@[simp] theorem note_draws (s : State) (c : OutCode) : (s.note c).draws = s.draws := rfl
@[simp] theorem note_out (s : State) (c : OutCode) : (s.note c).out = { s.out with codes := s.out.codes ++ [c] } := rfl

/-! ### withOutcome -/

@[simp] theorem withOutcome_cfg (s : State) (o : OpOutcome) : (s.withOutcome o).cfg = s.cfg := rfl
@[simp] theorem withOutcome_now (s : State) (o : OpOutcome) : (s.withOutcome o).now = s.now := rfl
@[simp] theorem withOutcome_runState (s : State) (o : OpOutcome) : (s.withOutcome o).runState = s.runState := rfl
@[simp] theorem withOutcome_tLastTick (s : State) (o : OpOutcome) : (s.withOutcome o).tLastTick = s.tLastTick := rfl
@[simp] theorem withOutcome_mailbox (s : State) (o : OpOutcome) : (s.withOutcome o).mailbox = s.mailbox := rfl
@[simp] theorem withOutcome_ownId (s : State) (o : OpOutcome) : (s.withOutcome o).ownId = s.ownId := rfl
@[simp] theorem withOutcome_selfhitEn (s : State) (o : OpOutcome) : (s.withOutcome o).selfhitEn = s.selfhitEn := rfl
@[simp] theorem withOutcome_session (s : State) (o : OpOutcome) : (s.withOutcome o).session = s.session := rfl
@[simp] theorem withOutcome_flags (s : State) (o : OpOutcome) : (s.withOutcome o).flags = s.flags := rfl
@[simp] theorem withOutcome_hitq (s : State) (o : OpOutcome) : (s.withOutcome o).hitq = s.hitq := rfl
@[simp] theorem withOutcome_rx (s : State) (o : OpOutcome) : (s.withOutcome o).rx = s.rx := rfl
@[simp] theorem withOutcome_tx (s : State) (o : OpOutcome) : (s.withOutcome o).tx = s.tx := rfl
@[simp] theorem withOutcome_mot (s : State) (o : OpOutcome) : (s.withOutcome o).mot = s.mot := rfl
@[simp] theorem withOutcome_driveEnable (s : State) (o : OpOutcome) : (s.withOutcome o).driveEnable = s.driveEnable := rfl
@[simp] theorem withOutcome_env (s : State) (o : OpOutcome) : (s.withOutcome o).env = s.env := rfl
@[simp] theorem withOutcome_agenda (s : State) (o : OpOutcome) : (s.withOutcome o).agenda = s.agenda := rfl
@[simp] theorem withOutcome_draws (s : State) (o : OpOutcome) : (s.withOutcome o).draws = s.draws := rfl
@[simp] theorem withOutcome_out (s : State) (o : OpOutcome) : (s.withOutcome o).out = { s.out with outcome := o } := rfl

/-! ### withResult -/

@[simp] theorem withResult_cfg (s : State) (r : Result) : (s.withResult r).cfg = s.cfg := rfl
@[simp] theorem withResult_now (s : State) (r : Result) : (s.withResult r).now = s.now := rfl
@[simp] theorem withResult_runState (s : State) (r : Result) : (s.withResult r).runState = s.runState := rfl
@[simp] theorem withResult_tLastTick (s : State) (r : Result) : (s.withResult r).tLastTick = s.tLastTick := rfl
@[simp] theorem withResult_mailbox (s : State) (r : Result) : (s.withResult r).mailbox = s.mailbox := rfl
@[simp] theorem withResult_ownId (s : State) (r : Result) : (s.withResult r).ownId = s.ownId := rfl
@[simp] theorem withResult_selfhitEn (s : State) (r : Result) : (s.withResult r).selfhitEn = s.selfhitEn := rfl
@[simp] theorem withResult_session (s : State) (r : Result) : (s.withResult r).session = s.session := rfl
@[simp] theorem withResult_flags (s : State) (r : Result) : (s.withResult r).flags = s.flags := rfl
@[simp] theorem withResult_hitq (s : State) (r : Result) : (s.withResult r).hitq = s.hitq := rfl
@[simp] theorem withResult_rx (s : State) (r : Result) : (s.withResult r).rx = s.rx := rfl
@[simp] theorem withResult_tx (s : State) (r : Result) : (s.withResult r).tx = s.tx := rfl
@[simp] theorem withResult_mot (s : State) (r : Result) : (s.withResult r).mot = s.mot := rfl
@[simp] theorem withResult_driveEnable (s : State) (r : Result) : (s.withResult r).driveEnable = s.driveEnable := rfl
@[simp] theorem withResult_env (s : State) (r : Result) : (s.withResult r).env = s.env := rfl
@[simp] theorem withResult_agenda (s : State) (r : Result) : (s.withResult r).agenda = s.agenda := rfl
@[simp] theorem withResult_draws (s : State) (r : Result) : (s.withResult r).draws = s.draws := rfl
@[simp] theorem withResult_out (s : State) (r : Result) : (s.withResult r).out = { s.out with result := r } := rfl

/-! ### clearOut -/

@[simp] theorem clearOut_cfg (s : State) : (s.clearOut).cfg = s.cfg := rfl
@[simp] theorem clearOut_now (s : State) : (s.clearOut).now = s.now := rfl
@[simp] theorem clearOut_runState (s : State) : (s.clearOut).runState = s.runState := rfl
@[simp] theorem clearOut_tLastTick (s : State) : (s.clearOut).tLastTick = s.tLastTick := rfl
@[simp] theorem clearOut_mailbox (s : State) : (s.clearOut).mailbox = s.mailbox := rfl
@[simp] theorem clearOut_ownId (s : State) : (s.clearOut).ownId = s.ownId := rfl
@[simp] theorem clearOut_selfhitEn (s : State) : (s.clearOut).selfhitEn = s.selfhitEn := rfl
@[simp] theorem clearOut_session (s : State) : (s.clearOut).session = s.session := rfl
@[simp] theorem clearOut_flags (s : State) : (s.clearOut).flags = s.flags := rfl
@[simp] theorem clearOut_hitq (s : State) : (s.clearOut).hitq = s.hitq := rfl
@[simp] theorem clearOut_rx (s : State) : (s.clearOut).rx = s.rx := rfl
@[simp] theorem clearOut_tx (s : State) : (s.clearOut).tx = s.tx := rfl
@[simp] theorem clearOut_mot (s : State) : (s.clearOut).mot = s.mot := rfl
@[simp] theorem clearOut_driveEnable (s : State) : (s.clearOut).driveEnable = s.driveEnable := rfl
@[simp] theorem clearOut_env (s : State) : (s.clearOut).env = s.env := rfl
@[simp] theorem clearOut_agenda (s : State) : (s.clearOut).agenda = s.agenda := rfl
@[simp] theorem clearOut_draws (s : State) : (s.clearOut).draws = s.draws := rfl
@[simp] theorem clearOut_out (s : State) : (s.clearOut).out = {} := rfl

/-! ### ignored -/

@[simp] theorem ignored_cfg (s : State) : (s.ignored).cfg = s.cfg := rfl
@[simp] theorem ignored_now (s : State) : (s.ignored).now = s.now := rfl
@[simp] theorem ignored_runState (s : State) : (s.ignored).runState = s.runState := rfl
@[simp] theorem ignored_tLastTick (s : State) : (s.ignored).tLastTick = s.tLastTick := rfl
@[simp] theorem ignored_mailbox (s : State) : (s.ignored).mailbox = s.mailbox := rfl
@[simp] theorem ignored_ownId (s : State) : (s.ignored).ownId = s.ownId := rfl
@[simp] theorem ignored_selfhitEn (s : State) : (s.ignored).selfhitEn = s.selfhitEn := rfl
@[simp] theorem ignored_session (s : State) : (s.ignored).session = s.session := rfl
@[simp] theorem ignored_flags (s : State) : (s.ignored).flags = s.flags := rfl
@[simp] theorem ignored_hitq (s : State) : (s.ignored).hitq = s.hitq := rfl
@[simp] theorem ignored_rx (s : State) : (s.ignored).rx = s.rx := rfl
@[simp] theorem ignored_tx (s : State) : (s.ignored).tx = s.tx := rfl
@[simp] theorem ignored_mot (s : State) : (s.ignored).mot = s.mot := rfl
@[simp] theorem ignored_driveEnable (s : State) : (s.ignored).driveEnable = s.driveEnable := rfl
@[simp] theorem ignored_env (s : State) : (s.ignored).env = s.env := rfl
@[simp] theorem ignored_agenda (s : State) : (s.ignored).agenda = s.agenda := rfl
@[simp] theorem ignored_draws (s : State) : (s.ignored).draws = s.draws := rfl
@[simp] theorem ignored_out (s : State) : (s.ignored).out = { codes := [.ignoredOperation] } := rfl

/-! ### setRx -/

@[simp] theorem setRx_cfg (s : State) (p : Fin 16) (r : RxState) : (s.setRx p r).cfg = s.cfg := rfl
@[simp] theorem setRx_now (s : State) (p : Fin 16) (r : RxState) : (s.setRx p r).now = s.now := rfl
@[simp] theorem setRx_runState (s : State) (p : Fin 16) (r : RxState) : (s.setRx p r).runState = s.runState := rfl
@[simp] theorem setRx_tLastTick (s : State) (p : Fin 16) (r : RxState) : (s.setRx p r).tLastTick = s.tLastTick := rfl
@[simp] theorem setRx_mailbox (s : State) (p : Fin 16) (r : RxState) : (s.setRx p r).mailbox = s.mailbox := rfl
@[simp] theorem setRx_ownId (s : State) (p : Fin 16) (r : RxState) : (s.setRx p r).ownId = s.ownId := rfl
@[simp] theorem setRx_selfhitEn (s : State) (p : Fin 16) (r : RxState) : (s.setRx p r).selfhitEn = s.selfhitEn := rfl
@[simp] theorem setRx_session (s : State) (p : Fin 16) (r : RxState) : (s.setRx p r).session = s.session := rfl
@[simp] theorem setRx_flags (s : State) (p : Fin 16) (r : RxState) : (s.setRx p r).flags = s.flags := rfl
@[simp] theorem setRx_hitq (s : State) (p : Fin 16) (r : RxState) : (s.setRx p r).hitq = s.hitq := rfl
@[simp] theorem setRx_rx (s : State) (p : Fin 16) (r : RxState) : (s.setRx p r).rx = s.rx.set p.val r := rfl
@[simp] theorem setRx_tx (s : State) (p : Fin 16) (r : RxState) : (s.setRx p r).tx = s.tx := rfl
@[simp] theorem setRx_mot (s : State) (p : Fin 16) (r : RxState) : (s.setRx p r).mot = s.mot := rfl
@[simp] theorem setRx_driveEnable (s : State) (p : Fin 16) (r : RxState) : (s.setRx p r).driveEnable = s.driveEnable := rfl
@[simp] theorem setRx_env (s : State) (p : Fin 16) (r : RxState) : (s.setRx p r).env = s.env := rfl
@[simp] theorem setRx_agenda (s : State) (p : Fin 16) (r : RxState) : (s.setRx p r).agenda = s.agenda := rfl
@[simp] theorem setRx_draws (s : State) (p : Fin 16) (r : RxState) : (s.setRx p r).draws = s.draws := rfl
@[simp] theorem setRx_out (s : State) (p : Fin 16) (r : RxState) : (s.setRx p r).out = s.out := rfl

/-! ### timed -/

@[simp] theorem timed_cfg (s : State) (t : Nat) : (s.timed t).cfg = s.cfg := rfl
@[simp] theorem timed_now (s : State) (t : Nat) : (s.timed t).now = s.now := rfl
@[simp] theorem timed_runState (s : State) (t : Nat) : (s.timed t).runState = s.runState := rfl
@[simp] theorem timed_tLastTick (s : State) (t : Nat) : (s.timed t).tLastTick = s.tLastTick := rfl
@[simp] theorem timed_mailbox (s : State) (t : Nat) : (s.timed t).mailbox = s.mailbox := rfl
@[simp] theorem timed_ownId (s : State) (t : Nat) : (s.timed t).ownId = s.ownId := rfl
@[simp] theorem timed_selfhitEn (s : State) (t : Nat) : (s.timed t).selfhitEn = s.selfhitEn := rfl
@[simp] theorem timed_session (s : State) (t : Nat) : (s.timed t).session = s.session := rfl
@[simp] theorem timed_flags (s : State) (t : Nat) : (s.timed t).flags = s.flags := rfl
@[simp] theorem timed_hitq (s : State) (t : Nat) : (s.timed t).hitq = s.hitq := rfl
@[simp] theorem timed_rx (s : State) (t : Nat) : (s.timed t).rx = s.rx := rfl
@[simp] theorem timed_tx (s : State) (t : Nat) : (s.timed t).tx = s.tx := rfl
@[simp] theorem timed_mot (s : State) (t : Nat) : (s.timed t).mot = s.mot := rfl
@[simp] theorem timed_driveEnable (s : State) (t : Nat) : (s.timed t).driveEnable = s.driveEnable := rfl
@[simp] theorem timed_env (s : State) (t : Nat) : (s.timed t).env = s.env := rfl
@[simp] theorem timed_agenda (s : State) (t : Nat) : (s.timed t).agenda = s.agenda := rfl
@[simp] theorem timed_draws (s : State) (t : Nat) : (s.timed t).draws = if t ≤ s.now then s.draws else s.draws + 1 := rfl
@[simp] theorem timed_out (s : State) (t : Nat) : (s.timed t).out = s.out := rfl

/-! ### stopAll -/

@[simp] theorem stopAll_cfg (s : State) : (s.stopAll).cfg = s.cfg := rfl
@[simp] theorem stopAll_now (s : State) : (s.stopAll).now = s.now := rfl
@[simp] theorem stopAll_runState (s : State) : (s.stopAll).runState = s.runState := rfl
@[simp] theorem stopAll_tLastTick (s : State) : (s.stopAll).tLastTick = s.tLastTick := rfl
@[simp] theorem stopAll_mailbox (s : State) : (s.stopAll).mailbox = s.mailbox := rfl
@[simp] theorem stopAll_ownId (s : State) : (s.stopAll).ownId = s.ownId := rfl
@[simp] theorem stopAll_selfhitEn (s : State) : (s.stopAll).selfhitEn = s.selfhitEn := rfl
@[simp] theorem stopAll_session (s : State) : (s.stopAll).session = s.session := rfl
@[simp] theorem stopAll_flags (s : State) : (s.stopAll).flags = s.flags := rfl
@[simp] theorem stopAll_hitq (s : State) : (s.stopAll).hitq = s.hitq := rfl
@[simp] theorem stopAll_rx (s : State) : (s.stopAll).rx = s.rx := rfl
@[simp] theorem stopAll_tx (s : State) : (s.stopAll).tx = s.tx := rfl
@[simp] theorem stopAll_mot (s : State) : (s.stopAll).mot = ⟨{}, {}, {}, {}⟩ := rfl
@[simp] theorem stopAll_driveEnable (s : State) : (s.stopAll).driveEnable = s.driveEnable := rfl
@[simp] theorem stopAll_env (s : State) : (s.stopAll).env = s.env := rfl
@[simp] theorem stopAll_agenda (s : State) : (s.stopAll).agenda = s.agenda := rfl
@[simp] theorem stopAll_draws (s : State) : (s.stopAll).draws = s.draws := rfl
@[simp] theorem stopAll_out (s : State) : (s.stopAll).out = s.out := rfl

/-! ### enterLockout -/

@[simp] theorem enterLockout_cfg (s : State) (e : HitEvent) : (enterLockout s e).cfg = s.cfg := rfl
@[simp] theorem enterLockout_now (s : State) (e : HitEvent) : (enterLockout s e).now = s.now := rfl
@[simp] theorem enterLockout_runState (s : State) (e : HitEvent) : (enterLockout s e).runState = s.runState := rfl
@[simp] theorem enterLockout_tLastTick (s : State) (e : HitEvent) : (enterLockout s e).tLastTick = s.tLastTick := rfl
@[simp] theorem enterLockout_mailbox (s : State) (e : HitEvent) : (enterLockout s e).mailbox = s.mailbox := rfl
@[simp] theorem enterLockout_ownId (s : State) (e : HitEvent) : (enterLockout s e).ownId = s.ownId := rfl
@[simp] theorem enterLockout_selfhitEn (s : State) (e : HitEvent) : (enterLockout s e).selfhitEn = s.selfhitEn := rfl
@[simp] theorem enterLockout_session (s : State) (e : HitEvent) : (enterLockout s e).session = { s.session with hitActive := true, remaining := s.cfg.hitDisableTime, hitBy := e.team, hitSelf := e.self, hitAt := e.receivedAt } := rfl
@[simp] theorem enterLockout_flags (s : State) (e : HitEvent) : (enterLockout s e).flags = s.flags := rfl
@[simp] theorem enterLockout_hitq (s : State) (e : HitEvent) : (enterLockout s e).hitq = s.hitq := rfl
@[simp] theorem enterLockout_rx (s : State) (e : HitEvent) : (enterLockout s e).rx = s.rx := rfl
@[simp] theorem enterLockout_tx (s : State) (e : HitEvent) : (enterLockout s e).tx = s.tx := rfl
@[simp] theorem enterLockout_mot (s : State) (e : HitEvent) : (enterLockout s e).mot = s.mot := rfl
@[simp] theorem enterLockout_driveEnable (s : State) (e : HitEvent) : (enterLockout s e).driveEnable = s.driveEnable := rfl
@[simp] theorem enterLockout_env (s : State) (e : HitEvent) : (enterLockout s e).env = s.env := rfl
@[simp] theorem enterLockout_agenda (s : State) (e : HitEvent) : (enterLockout s e).agenda = s.agenda := rfl
@[simp] theorem enterLockout_draws (s : State) (e : HitEvent) : (enterLockout s e).draws = s.draws := rfl
@[simp] theorem enterLockout_out (s : State) (e : HitEvent) : (enterLockout s e).out = s.out := rfl

/-! ### leaveLockout -/

@[simp] theorem leaveLockout_cfg (s : State) : (leaveLockout s).cfg = s.cfg := rfl
@[simp] theorem leaveLockout_now (s : State) : (leaveLockout s).now = s.now := rfl
@[simp] theorem leaveLockout_runState (s : State) : (leaveLockout s).runState = s.runState := rfl
@[simp] theorem leaveLockout_tLastTick (s : State) : (leaveLockout s).tLastTick = s.tLastTick := rfl
@[simp] theorem leaveLockout_mailbox (s : State) : (leaveLockout s).mailbox = { s.mailbox with tInput := s.now } := rfl
@[simp] theorem leaveLockout_ownId (s : State) : (leaveLockout s).ownId = s.ownId := rfl
@[simp] theorem leaveLockout_selfhitEn (s : State) : (leaveLockout s).selfhitEn = s.selfhitEn := rfl
@[simp] theorem leaveLockout_session (s : State) : (leaveLockout s).session = {} := rfl
@[simp] theorem leaveLockout_flags (s : State) : (leaveLockout s).flags = s.flags := rfl
@[simp] theorem leaveLockout_hitq (s : State) : (leaveLockout s).hitq = s.hitq := rfl
@[simp] theorem leaveLockout_rx (s : State) : (leaveLockout s).rx = s.rx := rfl
@[simp] theorem leaveLockout_tx (s : State) : (leaveLockout s).tx = s.tx := rfl
@[simp] theorem leaveLockout_mot (s : State) : (leaveLockout s).mot = s.mot := rfl
@[simp] theorem leaveLockout_driveEnable (s : State) : (leaveLockout s).driveEnable = s.driveEnable := rfl
@[simp] theorem leaveLockout_env (s : State) : (leaveLockout s).env = s.env := rfl
@[simp] theorem leaveLockout_agenda (s : State) : (leaveLockout s).agenda = s.agenda := rfl
@[simp] theorem leaveLockout_draws (s : State) : (leaveLockout s).draws = s.draws := rfl
@[simp] theorem leaveLockout_out (s : State) : (leaveLockout s).out = s.out := rfl

/-! ### acceptCommand -/

@[simp] theorem acceptCommand_cfg (s : State) (c : Command) : (acceptCommand s c).cfg = s.cfg := rfl
@[simp] theorem acceptCommand_now (s : State) (c : Command) : (acceptCommand s c).now = s.now := rfl
@[simp] theorem acceptCommand_runState (s : State) (c : Command) : (acceptCommand s c).runState = s.runState := rfl
@[simp] theorem acceptCommand_tLastTick (s : State) (c : Command) : (acceptCommand s c).tLastTick = s.tLastTick := rfl
@[simp] theorem acceptCommand_mailbox (s : State) (c : Command) : (acceptCommand s c).mailbox = { cmd := c, valid := true, tCmd := s.now, tInput := if meaningfulCommand s.cfg c then s.now else s.mailbox.tInput } := rfl
@[simp] theorem acceptCommand_ownId (s : State) (c : Command) : (acceptCommand s c).ownId = s.ownId := rfl
@[simp] theorem acceptCommand_selfhitEn (s : State) (c : Command) : (acceptCommand s c).selfhitEn = s.selfhitEn := rfl
@[simp] theorem acceptCommand_session (s : State) (c : Command) : (acceptCommand s c).session = s.session := rfl
@[simp] theorem acceptCommand_flags (s : State) (c : Command) : (acceptCommand s c).flags = s.flags := rfl
@[simp] theorem acceptCommand_hitq (s : State) (c : Command) : (acceptCommand s c).hitq = s.hitq := rfl
@[simp] theorem acceptCommand_rx (s : State) (c : Command) : (acceptCommand s c).rx = s.rx := rfl
@[simp] theorem acceptCommand_tx (s : State) (c : Command) : (acceptCommand s c).tx = s.tx := rfl
@[simp] theorem acceptCommand_mot (s : State) (c : Command) : (acceptCommand s c).mot = s.mot := rfl
@[simp] theorem acceptCommand_driveEnable (s : State) (c : Command) : (acceptCommand s c).driveEnable = s.driveEnable := rfl
@[simp] theorem acceptCommand_env (s : State) (c : Command) : (acceptCommand s c).env = s.env := rfl
@[simp] theorem acceptCommand_agenda (s : State) (c : Command) : (acceptCommand s c).agenda = s.agenda := rfl
@[simp] theorem acceptCommand_draws (s : State) (c : Command) : (acceptCommand s c).draws = s.draws := rfl
@[simp] theorem acceptCommand_out (s : State) (c : Command) : (acceptCommand s c).out = s.out := rfl

/-! ### shutdown -/

@[simp] theorem shutdown_cfg (s : State) : (shutdown s).cfg = s.cfg := rfl
@[simp] theorem shutdown_now (s : State) : (shutdown s).now = s.now := rfl
@[simp] theorem shutdown_runState (s : State) : (shutdown s).runState = .halt := rfl
@[simp] theorem shutdown_tLastTick (s : State) : (shutdown s).tLastTick = s.tLastTick := rfl
@[simp] theorem shutdown_mailbox (s : State) : (shutdown s).mailbox = s.mailbox := rfl
@[simp] theorem shutdown_ownId (s : State) : (shutdown s).ownId = s.ownId := rfl
@[simp] theorem shutdown_selfhitEn (s : State) : (shutdown s).selfhitEn = s.selfhitEn := rfl
@[simp] theorem shutdown_session (s : State) : (shutdown s).session = s.session := rfl
@[simp] theorem shutdown_flags (s : State) : (shutdown s).flags = s.flags := rfl
@[simp] theorem shutdown_hitq (s : State) : (shutdown s).hitq = s.hitq := rfl
@[simp] theorem shutdown_rx (s : State) : (shutdown s).rx = s.rx := rfl
@[simp] theorem shutdown_tx (s : State) : (shutdown s).tx = { s.tx with irEnv := false, busy := false } := rfl
@[simp] theorem shutdown_mot (s : State) : (shutdown s).mot = ⟨{}, {}, {}, {}⟩ := rfl
@[simp] theorem shutdown_driveEnable (s : State) : (shutdown s).driveEnable = false := rfl
@[simp] theorem shutdown_env (s : State) : (shutdown s).env = s.env := rfl
@[simp] theorem shutdown_agenda (s : State) : (shutdown s).agenda = s.agenda := rfl
@[simp] theorem shutdown_draws (s : State) : (shutdown s).draws = s.draws := rfl
@[simp] theorem shutdown_out (s : State) : (shutdown s).out = s.out := rfl

/-! ### The reset state -/

@[simp] theorem resetWith_cfg (c : Params) (e : Env) : (State.resetWith c e).cfg = c := rfl
@[simp] theorem resetWith_env (c : Params) (e : Env) : (State.resetWith c e).env = e := rfl
@[simp] theorem resetWith_now (c : Params) (e : Env) : (State.resetWith c e).now = 0 := rfl
@[simp] theorem resetWith_runState (c : Params) (e : Env) : (State.resetWith c e).runState = .reset := rfl
@[simp] theorem resetWith_agenda (c : Params) (e : Env) : (State.resetWith c e).agenda = [] := rfl
@[simp] theorem resetWith_session (c : Params) (e : Env) : (State.resetWith c e).session = {} := rfl
@[simp] theorem resetWith_hitq (c : Params) (e : Env) : (State.resetWith c e).hitq = [] := rfl

/-! ### The receivers' array -/

@[simp] theorem rxAt_setRx_same (s : State) (p : Fin 16) (r : RxState) : (s.setRx p r).rxAt p = r := by
  simp [State.rxAt, State.setRx]

theorem rxAt_setRx_other (s : State) (p q : Fin 16) (r : RxState) (h : q ≠ p) : (s.setRx p r).rxAt q = s.rxAt q := by
  have h' : p.val ≠ q.val := fun e => h (Fin.ext e.symm)
  simp [State.rxAt, State.setRx, h']

theorem rxAt_setRx (s : State) (p q : Fin 16) (r : RxState) : (s.setRx p r).rxAt q = if q = p then r else s.rxAt q := by
  split
  · next h => rw [h, rxAt_setRx_same]
  · next h => exact rxAt_setRx_other s p q r h

@[simp] theorem rxAt_resetWith (c : Params) (e : Env) (p : Fin 16) : (State.resetWith c e).rxAt p = {} := by
  simp [State.rxAt, State.resetWith]

end Sys2Proof.Machine
end

