-- ==== Sys2Proof/Laws/Exec.lean ====
section
/-! SUPPORT. The dispatch, one equation per instruction, and what an operation answers outside RUN. Proofs about an instruction start
from its equation and `whenRunning_run`, and never unfold `exec`. -/

namespace Sys2Proof.Machine

theorem exec_reset (s : State) : exec (.reset) s = execReset s := rfl
theorem exec_cmdWrite (word : BitVec 80) (s : State) : exec (.cmdWrite word) s = execCmdWrite word s := rfl
theorem exec_cfgWrite (reg : BitVec 3) (data : Byte) (s : State) : exec (.cfgWrite reg data) s = execCfgWrite reg data s := rfl
theorem exec_edge (pin : BitVec 4) (level : Bool) (ts : BitVec 64) (s : State) : exec (.edge pin level ts) s = execEdge pin level ts s := rfl
theorem exec_statusRead (n : Byte) (s : State) : exec (.statusRead n) s = execStatusRead n s := rfl
theorem exec_shutdown (s : State) : exec (.shutdown) s = execShutdown s := rfl
theorem exec_tick (s : State) : exec (.tick) s = execTick s := rfl
theorem exec_txRequest (id : Byte) (s : State) : exec (.txRequest id) s = execTxRequest id s := rfl
theorem exec_txStep (s : State) : exec (.txStep) s = execTxStep s := rfl
theorem exec_edgeSync (pin : BitVec 4) (v : Bool) (s : State) : exec (.edgeSync pin v) s = execEdgeSync pin v s := rfl
theorem exec_boot (drvReady : Bool) (s : State) : exec (.boot drvReady) s = execBoot drvReady s := rfl
theorem exec_hitTake (s : State) : exec (.hitTake) s = execHitTake s := rfl
theorem exec_hitExpire (elapsed : BitVec 64) (entered : Bool) (s : State) : exec (.hitExpire elapsed entered) s = execHitExpire elapsed entered s := rfl
theorem exec_safetyStop (s : State) : exec (.safetyStop) s = execSafetyStop s := rfl
theorem exec_standbyUpdate (s : State) : exec (.standbyUpdate) s = execStandbyUpdate s := rfl
theorem exec_motorApply (haltMotors : Bool) (s : State) : exec (.motorApply haltMotors) s = execMotorApply haltMotors s := rfl
theorem exec_fireDispatch (s : State) : exec (.fireDispatch) s = execFireDispatch s := rfl
theorem exec_hitPush (id : Byte) (t : BitVec 64) (s : State) : exec (.hitPush id t) s = execHitPush id t s := rfl
theorem exec_rxFall (p : BitVec 4) (t : BitVec 64) (s : State) : exec (.rxFall p t) s = execRxFall p t s := rfl
theorem exec_rxRise (p : BitVec 4) (t : BitVec 64) (s : State) : exec (.rxRise p t) s = execRxRise p t s := rfl
theorem exec_encodeId (id : Byte) (s : State) : exec (.encodeId id) s = execEncodeId id s := rfl
theorem exec_classify (w : BitVec 64) (s : State) : exec (.classify w) s = execClassify w s := rfl
theorem exec_decodeBuf (buf : Vector (BitVec 64) 10) (s : State) : exec (.decodeBuf buf) s = execDecodeBuf buf s := rfl
theorem exec_mecanum (vx vy omega : BitVec 16) (speed : BitVec 16) (s : State) : exec (.mecanum vx vy omega speed) s = execMecanum vx vy omega speed s := rfl
theorem exec_dutymap (num : BitVec 32) (denLess1 : BitVec 32) (sign : Sign) (s : State) : exec (.dutymap num denLess1 sign) s = execDutymap num denLess1 sign s := rfl
theorem exec_meaningful (cmd : BitVec 80) (s : State) : exec (.meaningful cmd) s = execMeaningful cmd s := rfl
theorem exec_symNone (s : State) : exec (.symNone) s = execSymNone s := rfl
theorem exec_symBit0 (s : State) : exec (.symBit0) s = execSymBit0 s := rfl
theorem exec_symBit1 (s : State) : exec (.symBit1) s = execSymBit1 s := rfl
theorem exec_symStartEnd (s : State) : exec (.symStartEnd) s = execSymStartEnd s := rfl
theorem exec_irFrame (codes : BitVec 20) (s : State) : exec (.irFrame codes) s = execIrFrame codes s := rfl
theorem exec_cmdWord (word : BitVec 80) (s : State) : exec (.cmdWord word) s = execCmdWord word s := rfl
theorem exec_cfgRecord (reg : BitVec 3) (data : Byte) (s : State) : exec (.cfgRecord reg data) s = execCfgRecord reg data s := rfl
theorem exec_motorRecord (dirB dirA fullOn : Bool) (duty : Byte) (s : State) : exec (.motorRecord dirB dirA fullOn duty) s = execMotorRecord dirB dirA fullOn duty s := rfl
theorem exec_hitRecord (self : Bool) (team : Byte) (receivedAt : BitVec 64) (s : State) : exec (.hitRecord self team receivedAt) s = execHitRecord self team receivedAt s := rfl

/-- In RUN a guarded operation is its body. -/
theorem whenRunning_run {s : State} (h : s.runState = .run) (f : State → Answer) : whenRunning s f = f s.clearOut := if_pos h

/-- Outside RUN a guarded operation is ignored. -/
theorem whenRunning_not {s : State} (h : s.runState ≠ .run) (f : State → Answer) : whenRunning s f = .next s.ignored := if_neg h

/-- Everything a guarded operation can do. -/
theorem whenRunning_next {s t : State} {f : State → Answer} (h : whenRunning s f = .next t) :
    (s.runState = .run ∧ f s.clearOut = .next t) ∨ (s.runState ≠ .run ∧ t = s.ignored) := by
  by_cases hr : s.runState = .run
  · rw [whenRunning_run hr] at h; exact .inl ⟨hr, h⟩
  · rw [whenRunning_not hr] at h; cases h; exact .inr ⟨hr, rfl⟩

/-- An ignored operation changes only what is answered. -/
theorem ignored_eq (s : State) : s.ignored = { s with out := { codes := [.ignoredOperation] } } := rfl

theorem clearOut_eq (s : State) : s.clearOut = { s with out := {} } := rfl

/-- A pin operation of a present pin is a guarded operation. -/
theorem onPin_of_present {s : State} {pin : BitVec 4} (hp : pinPresent s.cfg pin = true) (f : State → Fin 16 → State) :
    onPin s pin f = whenRunning s fun s => .next (f s (pinIndex pin)) := if_pos hp

/-- A pin operation of an absent pin is refused, whatever the run state. -/
theorem onPin_of_absent {s : State} {pin : BitVec 4} (hp : pinPresent s.cfg pin = false) (f : State → Fin 16 → State) :
    onPin s pin f = .refused .pinAbsent := by
  simp [onPin, hp]

/-- An operation of an absent pin is refused, whatever the run state (R97 (g)). -/
theorem exec_pinMissing {s : State} {i : Instr} (hp : pinMissing s.cfg i = true) : exec i s = .refused .pinAbsent := by
  cases i <;> first
    | exact absurd hp Bool.false_ne_true
    | (simp only [exec, execEdge, execEdgeSync, execRxFall, execRxRise]
       exact onPin_of_absent (by simpa [pinMissing] using hp) _)

/-- Outside RUN every other operation that needs it is ignored. -/
theorem exec_needsRun {s : State} {i : Instr} (h : s.runState ≠ .run) (hp : pinMissing s.cfg i = false)
    (hi : needsRun i = true) : exec i s = .next s.ignored := by
  cases i <;> first
    | exact absurd hi Bool.false_ne_true
    | (simp only [exec, execEdge, execEdgeSync, execRxFall, execRxRise]
       exact (onPin_of_present (by simpa [pinMissing] using hp) _).trans (whenRunning_not h _))
    | simp only [exec, execCmdWrite, execCfgWrite, memWrite, execShutdown, execTick, execTxRequest, execTxStep, execHitTake,
        execHitExpire, execSafetyStop, execStandbyUpdate, execMotorApply, execFireDispatch, execHitPush, whenRunning_not h]

end Sys2Proof.Machine
end

