-- ==== Sys2Proof/Laws/Kinematics.lean ====
section
/-! SUPPORT. The duty map and the normaliser: what every motor register they make satisfies (spec/10_state.md R43 (e)). -/

namespace Sys2Proof.Machine

theorem normaliser_pos (a : PerWheel Int) : 0 < normaliser a := by
  unfold normaliser
  simp

/-- The normaliser is at least the fixed-point 1 and every sum's magnitude (R161). -/
theorem normaliser_bounds (a : PerWheel Int) :
    one ≤ normaliser a ∧ a.fl.natAbs ≤ normaliser a ∧ a.fr.natAbs ≤ normaliser a ∧ a.rl.natAbs ≤ normaliser a ∧
      a.rr.natAbs ≤ normaliser a := by
  unfold normaliser
  omega

/-- Every register the duty map makes keeps R43 (e). -/
theorem dutyMap_ok {c : Params} (hl : c.legal = true) (sg : Sign) (w : Frac) (hd : 0 < w.den) : (dutyMap c sg w).Ok c := by
  obtain ⟨-,-,hf,-,hg,-⟩ := (Params.legal_iff c).mp hl
  have hf := (Params.fractionsInRange_iff c).mp hf
  have hg := (Params.derivedAgree_iff c).mp hg
  obtain ⟨f1,f2,f3,f4,f5,f6,f7,f8,_⟩ := hf
  unfold dutyMap
  dsimp only
  split
  · refine ⟨by simp, by simp, by simp⟩
  · split
    · refine ⟨by simp, by simp, by simp⟩
    · rename_i hz hfull
      have hn : (sg.apply w.num).natAbs < w.den := by
        simp [isFullyOn] at hfull
        by_contra hc
        have h1 : c.pureDc.num * w.den ≤ c.pureDc.den * w.den := Nat.mul_le_mul_right _ f5
        have h2 : c.pureDc.den * w.den ≤ c.pureDc.den * (sg.apply w.num).natAbs := Nat.mul_le_mul_left _ (by omega)
        rw [Nat.mul_comm (sg.apply w.num).natAbs] at hfull
        omega
      refine ⟨by simp, by simp, ?_⟩
      intro hm
      simp
      have hpos : 0 < c.minDuty.den * w.den := Nat.mul_pos f1 hd
      have h1 : 1 ≤ dutyCode c (sg.apply w.num).natAbs w.den := by
        unfold dutyCode
        rw [Nat.one_le_div_iff hpos]
        have := Nat.mul_le_mul_right w.den hm
        calc _ ≤ c.dutyMax * c.minDuty.num * w.den := this
          _ = c.dutyMax * (c.minDuty.num * w.den) := by ring
          _ ≤ _ := Nat.mul_le_mul_left _ (by omega)
      have h2 : dutyCode c (sg.apply w.num).natAbs w.den ≤ 255 := by
        unfold dutyCode
        refine Nat.le_trans (Nat.div_le_of_le_mul ?_) hg.2.1
        rw [Nat.mul_comm _ c.dutyMax]
        refine Nat.mul_le_mul_left _ ?_
        obtain ⟨k, hk⟩ : ∃ k, c.minDuty.den = c.minDuty.num + k := ⟨_, (Nat.add_sub_of_le (by omega)).symm⟩
        rw [hk, Nat.add_sub_cancel_left, Nat.add_mul]
        exact Nat.add_le_add_left (Nat.mul_le_mul_left _ (by omega)) _
      constructor
      · intro h3
        exfalso
        have h0 : (sg.apply w.num).natAbs = 0 := by omega
        have := Nat.mul_pos f7 hd
        simp only [inZeroBand, h0, decide_eq_true_eq] at hz
        omega
      · intro h3
        have := congrArg BitVec.toNat h3
        simp at this
        omega

theorem stopped_ok (c : Params) : Motor.Ok c {} := ⟨by simp, by simp, by simp⟩

/-- The four registers of a command keep R43 (e). -/
theorem driveMotors_ok {c : Params} (hl : c.legal = true) (cmd : Command) :
    (driveMotors c cmd).fl.Ok c ∧ (driveMotors c cmd).fr.Ok c ∧ (driveMotors c cmd).rl.Ok c ∧ (driveMotors c cmd).rr.Ok c := by
  have hd : 0 < normaliser (rawSums c cmd.vx.toInt cmd.vy.toInt cmd.omega.toInt) * one :=
    Nat.mul_pos (normaliser_pos _) (by decide)
  exact ⟨dutyMap_ok hl _ _ hd, dutyMap_ok hl _ _ hd, dutyMap_ok hl _ _ hd, dutyMap_ok hl _ _ hd⟩

end Sys2Proof.Machine
end

