-- ==== Sys2Proof/Laws/Ops.lean ====
section
/-! SUPPORT. What the shared operations of Ops.lean, Flags.lean and Operands.lean do, each said once. -/

namespace Sys2Proof.Machine

/-- ST_FLAGS bit by bit (R40). -/
theorem stFlags_getLsbD (s : State) (i : Nat) :
    (stFlags s).getLsbD i =
      [s.session.hitActive, s.session.hitSelf, s.session.standby, s.flags.stopActive, s.tx.busy, s.flags.fireRefused,
        s.driveEnable, s.mailbox.valid, s.runState.code.getLsbD 0, s.runState.code.getLsbD 1,
        (sessionState s).code.getLsbD 0, (sessionState s).code.getLsbD 1, s.flags.fireDropped, false, false, false].getD i
        false :=
  BitVec.getLsbD_ofBoolListLE

/-- A reserved register number reads 0 (R40). -/
theorem readReg_reserved (s : State) (n : Nat) (h : 7 ≤ n) : readReg s n = 0 := by
  unfold readReg
  split <;> first | omega | rfl

/-- MemRead with the register's own size is its value (R69). -/
theorem memRead_width (s : State) (n k : Nat) (h : 8 * k = regWidth n) : memRead s n k = readReg s n := if_pos h

/-- MemRead with any other size reads 0 (R69). -/
theorem memRead_other (s : State) (n k : Nat) (h : 8 * k ≠ regWidth n) : memRead s n k = 0 := if_neg h

/-- Every register's width is whole bytes (R40). -/
theorem regWidth_bytes (n : Nat) : 8 * (regWidth n / 8) = regWidth n := by
  unfold regWidth
  split <;> rfl

/-- Only registers 0 and 1 can be written (R204). -/
theorem writeReg_none (s : State) (n : Nat) (h : 2 ≤ n) (data : Byte) : writeReg s n data = none := by
  unfold writeReg
  split <;> first | omega | rfl

/-- A configuration write changes a configuration register or the answer, nothing else. -/
theorem configWrite_frame (s : State) (n : Nat) (data : Byte) :
    configWrite s n data = { s with
      ownId := (configWrite s n data).ownId, selfhitEn := (configWrite s n data).selfhitEn,
      out := (configWrite s n data).out } := by
  unfold configWrite writeReg
  split <;> rename_i h <;> split at h <;> cases h <;> rfl

/-- MemWrite in RUN: CFG_WRITE for one byte, else a Discard (R69). -/
theorem memWrite_run {s : State} (h : s.runState = .run) (n k : Nat) (v : Byte) :
    memWrite s n k v =
      .next (if k = 1 then configWrite s.clearOut n v else (s.clearOut.withOutcome .discard).note .badRegister) :=
  whenRunning_run h _

/-- A pop takes the head and leaves the rest (R64). -/
theorem popHit_eq_some_iff (s t : State) (e : HitEvent) :
    popHit s = some (e, t) ↔ ∃ q, s.hitq = e :: q ∧ t = { s with hitq := q } := by
  unfold popHit
  split
  · rename_i h; simp [h]
  · rename_i e' q h
    simp only [h, Option.some.injEq, Prod.mk.injEq, List.cons.injEq]
    constructor
    · rintro ⟨rfl, rfl⟩; exact ⟨q, ⟨rfl, rfl⟩, rfl⟩
    · rintro ⟨q', ⟨rfl, rfl⟩, rfl⟩; exact ⟨rfl, rfl⟩

/-- A pop answers nothing exactly on an empty queue. -/
theorem popHit_eq_none_iff (s : State) : popHit s = none ↔ s.hitq = [] := by
  unfold popHit
  split <;> simp [*]

/-- A push changes the queue or the answer, nothing else. -/
theorem pushHit_frame (s : State) (e : HitEvent) :
    pushHit s e = { s with hitq := (pushHit s e).hitq, out := (pushHit s e).out } := by
  unfold pushHit
  split <;> rfl

/-- A queue after a push: the event appended where there is room, else unchanged (R64). -/
theorem pushHit_hitq (s : State) (e : HitEvent) :
    (pushHit s e).hitq = if queueHasRoom s.cfg s.hitq then s.hitq ++ [e] else s.hitq := by
  unfold pushHit
  split <;> rfl

/-- Room is what the depth leaves (R64). -/
theorem queueHasRoom_iff (c : Params) (q : List HitEvent) :
    queueHasRoom c q = true ↔ ∀ d, c.hitqDepth = some d → q.length < d := by
  unfold queueHasRoom
  split <;> simp_all

@[simp] theorem setRx_rxAt (s : State) (p : Fin 16) (r : RxState) : (s.setRx p r).rxAt p = r := by
  simp [State.setRx, State.rxAt]

theorem setRx_rxAt_ne (s : State) (p q : Fin 16) (r : RxState) (h : q ≠ p) : (s.setRx p r).rxAt q = s.rxAt q := by
  have hv : p.val ≠ q.val := fun e => h (Fin.ext e.symm)
  simp [State.setRx, State.rxAt, Vector.getElem_set_ne _ _ hv]

theorem setRx_eq (s : State) (p : Fin 16) (r : RxState) : s.setRx p r = { s with rx := s.rx.set p.val r } := rfl

/-- The time of an operation is never later than `now` (R43 (a)). -/
theorem opTime_le (s : State) (t : Nat) : opTime s t ≤ s.now := by
  unfold opTime
  split
  · assumption
  · exact Nat.lt_succ_iff.mp (Nat.mod_lt _ (Nat.succ_pos _))

/-- A timestamp operand that has come is the operation's time. -/
theorem opTime_eq {s : State} {t : Nat} (h : t ≤ s.now) : opTime s t = t := if_pos h

/-- Then no free value is drawn. -/
theorem timed_eq {s : State} {t : Nat} (h : t ≤ s.now) : s.timed t = s := by simp [State.timed, h]

/-- A difference that is not negative is exact (R9). -/
theorem timeBetween_eq {n a b : Nat} (h : a ≤ b) : timeBetween n a b = b - a := if_pos h

theorem pinIndex_inj {p q : BitVec 4} (h : pinIndex p = pinIndex q) : p = q :=
  BitVec.eq_of_toNat_eq (congrArg Fin.val h)

/-- The packed command word bit by bit (R88). -/
theorem Command.pack_getLsbD (c : Command) (i : Nat) :
    c.pack.getLsbD i =
      if i < 16 then c.vx.getLsbD i else if i < 32 then c.vy.getLsbD (i - 16) else if i < 48 then c.omega.getLsbD (i - 32)
      else if i < 64 then c.speed.getLsbD (i - 48) else if i < 65 then c.estop else if i < 66 then c.fire
      else if i < 72 then false else c.teamId.getLsbD (i - 72) := by
  have h : c.pack.getLsbD i = if i < 16 then c.vx.getLsbD i else
      (c.teamId ++ 0#6 ++ BitVec.ofBool c.fire ++ BitVec.ofBool c.estop ++ c.speed ++ c.omega ++ c.vy).getLsbD (i - 16) := by
    unfold Command.pack
    exact BitVec.getLsbD_append
  rw [h]
  simp only [BitVec.getLsbD_append, BitVec.getLsbD_ofBool, BitVec.getLsbD_zero]
  grind
/-- The packed motor record bit by bit (R94). -/
theorem Motor.pack_getLsbD (m : Motor) (i : Nat) :
    m.pack.getLsbD i =
      if i < 8 then m.duty.getLsbD i else if i = 8 then m.fullOn else if i = 9 then m.dirA else (decide (i = 10) && m.dirB) := by
  have h : m.pack.getLsbD i = if i < 8 then m.duty.getLsbD i else
      (BitVec.ofBool m.dirB ++ BitVec.ofBool m.dirA ++ BitVec.ofBool m.fullOn).getLsbD (i - 8) := by
    unfold Motor.pack
    exact BitVec.getLsbD_append
  rw [h]
  simp only [BitVec.getLsbD_append, BitVec.getLsbD_ofBool]
  grind
/-- The packed HitEvent bit by bit (R92). -/
theorem HitEvent.pack_getLsbD (e : HitEvent) (i : Nat) :
    e.pack.getLsbD i =
      if i < 64 then (BitVec.ofNat 64 e.receivedAt).getLsbD i else if i < 72 then e.team.getLsbD (i - 64) else (decide (i = 72) && e.self) := by
  have h : e.pack.getLsbD i = if i < 64 then (BitVec.ofNat 64 e.receivedAt).getLsbD i else
      (0#7 ++ BitVec.ofBool e.self ++ e.team).getLsbD (i - 64) := by
    unfold HitEvent.pack
    exact BitVec.getLsbD_append
  rw [h]
  simp only [BitVec.getLsbD_append, BitVec.getLsbD_ofBool, BitVec.getLsbD_zero]
  grind
/-- A field of a word is what its bits are. -/
theorem extractLsb'_eq_of_bits {n w : Nat} {x : BitVec n} {y : BitVec w} {k : Nat}
    (h : ∀ i, i < w → x.getLsbD (k + i) = y.getLsbD i) : x.extractLsb' k w = y := by
  apply BitVec.eq_of_getLsbD_eq
  intro i hi
  rw [BitVec.getLsbD_extractLsb', h i hi]
  simp [hi]

/-- A packed command reads back (R88, R89). -/
theorem commandOf_pack (c : Command) : commandOf c.pack = c := by
  have h1 : c.pack.extractLsb' 0 16 = c.vx := extractLsb'_eq_of_bits fun i hi => by rw [Command.pack_getLsbD]; grind
  have h2 : c.pack.extractLsb' 16 16 = c.vy := extractLsb'_eq_of_bits fun i hi => by rw [Command.pack_getLsbD]; grind
  have h3 : c.pack.extractLsb' 32 16 = c.omega := extractLsb'_eq_of_bits fun i hi => by rw [Command.pack_getLsbD]; grind
  have h4 : c.pack.extractLsb' 48 16 = c.speed := extractLsb'_eq_of_bits fun i hi => by rw [Command.pack_getLsbD]; grind
  have h5 : c.pack.extractLsb' 72 8 = c.teamId := extractLsb'_eq_of_bits fun i hi => by rw [Command.pack_getLsbD]; grind
  simp only [commandOf, h1, h2, h3, h4, h5, Command.pack_getLsbD]
  rfl

end Sys2Proof.Machine
end

