-- ==== Sys2Proof/Laws/PerInstr.lean ====
section
/-! SUPPORT. The per-instruction families named in LAWS.json. -/

namespace Sys2Proof.Laws.WordLength

/-- The encoded word of an instruction has exactly the length its first byte (an operation) or its record has in the tables. -/
def Statement (i : Instr) : Prop :=
  (encode i).bytes.length = wordLength (encode i).fmt (natLE ((encode i).bytes.take 1))

theorem opWord_length (op : Nat) (fs : List Nat) (h : op < 256) :
    (opWord op fs).bytes.length = wordLength (opWord op fs).fmt (natLE ((opWord op fs).bytes.take 1)) := by
  simp [opWord, wordLength, natLE, Nat.mod_eq_of_lt h, Nat.add_comm]

theorem recordWord_length (fmt : Format) (fs : List Nat) (v : Nat) (h : fmt ≠ .op) :
    (recordWord fmt fs).bytes.length = wordLength (recordWord fmt fs).fmt v := by
  cases fmt <;> simp_all [recordWord, wordLength]

theorem reset : Statement .reset := opWord_length _ _ (by decide)
theorem cmdWrite (word : BitVec 80) : Statement (.cmdWrite word) := opWord_length _ _ (by decide)
theorem cfgWrite (reg : BitVec 3) (data : Byte) : Statement (.cfgWrite reg data) := opWord_length _ _ (by decide)
theorem edge (pin : BitVec 4) (level : Bool) (ts : BitVec 64) : Statement (.edge pin level ts) :=
  opWord_length _ _ (by decide)
theorem statusRead (n : Byte) : Statement (.statusRead n) := opWord_length _ _ (by decide)
theorem shutdown : Statement .shutdown := opWord_length _ _ (by decide)
theorem tick : Statement .tick := opWord_length _ _ (by decide)
theorem txRequest (id : Byte) : Statement (.txRequest id) := opWord_length _ _ (by decide)
theorem txStep : Statement .txStep := opWord_length _ _ (by decide)
theorem edgeSync (pin : BitVec 4) (v : Bool) : Statement (.edgeSync pin v) := opWord_length _ _ (by decide)
theorem boot (drvReady : Bool) : Statement (.boot drvReady) := opWord_length _ _ (by decide)
theorem hitTake : Statement .hitTake := opWord_length _ _ (by decide)
theorem hitExpire (elapsed : BitVec 64) (entered : Bool) : Statement (.hitExpire elapsed entered) :=
  opWord_length _ _ (by decide)
theorem safetyStop : Statement .safetyStop := opWord_length _ _ (by decide)
theorem standbyUpdate : Statement .standbyUpdate := opWord_length _ _ (by decide)
theorem motorApply (halt : Bool) : Statement (.motorApply halt) := opWord_length _ _ (by decide)
theorem fireDispatch : Statement .fireDispatch := opWord_length _ _ (by decide)
theorem hitPush (id : Byte) (t : BitVec 64) : Statement (.hitPush id t) := opWord_length _ _ (by decide)
theorem rxFall (p : BitVec 4) (t : BitVec 64) : Statement (.rxFall p t) := opWord_length _ _ (by decide)
theorem rxRise (p : BitVec 4) (t : BitVec 64) : Statement (.rxRise p t) := opWord_length _ _ (by decide)
theorem encodeId (id : Byte) : Statement (.encodeId id) := opWord_length _ _ (by decide)
theorem classify (w : BitVec 64) : Statement (.classify w) := opWord_length _ _ (by decide)
theorem decodeBuf (buf : Vector (BitVec 64) 10) : Statement (.decodeBuf buf) := opWord_length _ _ (by decide)
theorem mecanum (vx vy omega speed : BitVec 16) : Statement (.mecanum vx vy omega speed) :=
  opWord_length _ _ (by decide)
theorem dutymap (num denLess1 : BitVec 32) (sign : Sign) : Statement (.dutymap num denLess1 sign) :=
  opWord_length _ _ (by decide)
theorem meaningful (cmd : BitVec 80) : Statement (.meaningful cmd) := opWord_length _ _ (by decide)
theorem symNone : Statement .symNone := recordWord_length _ _ _ (by decide)
theorem symBit0 : Statement .symBit0 := recordWord_length _ _ _ (by decide)
theorem symBit1 : Statement .symBit1 := recordWord_length _ _ _ (by decide)
theorem symStartEnd : Statement .symStartEnd := recordWord_length _ _ _ (by decide)
theorem irFrame (codes : BitVec 20) : Statement (.irFrame codes) := recordWord_length _ _ _ (by decide)
theorem cmdWord (word : BitVec 80) : Statement (.cmdWord word) := recordWord_length _ _ _ (by decide)
theorem cfgRecord (reg : BitVec 3) (data : Byte) : Statement (.cfgRecord reg data) := recordWord_length _ _ _ (by decide)
theorem motorRecord (dirB dirA fullOn : Bool) (duty : Byte) : Statement (.motorRecord dirB dirA fullOn duty) :=
  recordWord_length _ _ _ (by decide)
theorem hitRecord (self : Bool) (team : Byte) (receivedAt : BitVec 64) : Statement (.hitRecord self team receivedAt) :=
  recordWord_length _ _ _ (by decide)

end Sys2Proof.Laws.WordLength
end

