-- ==== Sys2Proof/Laws/Receiver.lean ====
section
/-! SUPPORT. The receiver: what a rising edge leaves, and that the receiver operations touch their own pin, the queue and the answer
only (spec/41_ir_rx.md R140). -/

namespace Sys2Proof.Machine

/-- The windows of a legal configuration exclude each other, so each symbol is its window (R87, R137). -/
theorem classify_eq_iff {c : Params} (h : c.legal = true) (w : Nat) :
    (classify c w = .startEnd ↔ inWindow c c.tStartEnd w = true) ∧ (classify c w = .bit1 ↔ inWindow c c.tBit1 w = true) ∧
      (classify c w = .bit0 ↔ inWindow c c.tBit0 w = true) := by
  obtain ⟨h1, h2, h3⟩ := Params.legal_windows h
  have a1 : inWindow c c.tStartEnd w = true → inWindow c c.tBit1 w = false := by
    simp only [inWindow, Bool.and_eq_true, decide_eq_true_eq, Bool.and_eq_false_iff, decide_eq_false_iff_not]; omega
  have a2 : inWindow c c.tStartEnd w = true → inWindow c c.tBit0 w = false := by
    simp only [inWindow, Bool.and_eq_true, decide_eq_true_eq, Bool.and_eq_false_iff, decide_eq_false_iff_not]; omega
  have a3 : inWindow c c.tBit1 w = true → inWindow c c.tBit0 w = false := by
    simp only [inWindow, Bool.and_eq_true, decide_eq_true_eq, Bool.and_eq_false_iff, decide_eq_false_iff_not]; omega
  unfold classify
  grind

/-- A window's two ends (R87). -/
theorem inWindow_iff (c : Params) (nominal w : Nat) :
    inWindow c nominal w = true ↔ nominal - c.tol ≤ w ∧ w ≤ nominal + c.tol := by
  simp [inWindow]

/-- A nominal duration lies in its own window. -/
theorem inWindow_self (c : Params) (nominal : Nat) : inWindow c nominal nominal = true := by
  simp [inWindow]

/-- The symbol of a bit (R81). -/
def symbolOfBit (b : Bool) : Symbol := if b then .bit1 else .bit0

/-- The `n` low bits of a number as symbols, highest first. -/
def symbolsOf : Nat → Nat → List Symbol
  | 0, _ => []
  | n + 1, v => symbolOfBit (v.testBit n) :: symbolsOf n v

/-- Symbols depend on the bits below the length only. -/
theorem symbolsOf_congr (n v w : Nat) (h : ∀ k, k < n → v.testBit k = w.testBit k) : symbolsOf n v = symbolsOf n w := by
  induction n with
  | zero => rfl
  | succ n ih => simp only [symbolsOf, h n (by omega), ih fun k hk => h k (by omega)]

/-- The number of a list of symbols is exactly the one whose bits they are (R84). -/
theorem bitsValue_eq_some_iff (cs : List Symbol) (v : Nat) :
    bitsValue cs = some v ↔ v < 2 ^ cs.length ∧ cs = symbolsOf cs.length v := by
  induction cs generalizing v with
  | nil => simp [bitsValue, symbolsOf, eq_comm]
  | cons c cs ih =>
    simp only [List.length_cons, symbolsOf, List.cons.injEq]
    have hp := Nat.two_pow_pos cs.length
    have hp2 : 2 ^ (cs.length + 1) = 2 * 2 ^ cs.length := by ring
    cases c with
    | none => simp [bitsValue, symbolOfBit]; intro _ h; split at h <;> cases h
    | startEnd => simp [bitsValue, symbolOfBit]; intro _ h; split at h <;> cases h
    | bit0 =>
      rw [bitsValue, ih]
      constructor
      · rintro ⟨h1, h2⟩
        exact ⟨by omega, by simp [symbolOfBit, Nat.testBit_lt_two_pow h1], h2⟩
      · rintro ⟨h1, h2, h3⟩
        refine ⟨?_, h3⟩
        by_contra hc
        have : v.testBit cs.length = true := by
          have hl : (v - 2 ^ cs.length).testBit cs.length = false := Nat.testBit_lt_two_pow (by omega)
          have he := Nat.testBit_two_pow_add_eq (v - 2 ^ cs.length) cs.length
          rwa [hl, show 2 ^ cs.length + (v - 2 ^ cs.length) = v by omega] at he
        simp [symbolOfBit, this] at h2
    | bit1 =>
      simp only [bitsValue, Option.map_eq_some_iff, ih]
      constructor
      · rintro ⟨a, ⟨h1, h2⟩, rfl⟩
        rw [Nat.add_comm a]
        refine ⟨by omega, ?_, ?_⟩
        · rw [Nat.testBit_two_pow_add_eq, Nat.testBit_lt_two_pow h1]; rfl
        · rw [h2]
          conv_rhs => rw [← h2]
          exact symbolsOf_congr _ _ _ fun k hk => by rw [Nat.testBit_two_pow_add_gt hk]
      · rintro ⟨h1, h2, h3⟩
        have hv : 2 ^ cs.length ≤ v := by
          by_contra hc
          rw [Nat.testBit_lt_two_pow (by omega)] at h2
          cases h2
        refine ⟨v - 2 ^ cs.length, ⟨by omega, ?_⟩, by omega⟩
        rw [h3]
        conv_rhs => rw [← h3]
        refine symbolsOf_congr _ _ _ fun k hk => ?_
        have := Nat.testBit_two_pow_add_gt hk (v - 2 ^ cs.length)
        rwa [show 2 ^ cs.length + (v - 2 ^ cs.length) = v by omega] at this

/-- A frame's interior decodes to exactly the identifier whose bits it is, first sent most significant (R84, R138). -/
theorem bitsValue_eq_iff (a b c d e f g h : Symbol) (id : Byte) :
    (bitsValue [a, b, c, d, e, f, g, h]).map (BitVec.ofNat 8) = some id ↔
      [a, b, c, d, e, f, g, h] = symbolsOf 8 id.toNat := by
  constructor
  · intro hm
    obtain ⟨v, hv, rfl⟩ := Option.map_eq_some_iff.mp hm
    obtain ⟨h1, h2⟩ := (bitsValue_eq_some_iff _ _).mp hv
    rw [BitVec.toNat_ofNat, Nat.mod_eq_of_lt (show v < 2 ^ 8 from h1)]
    exact h2
  · intro hs
    have : bitsValue [a, b, c, d, e, f, g, h] = some id.toNat := (bitsValue_eq_some_iff _ _).mpr ⟨id.isLt, hs⟩
    rw [this]
    simp
@[simp] theorem pushHit_rx (s : State) (e : HitEvent) : (pushHit s e).rx = s.rx := by rw [pushHit_frame]

theorem rxFall_frame (s : State) (p : Fin 16) (t : Nat) :
    rxFall s p t = { s with rx := s.rx.set p.val { s.rxAt p with fallValid := true, fallTs := t } } := rfl

/-- RX_RISE changes its receiver, the queue, the free values drawn and the answer, nothing else. -/
theorem rxRise_frame (s : State) (p : Fin 16) (t : Nat) :
    rxRise s p t = { s with
      rx := if (s.rxAt p).fallValid then s.rx.set p.val (riseReceiver s (s.rxAt p) t) else s.rx
      draws := if (s.rxAt p).fallValid then s.draws + drawnByRise (s.rxAt p) t else s.draws
      hitq := (rxRise s p t).hitq, out := (rxRise s p t).out } := by
  unfold rxRise hitPush
  dsimp only
  split
  · split
    · split
      · rw [pushHit_frame]
        split <;> rfl
      · split <;> rfl
    · split <;> rfl
  · rfl

@[simp] theorem rxRise_cfg (s : State) (p : Fin 16) (t : Nat) : (rxRise s p t).cfg = s.cfg := by rw [rxRise_frame]
@[simp] theorem rxRise_now (s : State) (p : Fin 16) (t : Nat) : (rxRise s p t).now = s.now := by rw [rxRise_frame]

/-- The receiver after a rising edge. -/
theorem rxRise_rxAt (s : State) (p : Fin 16) (t : Nat) :
    (rxRise s p t).rxAt p = if (s.rxAt p).fallValid then riseReceiver s (s.rxAt p) t else s.rxAt p := by
  rw [rxRise_frame]
  unfold State.rxAt
  dsimp only
  split <;> simp

/-- Another receiver is untouched (R140). -/
theorem rxRise_rxAt_ne (s : State) (p q : Fin 16) (t : Nat) (h : q ≠ p) : (rxRise s p t).rxAt q = s.rxAt q := by
  have hv : p.val ≠ q.val := fun e => h (Fin.ext e.symm)
  rw [rxRise_frame]
  unfold State.rxAt
  dsimp only
  split
  · simp [Vector.getElem_set_ne _ _ hv]
  · rfl

/-- The queue after a rising edge: unchanged, or the event of a frame that decodes pushed (R136, R138, R139). -/
theorem rxRise_hitq (s : State) (p : Fin 16) (t : Nat) :
    (rxRise s p t).hitq = s.hitq ∨
      ∃ id, (rxRise s p t).hitq = (pushHit s { team := id, receivedAt := t, self := id == s.ownId }).hitq := by
  unfold rxRise hitPush
  dsimp only
  split
  · split
    · split
      · rename_i id _
        refine .inr ⟨id, ?_⟩
        split <;> (rw [pushHit_hitq, pushHit_hitq]; rfl)
      · split <;> exact .inl rfl
    · split <;> exact .inl rfl
  · exact .inl rfl

/-- The width and the gap rule of a rising edge that comes in order (R134, R135). -/
theorem burstWidth_eq {s : State} {r : RxState} {t : Nat} (h : r.fallTs ≤ t) : burstWidth s r t = t - r.fallTs :=
  timeBetween_eq h

theorem gapFires_iff {s : State} {r : RxState} {t : Nat} (h : r.lastValid = true → r.lastTs ≤ t) :
    gapFires s r t = true ↔ r.lastValid = true ∧ s.cfg.rxGapTimeout < t - r.lastTs := by
  unfold gapFires
  cases hv : r.lastValid
  · simp
  · simp [timeBetween_eq (h hv)]

theorem drawnByRise_eq {r : RxState} {t : Nat} (hf : r.fallTs ≤ t) (hl : r.lastValid = true → r.lastTs ≤ t) :
    drawnByRise r t = 0 := if_pos ⟨hf, hl⟩

/-- An EDGE of an operand that has come is RX_FALL or RX_RISE at it. -/
theorem runEdge_eq {s : State} {p : Fin 16} {l : Bool} {ts : Nat} (h : ts ≤ s.now) :
    runEdge s p l ts = if l then rxRise s p ts else rxFall s p ts := by
  unfold runEdge runRise runFall
  rw [opTime_eq h, timed_eq h]

/-- An EDGE is RX_FALL or RX_RISE at a time not later than `now`, of the state with that time's free value drawn. -/
theorem runEdge_cases (s : State) (p : Fin 16) (l : Bool) (ts : Nat) : ∃ d tau, tau ≤ s.now ∧
    (runEdge s p l ts = rxFall { s with draws := d } p tau ∨ runEdge s p l ts = rxRise { s with draws := d } p tau) := by
  cases l
  · exact ⟨_, _, opTime_le s ts, .inl rfl⟩
  · exact ⟨_, _, opTime_le s ts, .inr rfl⟩

/-- An EDGE changes its receiver, the queue, the free values drawn and the answer, nothing else (R140). -/
theorem runEdge_frame (s : State) (p : Fin 16) (l : Bool) (ts : Nat) :
    let t := runEdge s p l ts
    t = { s with rx := t.rx, hitq := t.hitq, draws := t.draws, out := t.out } ∧ ∀ q, q ≠ p → t.rxAt q = s.rxAt q := by
  obtain ⟨d, tau, -, h | h⟩ := runEdge_cases s p l ts <;> dsimp only <;> rw [h]
  · exact ⟨rfl, fun q hq => setRx_rxAt_ne { s with draws := d } _ _ _ hq⟩
  · refine ⟨?_, fun q hq => rxRise_rxAt_ne { s with draws := d } _ _ _ hq⟩
    conv_lhs => rw [rxRise_frame]
    congr 1 <;> rw [rxRise_frame]

/-- EDGE_SYNC is the shift, and an EDGE where the two stages then differ (R130). -/
theorem runEdgeSync_eq (s : State) (p : Fin 16) (v : Bool) :
    let s' := s.setRx p (syncShift (s.rxAt p) v)
    runEdgeSync s p v = if (s.rxAt p).s1 = (s.rxAt p).s2 then s' else runEdge s' p (s.rxAt p).s1 s.now := rfl

/-- In RUN an operation of a present pin is its body on that receiver. -/
theorem onPin_present {s : State} {pin : BitVec 4} (h : s.runState = .run) (hp : pin.toNat < s.cfg.nRx)
    (f : State → Fin 16 → State) : onPin s pin f = .next (f s.clearOut (pinIndex pin)) := by
  rw [onPin_of_present (by simpa [pinPresent] using hp), whenRunning_run h]

/-- An absent pin's operation is refused. -/
theorem onPin_absent {s : State} {pin : BitVec 4} (hp : s.cfg.nRx ≤ pin.toNat) (f : State → Fin 16 → State) :
    onPin s pin f = .refused .pinAbsent := onPin_of_absent (by simpa [pinPresent] using hp) f

/-- Everything an operation of a receiver pin can do when it goes on. -/
theorem onPin_next {s t : State} {pin : BitVec 4} {f : State → Fin 16 → State} (h : onPin s pin f = .next t) :
    pin.toNat < s.cfg.nRx ∧
      ((s.runState = .run ∧ t = f s.clearOut (pinIndex pin)) ∨ (s.runState ≠ .run ∧ t = s.ignored)) := by
  rcases Nat.lt_or_ge pin.toNat s.cfg.nRx with hp | hp
  · rw [onPin_of_present (by simpa [pinPresent] using hp)] at h
    refine ⟨hp, (whenRunning_next h).imp_left fun hr => ⟨hr.1, ?_⟩⟩
    cases hr.2
    rfl
  · rw [onPin_absent hp] at h
    cases h

theorem exec_edge_run {s : State} {pin : BitVec 4} (h : s.runState = .run) (hp : pin.toNat < s.cfg.nRx) (l : Bool)
    (t : BitVec 64) : exec (.edge pin l t) s = .next (runEdge s.clearOut (pinIndex pin) l t.toNat) :=
  onPin_present h hp fun s p => runEdge s p l t.toNat

theorem exec_rxFall_run {s : State} {pin : BitVec 4} (h : s.runState = .run) (hp : pin.toNat < s.cfg.nRx) (t : BitVec 64) :
    exec (.rxFall pin t) s = .next (runFall s.clearOut (pinIndex pin) t.toNat) :=
  onPin_present h hp fun s p => runFall s p t.toNat

theorem exec_rxRise_run {s : State} {pin : BitVec 4} (h : s.runState = .run) (hp : pin.toNat < s.cfg.nRx) (t : BitVec 64) :
    exec (.rxRise pin t) s = .next (runRise s.clearOut (pinIndex pin) t.toNat) :=
  onPin_present h hp fun s p => runRise s p t.toNat

theorem exec_edgeSync_run {s : State} {pin : BitVec 4} (h : s.runState = .run) (hp : pin.toNat < s.cfg.nRx) (v : Bool) :
    exec (.edgeSync pin v) s = .next (runEdgeSync s.clearOut (pinIndex pin) v) :=
  onPin_present h hp fun s p => runEdgeSync s p v

theorem exec_hitPush_run {s : State} (h : s.runState = .run) (id : Byte) (t : BitVec 64) :
    exec (.hitPush id t) s = .next (hitPush (s.clearOut.timed t.toNat) id (opTime s t.toNat)) := by
  rw [exec_hitPush, execHitPush, whenRunning_run h]
  rfl

end Sys2Proof.Machine
end

