-- ==== Sys2Proof/Laws/Session.lean ====
section
/-! SUPPORT. The session sub-operations: what each can change, and what HIT_TAKE's loop does on a whole queue. -/

namespace Sys2Proof.Machine

theorem takeEvent_frame (s : State) (e : HitEvent) :
    takeEvent s e = { s with session := (takeEvent s e).session, out := (takeEvent s e).out } := by
  unfold takeEvent
  split <;> rfl

/-- HIT_TAKE's loop with enough turns empties the queue and changes the session and the answer, nothing else. -/
theorem drainHits_frame (n : Nat) (b : Bool) (s : State) (h : s.hitq.length ≤ n) :
    (drainHits n b s).2 = { s with
      hitq := [], session := (drainHits n b s).2.session, out := (drainHits n b s).2.out } := by
  induction n generalizing b s with
  | zero =>
    have : s.hitq = [] := List.length_eq_zero_iff.mp (by omega)
    simp [drainHits, ← this]
  | succ n ih =>
    unfold drainHits popHit
    split
    · rename_i hq
      split at hq
      · rename_i he; simp [← he]
      · cases hq
    · rename_i e s' hq
      split at hq
      · cases hq
      · rename_i e' q he
        cases hq
        have hf := takeEvent_frame { s with hitq := q } e
        rw [ih _ _ (by rw [hf]; simp [he] at h ⊢; omega), hf]

theorem hitTake_frame (s : State) :
    (hitTake s).2 = { s with hitq := [], session := (hitTake s).2.session, out := (hitTake s).2.out } :=
  drainHits_frame _ _ _ (Nat.le_refl _)

/-- One turn of the loop on a queue that is not empty. -/
theorem drainHits_cons (n : Nat) (b : Bool) (s : State) (e : HitEvent) (q : List HitEvent) (h : s.hitq = e :: q) :
    drainHits (n + 1) b s = drainHits n (b || takesHit { s with hitq := q } e) (takeEvent { s with hitq := q } e) := by
  simp [drainHits, popHit, h]

/-- The loop on a queue of events none of which is taken: all discarded (R182, R191). -/
theorem drainHits_discards (q : List HitEvent) (n : Nat) (b : Bool) (s : State) (hq : s.hitq = q) (hn : q.length ≤ n)
    (h : ∀ e ∈ q, (!s.session.hitActive && (s.selfhitEn || !e.self)) = false) :
    drainHits n b s = (b, { s with
      hitq := [], out := { s.out with codes := s.out.codes ++ List.replicate q.length .hitIgnored } }) := by
  induction q generalizing n b s with
  | nil =>
    cases s
    cases n <;> simp_all [drainHits, popHit]
  | cons e q ih =>
    cases n with
    | zero => simp at hn
    | succ n =>
      have he := h e (by simp)
      rw [drainHits_cons n b s e q hq]
      simp only [takesHit, takeEvent, he, Bool.or_false, Bool.false_eq_true, if_false]
      rw [ih n b (State.note { s with hitq := q } .hitIgnored) rfl (by simp at hn; omega) (fun x hx => h x (by simp [hx]))]
      simp [List.replicate_succ]

/-- The loop on a queue whose first event that passes the self-hit filter stands after `before` (R182). -/
theorem drainHits_takes (before after : List HitEvent) (e : HitEvent) (n : Nat) (b : Bool) (s : State)
    (hq : s.hitq = before ++ e :: after) (hn : s.hitq.length ≤ n) (ha : s.session.hitActive = false)
    (hb : ∀ x ∈ before, (s.selfhitEn || !x.self) = false) (he : (s.selfhitEn || !e.self) = true) :
    drainHits n b s = (true, { enterLockout s e with
      hitq := []
      out := { s.out with codes := s.out.codes ++ List.replicate (before.length + after.length) .hitIgnored } }) := by
  induction before generalizing n b s with
  | nil =>
    cases n with
    | zero => simp [hq] at hn
    | succ n =>
      rw [drainHits_cons n b s e after (by simpa using hq)]
      simp only [takesHit, takeEvent, he, ha, Bool.not_false, Bool.and_true, if_true, Bool.or_true]
      rw [drainHits_discards after n _ _ rfl (by simp [hq] at hn; omega) (fun x _ => rfl)]
      simp [enterLockout]
  | cons x before ih =>
    cases n with
    | zero => simp [hq] at hn
    | succ n =>
      have hx := hb x (by simp)
      rw [drainHits_cons n b s x (before ++ e :: after) (by simpa using hq)]
      simp only [takesHit, takeEvent, hx, Bool.and_false, Bool.or_false, Bool.false_eq_true, if_false]
      rw [ih n b (State.note { s with hitq := before ++ e :: after } .hitIgnored) rfl (by simp [hq] at hn ⊢; omega) ha
        (fun y hy => hb y (by simp [hy])) he]
      simp [enterLockout, List.replicate_succ, Nat.add_right_comm]

theorem hitExpire_frame (s : State) (el : Nat) (b : Bool) :
    hitExpire s el b = { s with
      session := (hitExpire s el b).session
      mailbox := { s.mailbox with tInput := (hitExpire s el b).mailbox.tInput } } := by
  unfold hitExpire
  split
  · dsimp only
    split <;> rfl
  · rfl

/-- The inactivity timestamp after HIT_EXPIRE is the old one or now (R183). -/
theorem hitExpire_tInput (s : State) (el : Nat) (b : Bool) :
    (hitExpire s el b).mailbox.tInput = s.mailbox.tInput ∨ (hitExpire s el b).mailbox.tInput = s.now := by
  unfold hitExpire
  split
  · dsimp only
    split
    · exact .inr rfl
    · exact .inl rfl
  · exact .inl rfl

theorem motorApply_frame (s : State) (halt : Bool) : motorApply s halt = { s with mot := (motorApply s halt).mot } := by
  unfold motorApply
  split <;> rfl

theorem txRequest_frame (s : State) (id : Byte) : (txRequest s id).2 = { s with tx := (txRequest s id).2.tx } := by
  unfold txRequest
  split
  · rfl
  · split <;> rfl

theorem fireDispatch_frame (s : State) :
    fireDispatch s = { s with flags := (fireDispatch s).flags, tx := (fireDispatch s).tx, out := (fireDispatch s).out } := by
  unfold fireDispatch txRequest
  dsimp only
  repeat' split
  all_goals first | rfl | skip
  all_goals (rename_i h; repeat' split at h)
  all_goals first | (cases h; rfl) | cases h

end Sys2Proof.Machine
end

