-- ==== Sys2Proof/Laws/Step.lean ====
section
/-! SUPPORT. What a step can be: the operation due first, or one turn of the arbiter; and what the arbiter's turn can do. -/

namespace Sys2Proof.Machine

/-- Everything a step that goes on can be. -/
theorem step_next {s t : State} (h : step s = .next t) :
    s.cfg.legal = true ∧
      ((∃ w rest i, s.agenda = w :: rest ∧ decode w = .ok i ∧ exec i { s with agenda := rest } = .next t) ∨
        (s.agenda = [] ∧ arbitrate s = .next t)) := by
  unfold step at h
  split at h
  · rename_i hl
    refine ⟨hl, ?_⟩
    unfold fetch at h
    cases ha : s.agenda with
    | nil => rw [ha] at h; exact .inr ⟨rfl, h⟩
    | cons w rest =>
      rw [ha] at h
      dsimp only [perform] at h
      cases hd : decode w with
      | error e => rw [hd] at h; cases h
      | ok i => rw [hd] at h; exact .inl ⟨w, rest, i, rfl, hd, h⟩
  · cases h

/-- An input that is not turned away is an operation from outside (R96). -/
theorem inputRefusal_none {w : TraceWord} (h : inputRefusal w = none) : ∃ i, decode w = .ok i ∧ isExternal i = true := by
  unfold inputRefusal at h
  cases hd : decode w with
  | error e => rw [hd] at h; cases h
  | ok i =>
    rw [hd] at h
    dsimp only at h
    split at h
    · exact ⟨i, rfl, ‹_›⟩
    · cases h

theorem firstRefusal_none {ws : List TraceWord} (h : firstRefusal ws = none) :
    ∀ w ∈ ws, ∃ i, decode w = .ok i ∧ isExternal i = true := by
  intro w hw
  exact inputRefusal_none (List.findSome?_eq_none_iff.mp h w hw)

theorem isResetWord_iff (w : TraceWord) : isResetWord w = true ↔ decode w = .ok .reset := by
  unfold isResetWord
  split
  · simp [*]
  · rename_i h
    simp only [Bool.false_eq_true, false_iff]
    exact h

/-- Insertion keeps a list's members. -/
theorem mem_insertDue {w x : TraceWord} {l : List TraceWord} : x ∈ insertDue w l ↔ x = w ∨ x ∈ l := by
  induction l with
  | nil => simp [insertDue]
  | cons y l ih =>
    unfold insertDue
    split
    · simp
    · simp only [List.mem_cons, ih]
      tauto

/-- Insertion keeps a list in the order of the places. -/
theorem insertDue_sorted (w : TraceWord) {l : List TraceWord} (h : l.Pairwise fun a b => wordPlace a ≤ wordPlace b) :
    (insertDue w l).Pairwise fun a b => wordPlace a ≤ wordPlace b := by
  induction l with
  | nil => simp [insertDue]
  | cons y l ih =>
    rw [List.pairwise_cons] at h
    unfold insertDue
    split
    · rename_i hlt
      refine List.pairwise_cons.mpr ⟨fun x hx => ?_, List.pairwise_cons.mpr h⟩
      rcases List.mem_cons.mp hx with rfl | hx
      · omega
      · have := h.1 x hx; omega
    · rename_i hge
      refine List.pairwise_cons.mpr ⟨fun x hx => ?_, ih h.2⟩
      rcases mem_insertDue.mp hx with rfl | hx
      · omega
      · exact h.1 x hx

theorem foldl_insertDue_mem (ws acc : List TraceWord) (x : TraceWord) :
    x ∈ ws.foldl (fun acc w => insertDue w acc) acc ↔ x ∈ ws ∨ x ∈ acc := by
  induction ws generalizing acc with
  | nil => simp
  | cons w ws ih =>
    simp only [List.foldl_cons, ih, mem_insertDue, List.mem_cons]
    tauto

theorem foldl_insertDue_sorted (ws acc : List TraceWord) (h : acc.Pairwise fun a b => wordPlace a ≤ wordPlace b) :
    (ws.foldl (fun acc w => insertDue w acc) acc).Pairwise fun a b => wordPlace a ≤ wordPlace b := by
  induction ws generalizing acc with
  | nil => exact h
  | cons w ws ih => exact ih _ (insertDue_sorted w h)

/-- What is lined up is what was gathered. -/
theorem mem_inDueOrder {ws : List TraceWord} {x : TraceWord} : x ∈ inDueOrder ws ↔ x ∈ ws := by
  simp [inDueOrder, foldl_insertDue_mem]

/-- What is lined up stands in the order of R207. -/
theorem inDueOrder_sorted (ws : List TraceWord) : (inDueOrder ws).Pairwise fun a b => wordPlace a ≤ wordPlace b :=
  foldl_insertDue_sorted ws [] List.Pairwise.nil

/-- The time moved to is not back, and not past a tick or a transmit deadline that is still to come. -/
theorem moveTo_bounds (s : State) :
    s.now ≤ moveTo s ∧ (∀ d, nextTickTime s = some d → moveTo s ≤ max s.now d) ∧
      (∀ d, nextTxTime s = some d → moveTo s ≤ max s.now d) := by
  unfold moveTo nextTime
  generalize nextInputTime s = a, nextTickTime s = b, nextTxTime s = c, nextSampleTime s = e
  cases a <;> cases b <;> cases c <;> cases e <;> simp [earlier] <;> omega

/-- What a turn of the arbiter that goes on can do: `now` moved, never back nor past a tick or a transmit deadline that is due, a
list of operations lined up, inputs taken; nothing else. -/
theorem arbitrate_next {s t : State} (h : arbitrate s = .next t) :
    t = { s with now := t.now, agenda := t.agenda, env := t.env, out := {} } ∧ s.now ≤ t.now ∧
      (s.runState = .reset → t.now = s.now) ∧ (s.runState ≠ .reset → t.now < timeLimit) ∧
      (∀ d, nextTickTime s = some d → t.now ≤ max s.now d) ∧ (∀ d, nextTxTime s = some d → t.now ≤ max s.now d) := by
  unfold arbitrate at h
  dsimp only at h
  split at h
  · rename_i hr
    have hr : s.runState = .reset := hr
    have hk : nextTickTime s = none := by simp [nextTickTime, hr]
    have hx : nextTxTime s = none := by simp [nextTxTime, hr]
    unfold arbitrateInReset at h
    split at h
    · cases h; simp [hr, hk, hx, clearOut_eq]
    · cases h; simp [hr, hk, hx, clearOut_eq]
    · split at h
      · cases h
      · cases h; simp [hr, hk, hx, clearOut_eq]
  · rename_i hr
    have hr : s.runState ≠ .reset := hr
    split at h
    · cases h
    split at h
    · cases h
    rename_i hlim
    have hT := moveTo_bounds s
    split at h
    · rename_i s' hs'
      unfold resetFirst at hs'
      split at hs'
      · split at hs'
        · cases hs'
          cases h
          exact ⟨rfl, hT.1, fun hc => absurd hc hr, fun _ => Nat.lt_of_not_le hlim, hT.2.1, hT.2.2⟩
        · cases hs'
      · cases hs'
    · unfold lineUp at h
      dsimp only at h
      split at h
      · cases h
      · cases h
        exact ⟨rfl, hT.1, fun hc => absurd hc hr, fun _ => Nat.lt_of_not_le hlim, hT.2.1, hT.2.2⟩

end Sys2Proof.Machine
end

