-- ==== Sys2Proof/Laws/Tick.lean ====
section
/-! SUPPORT. The tick: what it can change, and the fields its last sub-operations leave. -/

namespace Sys2Proof.Machine

/-- The tick up to STANDBY_UPDATE, with the stop condition. -/
def tickSession (s : State) : Bool × State :=
  let h := hitTake { s with tLastTick := s.now }
  let p := safetyStop (hitExpire h.2 (s.now - s.tLastTick) h.1)
  (p.1, standbyUpdate p.2)

/-- The tick is its session part, the motors, the fire dispatch (R201). -/
theorem tick_eq (s : State) :
    tick s = fireDispatch (motorApply (tickSession s).2 (haltMotors (tickSession s).2 (tickSession s).1)) := rfl

theorem tickSession_frame (s : State) :
    (tickSession s).2 = { s with
      tLastTick := s.now, hitq := []
      mailbox := { s.mailbox with tInput := (tickSession s).2.mailbox.tInput }
      session := (tickSession s).2.session, flags := (tickSession s).2.flags
      driveEnable := (tickSession s).2.driveEnable, out := (tickSession s).2.out } := by
  unfold tickSession
  dsimp only [safetyStop, standbyUpdate]
  rw [hitExpire_frame, hitTake_frame]

theorem tick_frame (s : State) :
    tick s = { s with
      tLastTick := s.now, hitq := []
      mailbox := { s.mailbox with tInput := (tick s).mailbox.tInput }
      session := (tick s).session, flags := (tick s).flags, tx := (tick s).tx, mot := (tick s).mot
      driveEnable := (tick s).driveEnable, out := (tick s).out } := by
  rw [tick_eq, fireDispatch_frame, motorApply_frame, tickSession_frame]

@[simp] theorem tick_session (s : State) : (tick s).session = (tickSession s).2.session := by
  rw [tick_eq, fireDispatch_frame, motorApply_frame]

@[simp] theorem tick_mailbox (s : State) : (tick s).mailbox = (tickSession s).2.mailbox := by
  rw [tick_eq, fireDispatch_frame, motorApply_frame]

@[simp] theorem tick_driveEnable (s : State) : (tick s).driveEnable = (tickSession s).2.driveEnable := by
  rw [tick_eq, fireDispatch_frame, motorApply_frame]

@[simp] theorem tick_mot (s : State) :
    (tick s).mot = (motorApply (tickSession s).2 (haltMotors (tickSession s).2 (tickSession s).1)).mot := by
  rw [tick_eq, fireDispatch_frame]

theorem tickSession_tInput (s : State) :
    (tickSession s).2.mailbox.tInput = s.mailbox.tInput ∨ (tickSession s).2.mailbox.tInput = s.now := by
  unfold tickSession
  dsimp only [safetyStop, standbyUpdate]
  rcases hitExpire_tInput (hitTake { s with tLastTick := s.now }).2 (s.now - s.tLastTick)
    (hitTake { s with tLastTick := s.now }).1 with h | h
  · left; rw [h, hitTake_frame]
  · right; rw [h, hitTake_frame]

/-- FIRE_DISPATCH leaves the safety-stop flag. -/
theorem fireDispatch_stopActive (s : State) : (fireDispatch s).flags.stopActive = s.flags.stopActive := by
  have h : ∀ (t : State) (id : Byte), (txRequest t id).2.flags = t.flags := fun t id => by rw [txRequest_frame]
  unfold fireDispatch
  dsimp only
  split
  · split
    · rfl
    · split <;> rename_i s' hs <;> have := congrArg (fun x => x.2.flags) hs <;> simp only [h] at this <;>
        simp [← this]
  · rfl

/-- After a tick the safety-stop flag is SAFETY_STOP's answer (R184). -/
theorem tick_stopActive (s : State) : (tick s).flags.stopActive = (tickSession s).1 := by
  rw [tick_eq, fireDispatch_stopActive, motorApply_frame]
  rfl

/-- The stop condition of a tick is that of the state before it: no earlier sub-operation touches the command (R184). -/
theorem tickSession_stop (s : State) : (tickSession s).1 = stopCondition s := by
  unfold tickSession
  dsimp only [safetyStop]
  rw [hitExpire_frame, hitTake_frame]
  rfl

/-- FIRE_DISPATCH's refusal flag (R202). -/
theorem fireDispatch_fireRefused (s : State) :
    (fireDispatch s).flags.fireRefused = (s.mailbox.valid && s.mailbox.cmd.fire && s.session.hitActive) := by
  have h : ∀ (t : State) (id : Byte), (txRequest t id).2.flags = t.flags := fun t id => by rw [txRequest_frame]
  unfold fireDispatch
  dsimp only
  split
  · rename_i hf
    split
    · rename_i ha; simp [hf, ha]
    · rename_i ha
      split <;> rename_i s' hs <;> have := congrArg (fun x => x.2.flags) hs <;> simp only [h] at this <;>
        simp [← this, ha]
  · rename_i hf; simp [Bool.eq_false_iff.mpr hf]

/-- Under the lockout FIRE_DISPATCH leaves the transmitter (R202). -/
theorem fireDispatch_tx_of_hit (s : State) (h : s.session.hitActive = true) : (fireDispatch s).tx = s.tx := by
  unfold fireDispatch
  simp only [h, if_true]
  split <;> rfl

theorem exec_tick_run {s : State} (h : s.runState = .run) : exec .tick s = .next (tick s.clearOut) := by
  rw [exec_tick, execTick, whenRunning_run h]

end Sys2Proof.Machine
end

