-- ==== Sys2Proof/Laws/Transmitter.lean ====
section
/-! SUPPORT. The transmitter: its three answers, its step and the frame of both (spec/40_ir_tx.md R111, R112). -/

namespace Sys2Proof.Machine

/-- A frame's duration at a position is ENCODE's (R110). -/
theorem encodeFrame_getElem (c : Params) (id : Byte) (i : Nat) (h : i < 10) :
    (encodeFrame c id)[i] = frameDuration c id ⟨i, h⟩ := by
  simp [encodeFrame]

/-- Everything TX_REQUEST can answer (R111). -/
theorem txRequest_cases (s : State) (id : Byte) :
    (s.session.hitActive = true ∧ txRequest s id = (.refuse, s)) ∨
      (s.session.hitActive = false ∧ s.tx.busy = true ∧ txRequest s id = (.drop, s)) ∨
      (s.session.hitActive = false ∧ s.tx.busy = false ∧ txRequest s id = (.ok, { s with tx :=
        { busy := true, id := id, idx := 0, phase := .burst, deadline := s.now + frameDuration s.cfg id 0,
          irEnv := true } })) := by
  unfold txRequest
  cases s.session.hitActive <;> cases s.tx.busy <;> simp

/-- TX_STEP changes the transmitter, nothing else. -/
theorem txStep_frame (s : State) : txStep s = { s with tx := (txStep s).tx } := by
  unfold txStep
  split
  · rfl
  · split <;> rfl

/-- The index after a symbol that is not the last. -/
theorem nextIdx_val (i : Fin 10) (h : i.val ≠ 9) : (nextIdx i).val = i.val + 1 := by
  unfold nextIdx
  split
  · rfl
  · omega

theorem exec_txStep_run {s : State} (h : s.runState = .run) (hb : s.tx.busy = true) :
    exec .txStep s = .next (txStep s.clearOut) := by
  rw [exec_txStep, execTxStep, whenRunning_run h]
  simp [hb]

end Sys2Proof.Machine
end

