-- ==== Sys2Proof/Tests/Slice0.lean ====
section
/-! SUPPORT. The model's own tests. Expected values are the spec's: the vectors of spec/95_test_vectors.md where a test names one (V-..., S...,
P...), else worked by hand from the rule a test names. The witnesses at the end meet the hypotheses of the statements. -/

namespace Sys2Proof.Tests

open Sys2Proof Sys2Proof.Machine

/-- One field of what an operation leaves; none where it stops. -/
def seen {α : Type} (a : Answer) (f : State → α) : Option α :=
  match a with
  | .next t => some (f t)
  | _ => none

/-- The state after RESET and a BOOT with `drv_ready` (part 3 of spec/95_test_vectors.md). -/
def booted : State := { State.reset with runState := .run, driveEnable := true }

/-- Disabled, 5 s left, hit by team 5 (V-FSM-4). -/
def disabled : State :=
  { booted with now := 40000, tLastTick := 20000, session := { hitActive := true, remaining := 5000000, hitBy := 5 } }

/-- Sending 0xA5 since 40000 (V-TX-7). -/
def sending : State :=
  { booted with now := 40000, tx := { busy := true, id := 0xA5, deadline := 42400, irEnv := true } }

/-- The last gap of that frame, its end at 62400. -/
def lastGap : State :=
  { booted with now := 62400, tx := { busy := true, id := 0xA5, idx := 9, phase := .gap, deadline := 62400 } }

/-- A command with fire held. -/
def firing : State :=
  { booted with now := 40000, tLastTick := 20000,
                mailbox := { cmd := { fire := true, teamId := 0xA5 }, valid := true, tCmd := 30000 } }

/-- Driving with the command of program P2. -/
def driving : State :=
  { booted with now := 20000,
                mailbox := { cmd := { vx := 8192, omega := 4096, speed := 16384, teamId := 7 }, valid := true, tCmd := 1000,
                             tInput := 1000 } }

/-- Standby since 10020000, a command with estop at 11000000 (V-FSM-13). -/
def standingBy : State :=
  { booted with now := 11000000, tLastTick := 10980000, driveEnable := false, session := { standby := true },
                mailbox := { cmd := { estop := true }, valid := true, tCmd := 11000000, tInput := 11000000 } }

/-- Two events queued, own identifier 7 (V-FSM-1 to V-FSM-3). -/
def queued (selfhit : Bool) : State :=
  { booted with now := 20000, ownId := 7, selfhitEn := selfhit, hitq := [⟨7, 1000, true⟩, ⟨9, 1010, false⟩] }

/-- Pin 0 with a burst open since 40000 (R134's example). -/
def open0 : State := { booted with now := 42400, rx := booted.rx.set 0 { fallValid := true, fallTs := 40000 } }

/-- Pin 0 with one burst of 2400 complete at 3400 and another open since `fall` (V-RX-6 to V-RX-8). -/
def partial0 (fall now : Nat) : State :=
  { booted with now := now
                rx := booted.rx.set 0
                  { fallValid := true, fallTs := fall, cnt := 1, buf := #v[2400, 0, 0, 0, 0, 0, 0, 0, 0, 0],
                    lastValid := true, lastTs := 3400 } }

/-- Pin 0 with nine bursts of the frame 0xA5 and the tenth open since 59200; position 3 holds `w3`. -/
def nine0 (w3 : Nat) : State :=
  { booted with now := 61600, ownId := 7
                rx := booted.rx.set 0
                  { fallValid := true, fallTs := 59200, cnt := 9,
                    buf := #v[2400, 1600, 800, w3, 800, 800, 1600, 800, 1600, 0], lastValid := true, lastTs := 58400 } }

/-- A sampled pin 0 that went low one sample ago (V-RX-14). -/
def sampledLow : State := { booted with now := 102, rx := booted.rx.set 0 { s1 := false } }

/-! ### WellFormed refuses each ill-formed term -/

theorem test_wf_edge_pin : WellFormed {} (.edge 2 true 0) = false := by decide
theorem test_wf_edgeSync_pin : WellFormed {} (.edgeSync 2 true) = false := by decide
theorem test_wf_rxFall_pin : WellFormed {} (.rxFall 2 0) = false := by decide
theorem test_wf_rxRise_pin : WellFormed {} (.rxRise 15 0) = false := by decide
theorem test_wf_mecanum_vx : WellFormed {} (.mecanum 16385 0 0 0) = false := by decide
theorem test_wf_mecanum_vy : WellFormed {} (.mecanum 0 (-16385) 0 0) = false := by decide
theorem test_wf_mecanum_omega : WellFormed {} (.mecanum 0 0 16385 0) = false := by decide
theorem test_wf_mecanum_speed : WellFormed {} (.mecanum 0 0 0 16385) = false := by decide
theorem test_wf_dutymap_above_one : WellFormed {} (.dutymap 4 2 .plus) = false := by decide
theorem test_wf_accepts : WellFormed {} (.edge 1 true 0) = true ∧ WellFormed {} (.mecanum (-16384) 16384 0 16384) = true ∧
    WellFormed {} (.dutymap (-3) 2 .minus) = true := by decide

/-! ### Decoding: a word of every constructor, its op byte from R96, its fields from the record's layout or log entry 4 -/

theorem test_decode_reset : decode ⟨.op, [0x00]⟩ = .ok .reset := by decide
-- R203's example word 0x07_00_4000_1000_0000_2000, bits 7..0 first.
theorem test_decode_cmdWrite : decode ⟨.op, [0x01, 0x00, 0x20, 0, 0, 0x00, 0x10, 0x00, 0x40, 0x00, 0x07]⟩ =
    .ok (.cmdWrite 0x07004000100000002000#80) := by decide
-- P1's record: reg 000, data 00000111.
theorem test_decode_cfgWrite : decode ⟨.op, [0x02, 0x07, 0x00]⟩ = .ok (.cfgWrite 0 7) := by decide
-- R91: ts in [63:0], level [64], pin [68:65]: pin 5, level 0, ts 40002 = 0x9c42.
theorem test_decode_edge : decode ⟨.op, [0x03, 0x42, 0x9c, 0, 0, 0, 0, 0, 0, 0x0a]⟩ = .ok (.edge 5 false 40002) := by decide
theorem test_decode_edge_reserved :
    decode ⟨.op, [0x03, 0, 0, 0, 0, 0, 0, 0, 0, 0x20]⟩ = .error .reservedBits := by decide
theorem test_decode_statusRead : decode ⟨.op, [0x04, 0x02]⟩ = .ok (.statusRead 2) := by decide
theorem test_decode_shutdown : decode ⟨.op, [0x05]⟩ = .ok .shutdown := by decide
theorem test_decode_tick : decode ⟨.op, [0x10]⟩ = .ok .tick := by decide
theorem test_decode_txRequest : decode ⟨.op, [0x11, 0xa5]⟩ = .ok (.txRequest 0xa5) := by decide
theorem test_decode_txStep : decode ⟨.op, [0x12]⟩ = .ok .txStep := by decide
theorem test_decode_edgeSync : decode ⟨.op, [0x13, 0x11]⟩ = .ok (.edgeSync 1 true) := by decide
theorem test_decode_boot : decode ⟨.op, [0x14, 0x01]⟩ = .ok (.boot true) := by decide
theorem test_decode_hitTake : decode ⟨.op, [0x20]⟩ = .ok .hitTake := by decide
theorem test_decode_hitExpire : decode ⟨.op, [0x21, 0x20, 0x4e, 0, 0, 0, 0, 0, 0, 0x01]⟩ = .ok (.hitExpire 20000 true) := by
  decide
theorem test_decode_safetyStop : decode ⟨.op, [0x22]⟩ = .ok .safetyStop := by decide
theorem test_decode_standbyUpdate : decode ⟨.op, [0x23]⟩ = .ok .standbyUpdate := by decide
theorem test_decode_motorApply : decode ⟨.op, [0x24, 0x01]⟩ = .ok (.motorApply true) := by decide
theorem test_decode_fireDispatch : decode ⟨.op, [0x25]⟩ = .ok .fireDispatch := by decide
theorem test_decode_hitPush : decode ⟨.op, [0x26, 0xa5, 0xa0, 0xf0, 0, 0, 0, 0, 0, 0]⟩ = .ok (.hitPush 0xa5 61600) := by decide
theorem test_decode_rxFall : decode ⟨.op, [0x27, 0x01, 0xc4, 0x09, 0, 0, 0, 0, 0, 0]⟩ = .ok (.rxFall 1 40000) := by decide
theorem test_decode_rxRise : decode ⟨.op, [0x28, 0x00, 0x5a, 0x0a, 0, 0, 0, 0, 0, 0]⟩ = .ok (.rxRise 0 42400) := by decide
theorem test_decode_encodeId : decode ⟨.op, [0x30, 0x5a]⟩ = .ok (.encodeId 0x5a) := by decide
theorem test_decode_classify : decode ⟨.op, [0x31, 0xe8, 0x03, 0, 0, 0, 0, 0, 0]⟩ = .ok (.classify 1000) := by decide
theorem test_decode_mecanum : decode ⟨.op, [0x33, 0x00, 0x20, 0x00, 0xc0, 0x00, 0x10, 0x00, 0x40]⟩ =
    .ok (.mecanum 8192 (-16384) 4096 16384) := by decide
theorem test_decode_dutymap : decode ⟨.op, [0x34, 0xff, 0xff, 0xff, 0xff, 0x03, 0, 0, 0, 0x01]⟩ =
    .ok (.dutymap (-1) 3 .minus) := by decide
theorem test_decode_meaningful : decode ⟨.op, [0x35, 0x34, 0x03, 0, 0, 0, 0, 0x00, 0x40, 0, 0]⟩ =
    .ok (.meaningful 0x00004000000000000334#80) := by decide
theorem test_decode_symNone : decode ⟨.symbol, [0b00]⟩ = .ok .symNone := by decide
theorem test_decode_symBit0 : decode ⟨.symbol, [0b01]⟩ = .ok .symBit0 := by decide
theorem test_decode_symBit1 : decode ⟨.symbol, [0b10]⟩ = .ok .symBit1 := by decide
theorem test_decode_symStartEnd : decode ⟨.symbol, [0b11]⟩ = .ok .symStartEnd := by decide
-- R83 for 0xA5 = 10100101: 11 10 01 10 01 01 10 01 10 11.
theorem test_decode_irFrame : decode ⟨.frame, [0b10011011, 0b01100101, 0b1110]⟩ = .ok (.irFrame 0b11100110010110011011) := by
  decide
theorem test_decode_cmdWord : decode ⟨.commandRecord, [0x01, 0x40, 0, 0, 0, 0, 0x00, 0x40, 0x02, 0xa5]⟩ =
    .ok (.cmdWord 0xa5024000000000004001#80) := by decide
theorem test_decode_cfgRecord : decode ⟨.configRecord, [0xfe, 0x01]⟩ = .ok (.cfgRecord 1 0xfe) := by decide
-- R94: dir_b [10], dir_a [9], full_on [8], duty [7:0].
theorem test_decode_motorRecord : decode ⟨.motorRecord, [0xff, 0b011]⟩ = .ok (.motorRecord false true true 255) := by decide
-- R92: at [63:0], team [71:64], self [72].
theorem test_decode_hitRecord : decode ⟨.hitRecord, [0x10, 0x27, 0, 0, 0, 0, 0, 0, 0x07, 0x01]⟩ =
    .ok (.hitRecord true 7 10000) := by decide
theorem test_decode_hitRecord_reserved :
    decode ⟨.hitRecord, [0, 0, 0, 0, 0, 0, 0, 0, 0, 0x02]⟩ = .error .reservedBits := by decide
theorem test_decode_unlisted : decode ⟨.op, [0x06]⟩ = .error (.unknownOperation 6) ∧ decode ⟨.op, []⟩ = .error .emptyWord := by
  decide
theorem test_decode_short : decode ⟨.op, [0x11]⟩ = .error .wrongLength := by decide

/-- Ten 64-bit widths, bits 7..0 first: 2400, 1600, 800, ... (V-TX-4). -/
def widthBytes : List Nat → List Byte
  | [] => []
  | w :: ws => [BitVec.ofNat 8 w, BitVec.ofNat 8 (w / 256), 0, 0, 0, 0, 0, 0] ++ widthBytes ws

theorem test_decode_decodeBuf :
    decode ⟨.op, 0x32 :: widthBytes [2400, 1600, 800, 1600, 800, 800, 1600, 800, 1600, 2400]⟩ =
      .ok (.decodeBuf #v[2400, 1600, 800, 1600, 800, 800, 1600, 800, 1600, 2400]) := by decide +kernel

theorem test_table_words : decodeTableWord 8 0x10 = some .tick ∧ decodeTableWord 88 (0x01 + 256 * 0x07004000100000002000) =
    some (.cmdWrite 0x07004000100000002000#80) ∧ decodeTableWord 2 3 = some .symStartEnd ∧ decodeTableWord 8 0x06 = none := by
  decide

/-! ### Infrared transmit -/

theorem test_encode_A5 : seen (exec (.encodeId 0xA5) booted) (·.out.result) =
    some (.durations #v[2400, 1600, 800, 1600, 800, 800, 1600, 800, 1600, 2400]) := by decide -- V-TX-4
theorem test_encode_01 : encodeFrame {} 0x01 = #v[2400, 800, 800, 800, 800, 800, 800, 800, 1600, 2400] := by decide -- V-TX-3
theorem test_txRequest : seen (exec (.txRequest 0xA5) { booted with now := 40000 }) (·.tx) = some sending.tx := by decide -- R111
theorem test_txRequest_refused_before_dropped :
    seen (exec (.txRequest 1) { sending with session := disabled.session }) (fun t => (t.out.outcome, t.tx)) =
      some (.refuse, sending.tx) := by decide -- V-TX-8
theorem test_txStep_burst_ends : seen (exec .txStep { sending with now := 42400 }) (fun t => (t.tx.irEnv, t.tx.deadline)) =
    some (false, 43200) := by decide -- R112
theorem test_txStep_releases : seen (exec .txStep lastGap) (·.tx.busy) = some false := by decide -- V-TX-7
theorem test_carrier_cycles : carrierCycles {} 2400 = 91 ∧ carrierCycles {} 1600 = 60 ∧ carrierCycles {} 800 = 30 := by
  decide -- R115
theorem test_carrier_starts_high : irTxAt sending 0 1 = true ∧ irTxAt sending 14 1 = false ∧ irTxAt lastGap 0 1 = false := by
  decide -- R114: half of 26.3 us high, then low

/-! ### Infrared receive -/

theorem test_classify_boundaries :
    ([0, 599, 600, 800, 1000, 1001, 1200, 1399, 1400, 1600, 1800, 1801, 2000, 2199, 2200, 2400, 2600, 2601, 100000].map
      (classify {})) =
    [.none, .none, .bit0, .bit0, .bit0, .none, .none, .none, .bit1, .bit1, .bit1, .none, .none, .none, .startEnd, .startEnd,
      .startEnd, .none, .none] := by decide -- 2.2
theorem test_exec_classify : seen (exec (.classify 1523) booted) (·.out.result) = some (.symbol .bit1) := by decide -- R137
theorem test_decode_window_edges :
    seen (exec (.decodeBuf #v[2200, 600, 1000, 1400, 1800, 600, 1800, 1000, 1400, 2600]) booted) (·.out.result) =
      some (.identifier (some 0x35)) := by decide -- V-RX-1
theorem test_decode_start_end_inside :
    decodeFrame {} #v[2400, 800, 1600, 800, 2400, 800, 1600, 800, 1600, 2400] = none := by decide -- V-RX-4
theorem test_edge_falls : seen (exec (.edge 0 false 40002) { booted with now := 40002 }) (fun t => (t.rxAt 0).fallTs) =
    some 40002 := by decide -- R132
theorem test_edge_rises : seen (exec (.edge 0 true 42400) open0) (fun t => ((t.rxAt 0).buf[0], (t.rxAt 0).cnt)) =
    some (2400, 1) := by decide -- R134
theorem test_rxFall_overwrites : seen (exec (.rxFall 0 42300) open0) (fun t => (t.rxAt 0).fallTs) = some 42300 := by
  decide -- R133
theorem test_rxRise_at_timeout : seen (exec (.rxRise 0 103400) (partial0 102600 103400))
    (fun t => ((t.rxAt 0).cnt, (t.rxAt 0).buf[1])) = some (2, 800) := by decide -- V-RX-6
theorem test_rxRise_past_timeout : seen (exec (.rxRise 0 103401) (partial0 102601 103401))
    (fun t => ((t.rxAt 0).cnt, (t.rxAt 0).buf[0])) = some (1, 800) := by decide -- V-RX-7
theorem test_rxRise_frame : seen (exec (.edge 0 true 61600) (nine0 1600)) (fun t => (t.hitq, (t.rxAt 0).cnt)) =
    some ([⟨0xA5, 61600, false⟩], 0) := by decide -- R139
theorem test_rxRise_bad_frame : seen (exec (.edge 0 true 61600) (nine0 1001)) (fun t => (t.hitq, (t.rxAt 0).cnt)) =
    some ([], 0) := by decide -- R138
theorem test_hitPush_full : seen (exec (.hitPush 9 5) { booted with now := 5, hitq := List.replicate 4 ⟨1, 1, false⟩ })
    (fun t => (t.hitq.length, t.out.codes)) = some (4, [.queueOverflow]) := by decide -- V-ERR-7
theorem test_hitPush_self : seen (exec (.hitPush 7 5) { booted with now := 5, ownId := 7 }) (·.hitq) =
    some [⟨7, 5, true⟩] := by decide -- V-RX-15
theorem test_edgeSync_fall : seen (exec (.edgeSync 0 false) sampledLow)
    (fun t => ((t.rxAt 0).fallValid, (t.rxAt 0).fallTs, (t.rxAt 0).prev)) = some (true, 102, true) := by decide -- V-RX-14
theorem test_edgeSync_first_sample : seen (exec (.edgeSync 0 false) { booted with now := 101 })
    (fun t => ((t.rxAt 0).fallValid, (t.rxAt 0).s1)) = some (false, false) := by decide -- V-RX-14

/-! ### Kinematics -/

/-- The four registers of a command, in the order FL, FR, RL, RR, each (dir_a, dir_b, full_on, duty). -/
def registers (c : Params) (vx vy om : BitVec 16) (sp : BitVec 16) : List (Bool × Bool × Bool × Byte) :=
  let m := driveMotors c { vx := vx, vy := vy, omega := om, speed := sp }
  [m.fl, m.fr, m.rl, m.rr].map fun x => (x.dirA, x.dirB, x.fullOn, x.duty)

theorem test_kin_all_axes : registers {} 16384 16384 16384 16384 =
    [(true, false, true, 255), (false, true, false, 136), (true, false, false, 136), (true, false, false, 136)] := by
  decide -- V-KIN-5
theorem test_kin_printed_rr : (registers { rrVxSign := .minus } 16384 0 0 16384)[3]? = some (false, true, true, 255) := by
  decide -- V-KIN-16
theorem test_kin_threshold : (registers {} 14751 1639 0 16384)[1]? = some (true, false, true, 255) ∧
    (registers {} 14750 1640 0 16384)[1]? = some (true, false, false, 219) := by decide -- V-KIN-18, V-KIN-19
theorem test_kin_zero_band : (registers {} 16384 0 0 16)[0]? = some (false, false, false, 0) ∧
    (registers {} 16384 0 0 17)[0]? = some (true, false, false, 76) := by decide -- V-KIN-13, V-KIN-14
theorem test_mecanum : seen (exec (.mecanum 8192 0 4096 8192) booted) (·.out.result) =
    some (.wheels ⟨⟨12288 * 8192, 16384 * 16384⟩, ⟨4096 * 8192, 16384 * 16384⟩, ⟨12288 * 8192, 16384 * 16384⟩,
      ⟨4096 * 8192, 16384 * 16384⟩⟩) := by decide -- V-KIN-7: (3/8, 1/8, 3/8, 1/8)
theorem test_dutymap_reverse : seen (exec (.dutymap (-1) 1 .plus) booted) (·.out.result) =
    some (.motor { dirB := true, duty := 165 }) := by decide -- V-KIN-23: -1/2
theorem test_dutymap_wiring_sign : seen (exec (.dutymap 1 3 .minus) booted) (·.out.result) =
    some (.motor { dirB := true, duty := 121 }) := by decide -- 2.3, SIGN[FR] = -1: 1/4
theorem test_motorApply : seen (exec (.motorApply false) driving) (fun t => (t.mot.fl.duty, t.mot.fr.duty)) =
    some (210, 121) := by decide -- R170
theorem test_motorApply_halt : seen (exec (.motorApply true) { driving with mot := ⟨{ dirA := true, duty := 99 }, {}, {}, {}⟩ })
    (·.mot) = some ⟨{}, {}, {}, {}⟩ := by decide -- R170
theorem test_enable_pin_off : enablePin { booted with driveEnable := false } { duty := 85, dirA := true } = .low ∧
    enablePin booted { fullOn := true, duty := 255 } = .high ∧ enablePin booted { duty := 85 } = .pwm 85 := by decide -- R173, R94

/-! ### Session -/

theorem test_hitTake_first : seen (exec .hitTake (queued true)) (fun t => (t.session.hitBy, t.session.hitSelf, t.hitq)) =
    some (7, true, []) := by decide -- V-FSM-3
theorem test_hitTake_self_masked : seen (exec .hitTake (queued false))
    (fun t => (t.session.hitBy, t.session.hitSelf, t.session.remaining)) = some (9, false, 10000000) := by decide -- V-FSM-2
theorem test_hitExpire_counts : seen (exec (.hitExpire 20000 false) disabled) (·.session.remaining) = some 4980000 := by
  decide -- V-FSM-4
theorem test_hitExpire_saturates :
    seen (exec (.hitExpire 20000 false) { disabled with session := { disabled.session with remaining := 15000 } })
      (fun t => (t.session, t.mailbox.tInput)) = some ({}, 40000) := by decide -- V-FSM-7
theorem test_safetyStop_at_limit : seen (exec .safetyStop { driving with now := 801000 }) (·.flags.stopActive) = some false := by
  decide -- R184
theorem test_safetyStop_past_limit : seen (exec .safetyStop { driving with now := 801001 }) (·.out.result) =
    some (.flag true) := by decide -- R184
theorem test_standbyUpdate_at_limit :
    seen (exec .standbyUpdate { booted with now := 10000000 }) (fun t => (t.session.standby, t.driveEnable)) =
      some (false, true) := by decide -- R185
theorem test_standbyUpdate_past_limit :
    seen (exec .standbyUpdate { booted with now := 10000001 }) (fun t => (t.session.standby, t.driveEnable)) =
      some (true, false) := by decide -- R185
theorem test_meaningful_deadband : aboveDeadband {} 819 = false ∧ aboveDeadband {} 820 = true ∧ aboveDeadband {} (-820) = true := by
  decide -- V-FSM-10
theorem test_meaningful_fire_only : seen (exec (.meaningful 0xa5024000000000000000#80) booted) (·.out.result) =
    some (.flag false) := by decide -- V-FSM-10

/-! ### The control loop -/

theorem test_tick_no_command : seen (exec .tick { booted with now := 20000 }) (fun t => readReg t 2) = some 0x0148 := by
  decide -- V-FSM-14
theorem test_tick_hit_in_expiry_tick :
    seen (exec .tick { disabled with hitq := [⟨9, 39000, false⟩], session := { disabled.session with remaining := 20000 } })
      (fun t => (sessionState t, t.hitq)) = some (.driving, []) := by decide -- V-FSM-6
theorem test_fireDispatch_fires : seen (exec .fireDispatch firing) (·.tx) = some sending.tx := by decide -- R202
theorem test_fireDispatch_drops : seen (exec .fireDispatch { firing with tx := sending.tx }) (fun t => (t.flags.fireDropped, t.tx)) =
    some (true, sending.tx) := by decide -- P1 at 60000
theorem test_cmdWrite : seen (exec (.cmdWrite 0x07004000100000002000#80) { booted with now := 1000 })
    (fun t => (t.mailbox.cmd, t.mailbox.tCmd, t.mailbox.tInput)) =
    some ({ vx := 8192, omega := 4096, speed := 16384, teamId := 7 }, 1000, 1000) := by decide -- R203
theorem test_cmdWrite_illegal : ([0x00004000000000004001#80, 0x0000400000000000bfff#80, 0x00004001000000000000#80,
    0x00044000000000000000#80].map fun w => seen (exec (.cmdWrite w) booted) (fun t => (t.out.outcome, t.mailbox.valid))) =
    List.replicate 4 (some (.discard, false)) := by decide -- V-ERR-1 to V-ERR-4
theorem test_cfgWrite_own_id : seen (exec (.cfgWrite 0 7) booted) (·.ownId) = some 7 := by decide -- V-LOOP-4
theorem test_cfgWrite_ctrl : seen (exec (.cfgWrite 1 0xFE) booted) (fun t => (t.selfhitEn, readReg t 1)) = some (false, 0) := by
  decide -- V-LOOP-5
theorem test_statusRead_flags : seen (exec (.statusRead 2) booted) (·.out.result) = some (.data 0x0140) := by decide -- V-LOOP-6
theorem test_statusRead_reserved : seen (exec (.statusRead 7) disabled) (·.out.result) = some (.data 0) := by decide -- V-LOOP-7
theorem test_shutdown : seen (exec .shutdown { sending with mailbox := firing.mailbox }) (fun t => (readReg t 2, t.tx.irEnv, t.tx.deadline)) =
    some (0x0280, false, 42400) := by decide -- P5
theorem test_shutdown_then_command : seen (exec .shutdown booted) (fun t => seen (exec (.cmdWrite 0) t) (·.mailbox.valid)) =
    some (some false) := by decide -- V-ERR-8
theorem test_boot_ready : seen (exec (.boot true) State.reset) (fun t => readReg t 2) = some 0x0140 := by decide -- V-LOOP-6
theorem test_boot_not_ready : seen (exec (.boot false) State.reset) (fun t => (readReg t 2, t.driveEnable)) =
    some (0x0300, false) := by decide -- V-ERR-6
theorem test_reset_from_halt : seen (exec .reset { disabled with runState := .halt, selfhitEn := false })
    (fun t => (t.runState, t.session.hitActive, t.selfhitEn)) = some (.reset, false, true) := by decide -- R260

/-! ### Symbols, frame, records -/

theorem test_symbol_rows :
    seen (exec .symNone booted) (·.out.result) = some (.symbolTimes .none none none) ∧
    seen (exec .symBit0 booted) (·.out.result) = some (.symbolTimes .bit0 (some 800) (some (600, 1000))) ∧
    seen (exec .symBit1 booted) (·.out.result) = some (.symbolTimes .bit1 (some 1600) (some (1400, 1800))) ∧
    seen (exec .symStartEnd booted) (·.out.result) = some (.symbolTimes .startEnd (some 2400) (some (2200, 2600))) := by
  decide -- R87
theorem test_irFrame : seen (exec (.irFrame 0b11100110010110011011) booted) (·.out.result) =
    some (.identifier (some 0xA5)) := by decide -- R83
theorem test_irFrame_bit_at_end : seen (exec (.irFrame 0b11100110010110011010) booted) (·.out.result) =
    some (.identifier none) := by decide -- R97 (b)
theorem test_cmdWord : seen (exec (.cmdWord 0x0000400000000000c000#80) booted) (·.out.result) =
    some (.command { vx := -16384, speed := 16384 } true) := by decide -- V-ERR-2
theorem test_cfgRecord : seen (exec (.cfgRecord 1 0xFE) booted) (·.out.result) = some (.config 1 0xFE) := by decide -- R100
theorem test_motorRecord : seen (exec (.motorRecord true false false 121) booted) (·.out.result) =
    some (.motor { dirB := true, duty := 121 }) := by decide -- R94
theorem test_hitRecord : seen (exec (.hitRecord false 0xA5 61600) booted) (·.out.result) =
    some (.hit ⟨0xA5, 61600, false⟩) := by decide -- R92

/-! ### The run -/

theorem test_shutdown_before_tick :
    seen (step { booted with now := 39000, tLastTick := 20000, env := { inputs := [.op 40000 (encode .shutdown)] } })
      (fun t => (t.now, t.agenda)) = some (40000, [encode .shutdown, encode .tick]) := by decide -- V-LOOP-3
theorem test_txStep_before_tick :
    seen (step { booted with now := 39200, tLastTick := 20000, tx := { lastGap.tx with id := 1, deadline := 40000 } })
      (fun t => (t.now, t.agenda)) = some (40000, [encode .txStep, encode .tick]) := by decide -- V-TX-6
theorem test_first_word_runs : seen (step (State.reset.withFetchWord 8 0x04)) (·.out.result) = some (.data 0) := by decide

/-! ### Witnesses: concrete states and operands that meet the hypotheses of each statement, clause by clause -/

/-- A state whose next operation is TICK. -/
def aboutToTick : State := { booted with now := 20000, agenda := [encode .tick] }

theorem booted_inv : Inv booted where
  clock := by decide
  heldInReset := by decide
  lastTick := by decide
  tickNotOverdue := by decide
  lastCommand := by decide
  lastInput := by decide
  command := by decide
  session := ⟨by decide, by decide, by decide, by decide⟩
  queueStamps := by decide
  queueBound := by simp [booted, State.reset, State.resetWith]
  receivers := by
    have h : ∀ p : Fin 16, booted.rxAt p = {} := by decide
    intro p
    rw [h p]
    exact ⟨by decide, by decide, by decide⟩
  absentReceivers := by decide
  transmitter := ⟨by decide, by decide, by decide, by decide⟩
  motors := ⟨stopped_ok _, stopped_ok _, stopped_ok _, stopped_ok _⟩
  safeOutsideRun := fun h => absurd rfl h

theorem witness_unlistedOp : ∀ op ∈ ([0x06, 0x0F, 0x15, 0x1F, 0x29, 0x2F, 0x36, 0xFF] : List Byte), op.toNat ∉
    [0x00, 0x01, 0x02, 0x03, 0x04, 0x05, 0x10, 0x11, 0x12, 0x13, 0x14, 0x20, 0x21, 0x22, 0x23, 0x24, 0x25, 0x26, 0x27, 0x28,
      0x30, 0x31, 0x32, 0x33, 0x34, 0x35] := by decide

theorem witness_stepPerforms : aboutToTick.cfg.legal = true ∧ aboutToTick.agenda = [encode .tick] ∧
    decode (encode .tick) = .ok .tick ∧ seen (step aboutToTick) (fun t => (t.tLastTick, t.agenda)) = some (20000, []) := by
  decide

/-- R8's constraints, each broken at its boundary, in the order of the statement. -/
def illegal : List Params :=
  [{ tBit1 := 800 }, { tStartEnd := 1600 }, { tBit1 := 1200 }, { tStartEnd := 2000 }, { tol := 800 }, { tickPeriod := 0 },
    { txGap := 0 }, { minDuty := ⟨1, 1⟩ }, { pureDc := ⟨0, 1⟩ }, { pureDc := ⟨5, 4⟩ }, { zeroEps := ⟨0, 1⟩ },
    { zeroEps := ⟨4, 5⟩ }, { deadband := ⟨0, 1⟩ }, { deadband := ⟨1, 1⟩ }, { hitqDepth := some 0 }, { nRx := 0 }, { nRx := 17 },
    { hitDisableTime := 2 ^ 32 }]

theorem witness_illegalConfigurations : ∀ c ∈ illegal,
    c.tBit1 ≤ c.tBit0 ∨ c.tStartEnd ≤ c.tBit1 ∨ c.tBit1 ≤ c.tBit0 + 2 * c.tol ∨ c.tStartEnd ≤ c.tBit1 + 2 * c.tol ∨
      c.tBit0 ≤ c.tol ∨ c.tickPeriod = 0 ∨ c.txGap = 0 ∨ c.minDuty.den ≤ c.minDuty.num ∨ c.pureDc.num = 0 ∨
      c.pureDc.den < c.pureDc.num ∨ c.zeroEps.num = 0 ∨
      c.pureDc.num * c.zeroEps.den ≤ c.zeroEps.num * c.pureDc.den ∨ c.deadband.num = 0 ∨ c.deadband.den ≤ c.deadband.num ∨
      c.hitqDepth = some 0 ∨ c.nRx = 0 ∨ 16 < c.nRx ∨ 2 ^ 32 ≤ c.hitDisableTime := by decide

theorem witness_legalConfigurations : ({} : Params).legal = true ∧ ({ nRx := 1 } : Params).legal = true ∧
    ({ nRx := 16 } : Params).legal = true ∧ ({ hitqDepth := none } : Params).legal = true ∧
    ({ hitqDepth := some 1, tol := 199 } : Params).legal = true := by decide

theorem witness_runStates : State.reset.runState = .reset ∧ State.reset.tLastTick = 0 ∧ booted.runState = .run ∧
    ({ booted with runState := .halt } : State).runState ≠ .run ∧ ({ booted with runState := .fatal } : State).runState ≠ .reset ∧
    needsRun .tick = true ∧ needsRun .shutdown = true ∧ pinMissing booted.cfg .tick = false ∧
    pinMissing booted.cfg (.edge 1 true 0) = false ∧ pinMissing booted.cfg (.edge 2 true 0) = true := by decide

theorem witness_onlyResetLeaves :
    seen (exec .tick { booted with runState := .halt }) (·.runState) = some .halt ∧
    seen (exec (.boot true) State.reset) (·.runState) = some .run ∧
    seen (exec .shutdown booted) (·.runState) = some .halt ∧
    seen (exec .reset { booted with runState := .halt }) (·.runState) = some .reset := by decide

theorem witness_registers : 8 * 2 = regWidth 2 ∧ 8 * 8 = regWidth 6 ∧ 8 * 1 ≠ regWidth 2 ∧ 8 * 0 = regWidth 7 ∧
    booted.session.remaining < 2 ^ 32 ∧ booted.session.hitAt < 2 ^ 64 ∧ booted.now < 2 ^ 64 ∧ (7 : Byte).toNat = 7 := by decide

theorem witness_configWrite : booted.runState = .run ∧ (0 : BitVec 3).toNat = 0 ∧ (1 : BitVec 3).toNat = 1 ∧
    2 ≤ (2 : BitVec 3).toNat ∧ (7 : BitVec 3).toNat = 7 ∧ State.reset.runState ≠ .run := by decide

theorem witness_commandWords : (0x00044000000000000000#80).getLsbD 66 = true ∧ (0x00800000000000000000#80).getLsbD 71 = true ∧
    commandLegal 0x0003400040004000c000#80 = true ∧ commandLegal 0x00004000000000004001#80 = false ∧
    0 < booted.cfg.deadband.den := by decide

theorem witness_txRequest : (disabled.runState = .run ∧ disabled.session.hitActive = true) ∧
    (sending.runState = .run ∧ sending.session.hitActive = false ∧ sending.tx.busy = true) ∧
    (booted.runState = .run ∧ booted.session.hitActive = false ∧ booted.tx.busy = false) := by decide

theorem witness_txStep : (booted.runState = .run ∧ booted.tx.busy = false) ∧
    (sending.runState = .run ∧ sending.tx.busy = true ∧ sending.tx.phase = .burst) ∧
    (lastGap.runState = .run ∧ lastGap.tx.busy = true ∧ lastGap.tx.phase = .gap ∧ lastGap.tx.idx = 9) ∧
    (({ lastGap with tx := { lastGap.tx with idx := 8 } } : State).tx.phase = .gap ∧ (9 : Fin 10).val = (8 : Fin 10).val + 1) := by
  decide

theorem witness_fallingEdge : booted.runState = .run ∧ (1 : BitVec 4).toNat < booted.cfg.nRx ∧ (0 : BitVec 64).toNat ≤ booted.now ∧
    seen (exec (.edge 0 false 5) booted) (fun t => ((t.rxAt 0).fallValid, t.draws)) = some (true, 1) := by decide

theorem witness_risingEdge :
    (open0.cfg.legal = true ∧ open0.runState = .run ∧ (0 : BitVec 4).toNat < open0.cfg.nRx ∧ (42400 : BitVec 64).toNat ≤ open0.now ∧
      (open0.rxAt 0).fallTs ≤ 42400 ∧ (open0.rxAt 0).fallValid = true ∧ (open0.rxAt 0).lastValid = false) ∧
    (booted.rxAt 0).fallValid = false ∧
    (((partial0 102601 103401).rxAt 0).lastValid = true ∧ 100000 < 103401 - ((partial0 102601 103401).rxAt 0).lastTs) ∧
    (¬ 100000 < 103400 - ((partial0 102600 103400).rxAt 0).lastTs ∧
      (2 : Fin 10).val = ((partial0 102600 103400).rxAt 0).cnt.val + 1) ∧
    (((nine0 1600).rxAt 0).cnt = 9 ∧ decodeFrame {} (((nine0 1600).rxAt 0).buf.set 9 2400) = some 0xA5 ∧ (nine0 1600).hitq = []) ∧
    (((nine0 1001).rxAt 0).cnt = 9 ∧ decodeFrame {} (((nine0 1001).rxAt 0).buf.set 9 2400) = none) ∧
    (seen (exec (.edge 0 true 61600) { nine0 1600 with hitq := List.replicate 4 ⟨1, 0, false⟩ }) (·.hitq.length) = some 4) ∧
    seen (exec (.rxRise 0 39999) open0) (fun t => ((t.rxAt 0).cnt, (t.rxAt 0).lastTs, t.draws)) = some (1, 39999, 2) := by decide

theorem witness_hitPush : booted.runState = .run ∧ (0 : BitVec 64).toNat ≤ booted.now ∧
    (queueHasRoom booted.cfg (List.replicate 3 ⟨1, 0, false⟩) = true) ∧
    (booted.cfg.hitqDepth = some 4 ∧ 4 ≤ (List.replicate 4 (⟨1, 0, false⟩ : HitEvent)).length) ∧
    seen (exec (.hitPush 9 1) booted) (fun t => (t.hitq.map (·.team), t.draws)) = some ([9], 1) := by decide

theorem witness_receiverOperands : booted.runState = .run ∧ (1 : BitVec 4).toNat < booted.cfg.nRx ∧
    booted.cfg.nRx ≤ (2 : BitVec 4).toNat ∧ State.reset.runState ≠ .run := by decide

theorem witness_edgeSync : (booted.runState = .run ∧ (0 : BitVec 4).toNat < booted.cfg.nRx ∧ booted.now < 2 ^ 64 ∧
    (booted.rxAt 0).s1 = (booted.rxAt 0).s2) ∧ (sampledLow.rxAt 0).s1 ≠ (sampledLow.rxAt 0).s2 := by decide

theorem witness_outputs : booted.driveEnable = true ∧ State.reset.driveEnable = false ∧ lastGap.tx.irEnv = false ∧
    sending.cfg.legal = true ∧ sending.tx.irEnv = true ∧ 0 < 1 := by decide

theorem witness_frameAtPin : booted.cfg.legal = true ∧ Inv booted ∧ booted.runState = .run ∧ (1 : BitVec 4).toNat < booted.cfg.nRx ∧
    (booted.rxAt (pinIndex 1)).cnt = 0 ∧ booted.now ≤ 1000 ∧ queueHasRoom booted.cfg booted.hitq = true ∧
    booted.cfg.txGap + booted.cfg.tStartEnd ≤ booted.cfg.rxGapTimeout ∧
    1000 + (encodeFrame booted.cfg 255).toList.sum + 9 * booted.cfg.txGap < 2 ^ 64 :=
  ⟨by decide, booted_inv, by decide⟩

theorem witness_wheels : (16384 : Nat) ≤ 16384 ∧ ({} : Params).rrVxSign = .plus ∧ 0 < (⟨1, 1000⟩ : Frac).den := by decide

theorem witness_hitTake :
    ((queued false).runState = .run ∧ (queued false).session.hitActive = false ∧
      (queued false).hitq = [⟨7, 1000, true⟩] ++ ⟨9, 1010, false⟩ :: [] ∧
      (∀ x ∈ ([⟨7, 1000, true⟩] : List HitEvent), (queued false).selfhitEn = false ∧ x.self = true)) ∧
    (disabled.runState = .run ∧ disabled.session.hitActive = true) ∧
    (∀ x ∈ ({ queued false with hitq := [⟨7, 1000, true⟩] } : State).hitq, (queued false).selfhitEn = false ∧ x.self = true) ∧
    ((1 : Nat) ≤ 1 ∧ (queued true).runState = .run ∧ (queued true).selfhitEn = true ∧ (queued true).hitq.length ≤ 2) := by decide

theorem witness_hitExpire : disabled.session.hitActive = true ∧ (4999999 : BitVec 64).toNat < disabled.session.remaining ∧
    disabled.session.remaining ≤ (5000000 : BitVec 64).toNat ∧ booted.session.hitActive = false := by decide

theorem witness_standby : booted.session.hitActive = false ∧ disabled.session.hitActive = true ∧
    booted.cfg.standbyTimeout < ({ booted with now := 10000001 } : State).now - booted.mailbox.tInput := by decide

theorem witness_fireDispatch : (booted.runState = .run ∧ booted.mailbox.valid = false) ∧
    (firing.runState = .run ∧ firing.mailbox.valid = true ∧ firing.mailbox.cmd.fire = true ∧ firing.session.hitActive = false ∧
      firing.tx.busy = false) ∧
    ({ firing with tx := sending.tx } : State).tx.busy = true ∧
    ({ firing with session := disabled.session } : State).session.hitActive = true := by decide

theorem witness_tick : (driving.runState = .run ∧ driving.now < 2 ^ 64) ∧
    seen (exec .tick driving) (fun t => (t.session.hitActive, t.session.standby, t.flags.stopActive)) =
      some (false, false, false) ∧
    seen (exec .tick standingBy) (fun t => (t.session.standby, t.flags.stopActive, t.driveEnable)) = some (false, true, true) ∧
    seen (exec .tick (queued true)) (fun t => t.session.hitActive) = some true := by decide

theorem witness_hitDisables : (queued true).runState = .run ∧ (queued true).session.hitActive = false ∧
    (queued true).hitq = ⟨7, 1000, true⟩ :: [⟨9, 1010, false⟩] ∧ (queued true).selfhitEn = true := by decide

theorem witness_lockout : disabled.runState = .run ∧ disabled.session.hitActive = true ∧ 0 < disabled.cfg.tickPeriod ∧
    disabled.session.remaining = 250 * disabled.cfg.tickPeriod ∧
    ({ disabled with session := { disabled.session with remaining := 20000 } } : State).session.remaining =
      1 * disabled.cfg.tickPeriod := by decide

theorem witness_hitRecord : (⟨0xA5, 2 ^ 64 - 1, false⟩ : HitEvent).receivedAt < 2 ^ 64 := by decide

theorem witness_singleWriter : seen (exec (.rxFall 1 0) booted) (fun t => ((t.rxAt 1).fallValid, t.rxAt 0 = booted.rxAt 0)) =
    some (true, ({} : RxState) = {}) ∧ (Instr.rxFall 1 0 ≠ .reset) := ⟨rfl, by decide⟩

/-- A command, a pin change and a shutdown to come (R208). -/
def arriving : State :=
  { booted with env := { sampling := true, inputs :=
      [.op 1 (encode (.cmdWrite 0)), .pin 1 1 false, .op 9 (encode .shutdown)] } }

theorem witness_lineUp :
    (arriving.cfg.legal = true ∧ arriving.agenda = [] ∧ arriving.runState = .run ∧ arriving.env.inputs =
      [.op 1 (encode (.cmdWrite 0)), .pin 1 1 false] ++ [.op 9 (encode .shutdown)] ∧ arriving.now ≤ 1 ∧
      1 ≤ arriving.tLastTick + arriving.cfg.tickPeriod ∧ 1 ≤ arriving.now + 1 ∧ isExternal (.cmdWrite 0) = true) ∧
    seen (step arriving) (·.agenda) =
      some [encode (.edgeSync 0 true), encode (.edgeSync 1 false), encode (.cmdWrite 0)] ∧
    seen (step { booted with env := { inputs := [.op 5 (encode .reset), .op 5 (encode .shutdown)] } }) (fun t => (t.now, t.agenda)) =
      some (5, [encode .reset]) ∧
    seen (step { booted with env := { inputs := [.op 5 (encode .shutdown), .op 5 (encode .reset)] } })
      (fun t => (t.now, t.agenda, t.env.inputs)) = some (5, [encode .shutdown], [.op 5 (encode .reset)]) ∧
    seen (step { State.reset with env := { inputs := [.pin 0 1 false] } }) (·.env.pins[1]) = some false ∧
    seen (step State.reset) (·.now) = some 0 := by decide

theorem witness_schedule : booted.cfg.legal = true ∧ booted.runState = .run ∧ booted.agenda = [] ∧ booted.env.inputs = [] ∧
    booted.env.sampling = false ∧ booted.now ≤ booted.tLastTick + booted.cfg.tickPeriod ∧
    booted.tLastTick + booted.cfg.tickPeriod < 2 ^ 64 ∧ booted.tx.busy = false ∧
    (∀ d ∈ [2400, 20000, 20001], ({ booted with tx := { sending.tx with deadline := d } } : State).tx.busy = true) ∧
    ({ booted with env := { sampling := true } } : State).env.sampling = true ∧
    booted.now + 1 < booted.tLastTick + booted.cfg.tickPeriod ∧ booted.now + 1 < 2 ^ 64 := by decide

theorem witness_arbiterOrder : State.reset.agenda = [] ∧
    seen (step { State.reset with env := { inputs := [.op 0 (encode (.boot true))] } }) (·.agenda) = some [encode (.boot true)] ∧
    seen (step booted) (fun t => (t.now, t.agenda)) = some (20000, [encode .tick]) := by decide

/-- Why a step is refused. -/
def refusalOf (a : Answer) : Option Refusal :=
  match a with
  | .refused r => some r
  | _ => none

theorem witness_arbiterRefusals :
    (driving.cfg.legal = true ∧ driving.agenda = [] ∧ driving.runState ≠ .reset) ∧
    refusalOf (step { driving with env := { inputs := [.op 19999 (encode .shutdown)] } }) = some .inputOutOfOrder ∧
    refusalOf (step { driving with env := { inputs := [.op 20000 (encode .tick)] } }) = some .notAnInput ∧
    refusalOf (step { driving with env := { inputs := [.op 20000 ⟨.op, [0x06]⟩] } }) =
      some (.undecodable (.unknownOperation 6)) ∧
    refusalOf (step { driving with now := 2 ^ 64 - 1, tLastTick := 2 ^ 64 - 20000 }) = some .timeBaseExhausted ∧
    refusalOf (step { driving with runState := .halt, env := { inputs := [.op (2 ^ 64) (encode .shutdown)] } }) =
      some .timeBaseExhausted ∧
    refusalOf (step { driving with runState := .halt, now := 2 ^ 64 - 1 }) = some .timeBaseExhausted := by decide

theorem witness_invariant : Inv booted ∧ EnableFollowsLatch booted ∧
    seen (step booted) (fun t => (t.now, t.agenda)) = some (20000, [encode .tick]) ∧ booted.now < timeLimit :=
  ⟨booted_inv, ⟨by simp [booted, State.reset, State.resetWith], by decide, by decide⟩, by decide, by decide⟩

end Sys2Proof.Tests
end

section
/-! Family 00_scope: the configurations of spec/00_scope.md R8. -/

namespace Sys2Proof.Machine

/-- A machine takes no step, whatever is due, in a configuration that is not legal. -/
theorem step_of_not_legal {s : State} (h : ¬ s.cfg.legal = true) : step s = .refused .illegalConfig := if_neg h

/-- Settles O5: each disjunct denies one of the constraints that a legal configuration satisfies. -/
theorem illegalConfigurationRefused : Obligations.IllegalConfigurationRefused := by
  intro s hbreak
  refine step_of_not_legal fun hlegal => ?_
  obtain ⟨hwindows, hdurations, hfractions, hsizes, -, -⟩ := s.cfg.legal_iff.mp hlegal
  obtain ⟨hbit, hstart, hbitApart, hstartApart⟩ := s.cfg.windowsApart_iff.mp hwindows
  obtain ⟨htol, htick, hgap⟩ := s.cfg.durationsLast_iff.mp hdurations
  obtain ⟨-, hminDuty, -, hdcPos, hdcOne, -, hepsPos, hepsDc, -, hbandPos, hbandOne⟩ :=
    s.cfg.fractionsInRange_iff.mp hfractions
  obtain ⟨hdepth, hrxPos, hrxMax, hdisable⟩ := s.cfg.sizesInRange_iff.mp hsizes
  rcases hbreak with h | h | h | h | h | h | h | h | h | h | h | h | h | h | h | h | h | h
  -- R8 (a): the order and the distance of the windows
  · exact hbit.not_ge h
  · exact hstart.not_ge h
  · exact hbitApart.not_ge h
  · exact hstartApart.not_ge h
  -- R8 (b), (c): the durations
  · exact htol.not_ge h
  · exact Nat.ne_of_gt htick h
  · exact Nat.ne_of_gt hgap h
  -- R8 (d): the fractions
  · exact hminDuty.not_ge h
  · exact Nat.ne_of_gt hdcPos h
  · exact hdcOne.not_gt h
  · exact Nat.ne_of_gt hepsPos h
  · exact hepsDc.not_ge h
  · exact Nat.ne_of_gt hbandPos h
  · exact hbandOne.not_ge h
  -- R8 (e), (f): the queue, the receivers and the lockout
  · exact Nat.not_succ_le_zero 0 (hdepth 0 h)
  · exact Nat.ne_of_gt hrxPos h
  · exact hrxMax.not_gt h
  · exact hdisable.not_ge h

end Sys2Proof.Machine
end

section
/-! Family 10_state (spec/10_state.md): what an instruction can do and what it leaves unchanged, the invariants of R43 under every
step, and the reset state, the numbered registers and the outputs. -/

namespace Sys2Proof.Machine

/-! ### The shape of an instruction's answer -/

/-- RESET and BOOT apart, an instruction that does not need RUN only answers. -/
theorem exec_answers {i : Instr} (s : State) (hn : needsRun i = false) (hr : i ≠ .reset) (hb : ∀ r, i ≠ .boot r) :
    ∃ r, exec i s = .next (s.clearOut.withResult r) := by
  cases i with
  | reset => exact absurd rfl hr
  | boot r => exact absurd rfl (hb r)
  | statusRead | encodeId | classify | decodeBuf | mecanum | dutymap | meaningful | symNone | symBit0 | symBit1
  | symStartEnd | irFrame | cmdWord | cfgRecord | motorRecord | hitRecord => exact ⟨_, rfl⟩
  | _ => exact absurd hn.symm Bool.false_ne_true

/-- The state an operation of the running block makes in RUN, up to what it answers; every other instruction leaves the
state. -/
def runBody : Instr → State → State
  | .cmdWrite word, s => if commandLegal word then acceptCommand s (commandOf word) else s
  | .cfgWrite reg data, s => configWrite s reg.toNat data
  | .edge pin level ts, s => runEdge s (pinIndex pin) level ts.toNat
  | .shutdown, s => shutdown s
  | .tick, s => tick s
  | .txRequest id, s => (txRequest s id).2
  | .txStep, s => if s.tx.busy then txStep s else s
  | .edgeSync pin v, s => runEdgeSync s (pinIndex pin) v
  | .hitTake, s => (hitTake s).2
  | .hitExpire elapsed entered, s => hitExpire s elapsed.toNat entered
  | .safetyStop, s => (safetyStop s).2
  | .standbyUpdate, s => standbyUpdate s
  | .motorApply halt, s => motorApply s halt
  | .fireDispatch, s => fireDispatch s
  | .hitPush id t, s => hitPush (s.timed t.toNat) id (opTime s t.toNat)
  | .rxFall p t, s => runFall s (pinIndex p) t.toNat
  | .rxRise p t, s => runRise s (pinIndex p) t.toNat
  | _, s => s

theorem runBody_cmdWrite (w : BitVec 80) (s : State) :
    runBody (.cmdWrite w) s = if commandLegal w then acceptCommand s (commandOf w) else s := rfl

/-- A pin that is not missing is below N_RX (R97 (g)). -/
theorem pinPresent_of_not_missing {c : Params} {pin : BitVec 4} (h : (!pinPresent c pin) = false) : pin.toNat < c.nRx := by
  simpa [pinPresent] using h

/-- In RUN an operation of the running block is its body, and an answer. -/
theorem exec_run {i : Instr} {s : State} (hrun : s.runState = .run) (hn : needsRun i = true)
    (hp : pinMissing s.cfg i = false) : ∃ o, exec i s = .next { runBody i s.clearOut with out := o } := by
  cases i with
  | cmdWrite w =>
    rw [exec_cmdWrite, execCmdWrite, whenRunning_run hrun, runBody_cmdWrite]
    by_cases hl : commandLegal w = true
    · exact ⟨_, by rw [if_pos hl, if_pos hl]; rfl⟩
    · exact ⟨_, by rw [if_neg hl, if_neg hl]; rfl⟩
  | txRequest id =>
    rw [exec_txRequest, execTxRequest, whenRunning_run hrun]
    change ∃ o, _ = Host.Outcome.next { (txRequest s.clearOut id).2 with out := o }
    rcases txRequest_cases s.clearOut id with ⟨-, hx⟩ | ⟨-, -, hx⟩ | ⟨-, -, hx⟩ <;> rw [hx] <;> exact ⟨_, rfl⟩
  | fireDispatch =>
    rw [exec_fireDispatch, execFireDispatch, whenRunning_run hrun]
    by_cases hf : (fireDispatch s.clearOut).flags.fireRefused = true
    · exact ⟨_, congrArg _ (if_pos hf)⟩
    · exact ⟨_, congrArg _ (if_neg hf)⟩
  | edge pin l ts => exact ⟨_, exec_edge_run hrun (pinPresent_of_not_missing hp) l ts⟩
  | edgeSync pin v => exact ⟨_, exec_edgeSync_run hrun (pinPresent_of_not_missing hp) v⟩
  | rxFall pin ts => exact ⟨_, exec_rxFall_run hrun (pinPresent_of_not_missing hp) ts⟩
  | rxRise pin ts => exact ⟨_, exec_rxRise_run hrun (pinPresent_of_not_missing hp) ts⟩
  | hitPush id ts => exact ⟨_, exec_hitPush_run hrun id ts⟩
  | tick => exact ⟨_, exec_tick_run hrun⟩
  | cfgWrite reg data => exact ⟨_, memWrite_run hrun reg.toNat 1 data⟩
  | shutdown => exact ⟨_, whenRunning_run hrun fun s => .next (shutdown s)⟩
  | txStep => exact ⟨_, whenRunning_run hrun fun s => .next (if s.tx.busy then txStep s else s)⟩
  | hitTake => exact ⟨_, whenRunning_run hrun fun s => .next ((hitTake s).2.withResult (.flag (hitTake s).1))⟩
  | hitExpire el b => exact ⟨_, whenRunning_run hrun fun s => .next (hitExpire s el.toNat b)⟩
  | safetyStop => exact ⟨_, whenRunning_run hrun fun s => .next ((safetyStop s).2.withResult (.flag (safetyStop s).1))⟩
  | standbyUpdate => exact ⟨_, whenRunning_run hrun fun s => .next (standbyUpdate s)⟩
  | motorApply halt => exact ⟨_, whenRunning_run hrun fun s => .next (motorApply s halt)⟩
  | _ => exact absurd hn Bool.false_ne_true

/-- Everything an instruction that goes on can be: RESET, BOOT, an answer alone, or the body of an operation in RUN. -/
theorem exec_next {i : Instr} {s t : State} (h : exec i s = .next t) :
    i = .reset ∨ (∃ r, i = .boot r) ∨ (∃ o, t = { s with out := o }) ∨
      (s.runState = .run ∧ pinMissing s.cfg i = false ∧ ∃ o, t = { runBody i s.clearOut with out := o }) := by
  by_cases hr : i = .reset
  · exact .inl hr
  by_cases hb : ∃ r, i = .boot r
  · exact .inr (.inl hb)
  refine .inr (.inr ?_)
  have hp : pinMissing s.cfg i = false := by
    by_contra hp
    cases (exec_pinMissing (Bool.not_eq_false _ ▸ hp)).symm.trans h
  cases hn : needsRun i
  · obtain ⟨r, hx⟩ := exec_answers s hn hr fun r hi => hb ⟨r, hi⟩
    cases hx.symm.trans h
    exact .inl ⟨_, rfl⟩
  by_cases hrun : s.runState = .run
  · obtain ⟨o, hx⟩ := exec_run hrun hn hp
    cases hx.symm.trans h
    exact .inr ⟨hrun, hp, o, rfl⟩
  · cases (exec_needsRun hrun hp hn).symm.trans h
    exact .inl ⟨_, rfl⟩

/-- Everything BOOT can do (R262). -/
theorem execBoot_next {r : Bool} {s t : State} (h : execBoot r s = .next t) :
    (s.runState ≠ .reset ∧ t = s.ignored) ∨
      (s.runState = .reset ∧ r = true ∧ t = { s.clearOut with runState := .run, driveEnable := true }) ∨
      (s.runState = .reset ∧ r = false ∧
        t = { s with runState := .fatal, out := { outcome := .fatal, codes := [.driverNotReady] } }) := by
  unfold execBoot at h
  split at h
  · next hr =>
    cases r <;> cases h
    · exact .inr (.inr ⟨hr, rfl, rfl⟩)
    · exact .inr (.inl ⟨hr, rfl, rfl⟩)
  · next hr => cases h; exact .inl ⟨hr, rfl⟩

/-! ### The operations of a running block, by what they leave -/

/-- What no operation of a running block but SHUTDOWN changes: the configuration, the clock, the run state, the environment
and the operations due. -/
structure FixedParts (s t : State) : Prop where
  cfg : t.cfg = s.cfg
  now : t.now = s.now
  runState : t.runState = s.runState
  env : t.env = s.env
  agenda : t.agenda = s.agenda

theorem runEdge_fixed (s : State) (p : Fin 16) (l : Bool) (ts : Nat) : FixedParts s (runEdge s p l ts) := by
  obtain ⟨hf, -⟩ := runEdge_frame s p l ts
  rw [hf]
  exact ⟨rfl, rfl, rfl, rfl, rfl⟩

theorem runEdgeSync_fixed (s : State) (p : Fin 16) (v : Bool) : FixedParts s (runEdgeSync s p v) := by
  obtain ⟨hc, hn, hr, he, ha⟩ := runEdge_fixed (s.setRx p (syncShift (s.rxAt p) v)) p (s.rxAt p).s1 s.now
  rw [runEdgeSync_eq]
  split
  · exact ⟨rfl, rfl, rfl, rfl, rfl⟩
  · exact ⟨hc, hn, hr, he, ha⟩

theorem hitPush_fixed (s : State) (id : Byte) (t : Nat) : FixedParts s (hitPush s id t) := by
  rw [hitPush, pushHit_frame]
  exact ⟨rfl, rfl, rfl, rfl, rfl⟩

theorem configWrite_fixed (s : State) (n : Nat) (data : Byte) : FixedParts s (configWrite s n data) := by
  rw [configWrite_frame]
  exact ⟨rfl, rfl, rfl, rfl, rfl⟩

theorem tick_fixed (s : State) : FixedParts s (tick s) := by
  rw [tick_frame]
  exact ⟨rfl, rfl, rfl, rfl, rfl⟩

theorem txStep_fixed (s : State) : FixedParts s (if s.tx.busy then txStep s else s) := by
  split
  · rw [txStep_frame]
    exact ⟨rfl, rfl, rfl, rfl, rfl⟩
  · exact ⟨rfl, rfl, rfl, rfl, rfl⟩

theorem hitTake_fixed (s : State) : FixedParts s (hitTake s).2 := by
  rw [hitTake_frame]
  exact ⟨rfl, rfl, rfl, rfl, rfl⟩

theorem hitExpire_fixed (s : State) (el : Nat) (b : Bool) : FixedParts s (hitExpire s el b) := by
  rw [hitExpire_frame]
  exact ⟨rfl, rfl, rfl, rfl, rfl⟩

theorem motorApply_fixed (s : State) (halt : Bool) : FixedParts s (motorApply s halt) := by
  rw [motorApply_frame]
  exact ⟨rfl, rfl, rfl, rfl, rfl⟩

theorem fireDispatch_fixed (s : State) : FixedParts s (fireDispatch s) := by
  rw [fireDispatch_frame]
  exact ⟨rfl, rfl, rfl, rfl, rfl⟩

theorem txRequest_fixed (s : State) (id : Byte) : FixedParts s (txRequest s id).2 := by
  rw [txRequest_frame]
  exact ⟨rfl, rfl, rfl, rfl, rfl⟩

/-- The body of every operation but SHUTDOWN leaves the fixed parts. -/
theorem runBody_fixed {i : Instr} (s : State) (hs : i ≠ .shutdown) : FixedParts s (runBody i s) := by
  cases i with
  | shutdown => exact absurd rfl hs
  | cmdWrite w =>
    rw [runBody_cmdWrite]
    by_cases hl : commandLegal w = true
    · rw [if_pos hl]; exact ⟨rfl, rfl, rfl, rfl, rfl⟩
    · rw [if_neg hl]; exact ⟨rfl, rfl, rfl, rfl, rfl⟩
  | cfgWrite reg data => exact configWrite_fixed s _ data
  | edge pin l ts => exact runEdge_fixed s _ l _
  | tick => exact tick_fixed s
  | txRequest id => exact txRequest_fixed s id
  | txStep => exact txStep_fixed s
  | edgeSync pin v => exact runEdgeSync_fixed s _ v
  | hitTake => exact hitTake_fixed s
  | hitExpire el b => exact hitExpire_fixed s _ b
  | motorApply halt => exact motorApply_fixed s halt
  | fireDispatch => exact fireDispatch_fixed s
  | hitPush id ts =>
    obtain ⟨hc, hn, hr, he, ha⟩ := hitPush_fixed (s.timed ts.toNat) id (opTime s ts.toNat)
    exact ⟨hc, hn, hr, he, ha⟩
  | rxFall p ts => exact runEdge_fixed s _ false _
  | rxRise p ts => exact runEdge_fixed s _ true _
  | _ => exact ⟨rfl, rfl, rfl, rfl, rfl⟩

/-- No instruction but RESET moves the clock, the configuration, the environment or the operations due (R62). -/
theorem exec_keeps_clock {i : Instr} {s t : State} (h : exec i s = .next t) (hr : i ≠ .reset) :
    t.cfg = s.cfg ∧ t.now = s.now ∧ t.env = s.env ∧ t.agenda = s.agenda := by
  obtain hi | ⟨r, rfl⟩ | ⟨o, rfl⟩ | ⟨-, -, o, rfl⟩ := exec_next h
  · exact absurd hi hr
  · obtain ⟨-, rfl⟩ | ⟨-, -, rfl⟩ | ⟨-, -, rfl⟩ := execBoot_next h <;> exact ⟨rfl, rfl, rfl, rfl⟩
  · exact ⟨rfl, rfl, rfl, rfl⟩
  · by_cases hs : i = .shutdown
    · subst hs
      exact ⟨rfl, rfl, rfl, rfl⟩
    · obtain ⟨hc, hn, -, he, ha⟩ := runBody_fixed s.clearOut hs
      exact ⟨hc, hn, he, ha⟩

/-- Only RESET, BOOT and SHUTDOWN write the run state (R62). -/
theorem exec_runState {i : Instr} {s t : State} (h : exec i s = .next t) (hr : i ≠ .reset) (hs : i ≠ .shutdown)
    (hb : ∀ r, i ≠ .boot r) : t.runState = s.runState := by
  obtain hi | ⟨r, hi⟩ | ⟨o, rfl⟩ | ⟨-, -, o, rfl⟩ := exec_next h
  · exact absurd hi hr
  · exact absurd hi (hb r)
  · rfl
  · exact (runBody_fixed s.clearOut hs).runState

/-! ### R43 under a change of one part of the state -/

/-- The invariant reads neither the configuration registers, the tick's flags, the environment, the operations due, the count
of free values nor the answer. -/
theorem Inv.of_unread {s : State} (h : Inv s) (id : Byte) (en : Bool) (f : TickFlags) (e : Env) (ag : List TraceWord)
    (d : Nat) (o : Out) :
    Inv { s with ownId := id, selfhitEn := en, flags := f, env := e, agenda := ag, draws := d, out := o } := { h with }

/-- R43 (a) for the tick of this microsecond. -/
theorem Inv.ticked {s : State} (h : Inv s) : Inv { s with tLastTick := s.now } :=
  { h with lastTick := Nat.le_refl _, tickNotOverdue := fun _ => Nat.le_add_right _ _ }

/-- R43 (b) for a new session record. -/
theorem Inv.setSession {s : State} (h : Inv s) {x : Session} (hx : x.Ok s.cfg s.now) : Inv { s with session := x } :=
  { h with session := hx }

/-- R43 (a) and R23 for a new mailbox. -/
theorem Inv.setMailbox {s : State} (h : Inv s) {m : Mailbox} (hc : m.tCmd ≤ s.now) (hi : m.tInput ≤ s.now)
    (hr : m.cmd.inRange = true) : Inv { s with mailbox := m } :=
  { h with lastCommand := hc, lastInput := hi, command := hr }

/-- R31 for a new queue. -/
theorem Inv.setQueue {s : State} (h : Inv s) {q : List HitEvent} (hq : ∀ e ∈ q, e.receivedAt ≤ s.now)
    (hd : ∀ d, s.cfg.hitqDepth = some d → q.length ≤ d) : Inv { s with hitq := q } :=
  { h with queueStamps := hq, queueBound := hd }

/-- R43 (a) and (c) for a new record of a present receiver. -/
theorem Inv.setRx {s : State} (h : Inv s) {p : Fin 16} (hp : p.val < s.cfg.nRx) {r : RxState} (hr : r.Ok s.now) :
    Inv (s.setRx p r) :=
  { h with
    receivers := fun q => by
      by_cases hq : q = p
      · rw [hq, rxAt_setRx_same]; exact hr
      · rw [rxAt_setRx_other s p q r hq]; exact h.receivers q
    absentReceivers := fun q hq => by
      have hne : q ≠ p := fun e => absurd hp (Nat.not_lt.mpr (e ▸ hq))
      rw [rxAt_setRx_other s p q r hne]
      exact h.absentReceivers q hq }

/-- R43 (d) for a new transmitter record in RUN. -/
theorem Inv.setTx {s : State} (h : Inv s) (hrun : s.runState = .run) {x : TxState} (hx : x.Ok s.now s.runState) :
    Inv { s with tx := x } :=
  { h with transmitter := hx, safeOutsideRun := fun hn => absurd hrun hn }

/-- R43 (e) for new motor registers in RUN. -/
theorem Inv.setMotors {s : State} (h : Inv s) (hrun : s.runState = .run) {m : PerWheel Motor}
    (hm : m.fl.Ok s.cfg ∧ m.fr.Ok s.cfg ∧ m.rl.Ok s.cfg ∧ m.rr.Ok s.cfg) : Inv { s with mot := m } :=
  { h with motors := hm, safeOutsideRun := fun hn => absurd hrun hn }

/-- In RUN R43 leaves the driver stage free. -/
theorem Inv.setEnable {s : State} (h : Inv s) (hrun : s.runState = .run) (b : Bool) : Inv { s with driveEnable := b } :=
  { h with safeOutsideRun := fun hn => absurd hrun hn }

/-! ### R43 under the session sub-operations -/

/-- The empty session record keeps R43 (b). -/
theorem Session.ok_empty (c : Params) (now : Nat) : Session.Ok c now {} where
  hitAt := Nat.zero_le _
  idle _ := ⟨rfl, rfl, rfl, rfl⟩
  bounded h := absurd h Bool.false_ne_true
  running h := absurd h Bool.false_ne_true

/-- R43 (b) does not read the standby latch. -/
theorem Session.Ok.setStandby {c : Params} {now : Nat} {x : Session} (h : x.Ok c now) (b : Bool) :
    Session.Ok c now { x with standby := b } := { h with }

theorem enterLockout_keeps_inv {s : State} (h : Inv s) {e : HitEvent} (he : e.receivedAt ≤ s.now) :
    Inv (enterLockout s e) :=
  h.setSession
    { hitAt := he
      idle := fun hf => absurd hf.symm Bool.false_ne_true
      bounded := fun _ => Nat.le_refl _
      running := fun _ hpos => hpos }

theorem takeEvent_keeps_inv {s : State} (h : Inv s) {e : HitEvent} (he : e.receivedAt ≤ s.now) : Inv (takeEvent s e) := by
  unfold takeEvent
  split
  · exact enterLockout_keeps_inv h he
  · exact h.of_unread ..

/-- Each turn of HIT_TAKE's loop keeps the invariant: the event popped was stamped in the past. -/
theorem drainHits_keeps_inv (n : Nat) (b : Bool) {s : State} (h : Inv s) : Inv (drainHits n b s).2 := by
  induction n generalizing b s with
  | zero => exact h
  | succ n ih =>
    cases hq : s.hitq with
    | nil =>
      rw [drainHits, (popHit_eq_none_iff s).mpr hq]
      exact h
    | cons e q =>
      rw [drainHits_cons n b s e q hq]
      have hstamps := h.queueStamps
      have hbound := h.queueBound
      rw [hq] at hstamps hbound
      have hpop : Inv { s with hitq := q } :=
        h.setQueue (fun x hx => hstamps x (List.mem_cons_of_mem e hx)) fun d hd => Nat.le_of_succ_le (hbound d hd)
      exact ih _ (takeEvent_keeps_inv hpop (hstamps e List.mem_cons_self))

theorem hitTake_keeps_inv {s : State} (h : Inv s) : Inv (hitTake s).2 := drainHits_keeps_inv _ _ h

theorem leaveLockout_keeps_inv {s : State} (h : Inv s) : Inv (leaveLockout s) :=
  (h.setSession (Session.ok_empty s.cfg s.now)).setMailbox h.lastCommand (Nat.le_refl _) h.command

theorem hitExpire_keeps_inv {s : State} (h : Inv s) (el : Nat) (b : Bool) : Inv (hitExpire s el b) := by
  unfold hitExpire
  split
  · next hact =>
    have hact : s.session.hitActive = true := (Bool.and_eq_true_iff.mp hact).1
    dsimp only
    split
    · exact leaveLockout_keeps_inv h
    · next hleft =>
      exact h.setSession
        { h.session with
          idle := fun hf => absurd (hf.symm.trans hact) Bool.false_ne_true
          bounded := fun _ => Nat.le_trans (Nat.sub_le _ _) (h.session.bounded hact)
          running := fun _ _ => Nat.pos_of_ne_zero hleft }
  · exact h

theorem safetyStop_keeps_inv {s : State} (h : Inv s) : Inv (safetyStop s).2 := h.of_unread ..

theorem standbyUpdate_keeps_inv {s : State} (h : Inv s) (hrun : s.runState = .run) : Inv (standbyUpdate s) :=
  (h.setSession (h.session.setStandby (if s.session.hitActive then s.session.standby else inactive s))).setEnable hrun _

theorem motorApply_keeps_inv {s : State} (hl : s.cfg.legal = true) (h : Inv s) (hrun : s.runState = .run) (halt : Bool) :
    Inv (motorApply s halt) := by
  unfold motorApply
  split
  · exact h.setMotors hrun ⟨stopped_ok _, stopped_ok _, stopped_ok _, stopped_ok _⟩
  · exact h.setMotors hrun (driveMotors_ok hl _)

/-! ### R43 under the transmitter -/

theorem txRequest_keeps_inv {s : State} (h : Inv s) (hrun : s.runState = .run) (id : Byte) : Inv (txRequest s id).2 := by
  obtain ⟨-, hx⟩ | ⟨-, -, hx⟩ | ⟨-, -, hx⟩ := txRequest_cases s id <;> rw [hx]
  · exact h
  · exact h
  · exact h.setTx hrun
      { idle := fun hf => absurd hf.symm Bool.false_ne_true
        burst := fun _ => ⟨fun _ => rfl, fun _ => rfl⟩
        deadline := fun _ => Nat.le_add_right _ _
        onlyInRun := fun _ => hrun }

theorem txStep_keeps_inv {s : State} (h : Inv s) (hrun : s.runState = .run) (hb : s.tx.busy = true) : Inv (txStep s) := by
  unfold txStep
  split
  · exact h.setTx hrun
      { idle := fun _ => rfl
        burst := fun _ => ⟨fun hf => absurd hf Bool.false_ne_true, nofun⟩
        deadline := fun _ => Nat.le_add_right _ _
        onlyInRun := fun _ => hrun }
  · next hgap =>
    split
    · refine h.setTx hrun
        { idle := fun _ => ?_
          burst := fun hf => absurd hf Bool.false_ne_true
          deadline := fun hf => absurd hf Bool.false_ne_true
          onlyInRun := fun _ => hrun }
      have hoff : s.tx.irEnv ≠ true := fun hon => nomatch hgap.symm.trans ((h.transmitter.burst hb).mp hon)
      exact Bool.eq_false_iff.mpr hoff
    · exact h.setTx hrun
        { idle := fun hf => absurd (hf.symm.trans hb) Bool.false_ne_true
          burst := fun _ => ⟨fun _ => rfl, fun _ => rfl⟩
          deadline := fun _ => Nat.le_add_right _ _
          onlyInRun := fun _ => hrun }

theorem fireDispatch_keeps_inv {s : State} (h : Inv s) (hrun : s.runState = .run) : Inv (fireDispatch s) := by
  have hclear : Inv { s with flags := { s.flags with fireRefused := false, fireDropped := false } } := h.of_unread ..
  have hsent := txRequest_keeps_inv hclear hrun s.mailbox.cmd.teamId
  unfold fireDispatch
  dsimp only
  split
  · split
    · exact hclear.of_unread ..
    · split
      · next hx => rw [hx] at hsent; exact hsent
      · next hx => rw [hx] at hsent; exact hsent
      · next hx => rw [hx] at hsent; exact hsent.of_unread ..
  · exact hclear

theorem tick_keeps_inv {s : State} (hl : s.cfg.legal = true) (h : Inv s) (hrun : s.runState = .run) : Inv (tick s) := by
  have hsession : Inv (tickSession s).2 := by
    have hexpired := hitExpire_keeps_inv (hitTake_keeps_inv h.ticked) (s.now - s.tLastTick)
      (hitTake { s with tLastTick := s.now }).1
    refine standbyUpdate_keeps_inv (safetyStop_keeps_inv hexpired) ?_
    exact (hitExpire_fixed _ _ _).runState.trans ((hitTake_fixed _).runState.trans hrun)
  obtain ⟨hc, hr⟩ : (tickSession s).2.cfg = s.cfg ∧ (tickSession s).2.runState = .run := by
    rw [tickSession_frame]
    exact ⟨rfl, hrun⟩
  rw [tick_eq]
  exact fireDispatch_keeps_inv (motorApply_keeps_inv (hc ▸ hl) hsession hr _) ((motorApply_fixed _ _).runState.trans hr)

/-! ### R43 under the receivers -/

/-- A push of an event stamped in the past keeps the queue's bounds (R31, R64). -/
theorem pushHit_keeps_inv {s : State} (h : Inv s) {e : HitEvent} (he : e.receivedAt ≤ s.now) : Inv (pushHit s e) := by
  unfold pushHit
  split
  · next hroom =>
    refine h.setQueue (fun x hx => ?_) fun d hd => ?_
    · obtain hx | hx := List.mem_append.mp hx
      · exact h.queueStamps x hx
      · exact List.mem_singleton.mp hx ▸ he
    · rw [List.length_append]
      exact (queueHasRoom_iff _ _).mp hroom d hd
  · exact h.of_unread ..

theorem hitPush_keeps_inv {s : State} (h : Inv s) (id : Byte) {t : Nat} (ht : t ≤ s.now) : Inv (hitPush s id t) :=
  pushHit_keeps_inv h ht

theorem rxFall_keeps_inv {s : State} (h : Inv s) {p : Fin 16} (hp : p.val < s.cfg.nRx) {t : Nat} (ht : t ≤ s.now) :
    Inv (rxFall s p t) :=
  h.setRx hp { h.receivers p with fall := ht }

/-- A completed burst leaves its receiver's times in the past and its rise valid (R43 (a), (c)). -/
theorem riseReceiver_ok {s : State} {r : RxState} (hr : r.Ok s.now) {t : Nat} (ht : t ≤ s.now) :
    (riseReceiver s r t).Ok s.now where
  fall := hr.fall
  last := ht
  partialBuffer _ := rfl

theorem rxRise_keeps_inv {s : State} (h : Inv s) {p : Fin 16} (hp : p.val < s.cfg.nRx) {t : Nat} (ht : t ≤ s.now) :
    Inv (rxRise s p t) := by
  have hqueue : Inv { s with hitq := (rxRise s p t).hitq } := by
    obtain hx | ⟨id, hx⟩ := rxRise_hitq s p t
    · rw [hx]
      exact h
    · have hpush := pushHit_keeps_inv h (e := { team := id, receivedAt := t, self := id == s.ownId }) ht
      rw [pushHit_frame] at hpush
      rw [hx]
      exact h.setQueue hpush.queueStamps hpush.queueBound
  rw [rxRise_frame]
  by_cases hf : (s.rxAt p).fallValid = true
  · simp only [if_pos hf]
    exact (hqueue.setRx hp (riseReceiver_ok (h.receivers p) ht)).of_unread ..
  · simp only [if_neg hf]
    exact hqueue.of_unread ..

theorem runEdge_keeps_inv {s : State} (h : Inv s) {p : Fin 16} (hp : p.val < s.cfg.nRx) (l : Bool) (ts : Nat) :
    Inv (runEdge s p l ts) := by
  obtain ⟨d, tau, htau, hx | hx⟩ := runEdge_cases s p l ts <;> rw [hx]
  · exact rxFall_keeps_inv (s := { s with draws := d }) (h.of_unread ..) hp htau
  · exact rxRise_keeps_inv (s := { s with draws := d }) (h.of_unread ..) hp htau

theorem runEdgeSync_keeps_inv {s : State} (h : Inv s) {p : Fin 16} (hp : p.val < s.cfg.nRx) (v : Bool) :
    Inv (runEdgeSync s p v) := by
  have hshift : Inv (s.setRx p (syncShift (s.rxAt p) v)) := h.setRx hp { h.receivers p with }
  rw [runEdgeSync_eq]
  split
  · exact hshift
  · exact runEdge_keeps_inv hshift hp _ _

/-! ### R43 under every step -/

theorem acceptCommand_keeps_inv {s : State} (h : Inv s) {w : BitVec 80} (hw : commandLegal w = true) :
    Inv (acceptCommand s (commandOf w)) := by
  refine h.setMailbox (Nat.le_refl _) ?_ (Bool.and_eq_true_iff.mp hw).1
  dsimp only
  split
  · exact Nat.le_refl _
  · exact h.lastInput

theorem configWrite_keeps_inv {s : State} (h : Inv s) (n : Nat) (data : Byte) : Inv (configWrite s n data) := by
  rw [configWrite_frame]
  exact h.of_unread ..

/-- The four motors at STOP, the driver stage and the emitter off, no transmission: what SHUTDOWN leaves is safe (R206). -/
theorem shutdown_keeps_inv {s : State} (h : Inv s) : Inv (shutdown s) :=
  { h with
    heldInReset := nofun
    tickNotOverdue := nofun
    transmitter :=
      { idle := fun _ => rfl
        burst := fun hf => absurd hf Bool.false_ne_true
        deadline := fun hf => absurd hf Bool.false_ne_true
        onlyInRun := fun hf => absurd hf Bool.false_ne_true }
    motors := ⟨stopped_ok _, stopped_ok _, stopped_ok _, stopped_ok _⟩
    safeOutsideRun := fun _ => ⟨⟨rfl, rfl, rfl, rfl⟩, rfl, rfl⟩ }

/-- The state after reset keeps R43, in every configuration. -/
theorem resetWith_inv (c : Params) (e : Env) : Inv (State.resetWith c e) where
  clock := Nat.two_pow_pos 64
  heldInReset _ := rfl
  lastTick := Nat.le_refl _
  tickNotOverdue := nofun
  lastCommand := Nat.le_refl _
  lastInput := Nat.le_refl _
  command := by
    change Command.inRange {} = true
    decide
  session := Session.ok_empty c 0
  queueStamps := nofun
  queueBound _ _ := Nat.zero_le _
  receivers p := by
    rw [rxAt_resetWith]
    exact ⟨Nat.le_refl _, Nat.le_refl _, nofun⟩
  absentReceivers p _ := rxAt_resetWith c e p
  transmitter := ⟨fun _ => rfl, nofun, nofun, nofun⟩
  motors := ⟨stopped_ok c, stopped_ok c, stopped_ok c, stopped_ok c⟩
  safeOutsideRun _ := ⟨⟨rfl, rfl, rfl, rfl⟩, rfl, rfl⟩

/-- The body of every operation keeps R43 in RUN, where its pin is present. -/
theorem runBody_keeps_inv {i : Instr} {s : State} (hl : s.cfg.legal = true) (h : Inv s) (hrun : s.runState = .run)
    (hp : pinMissing s.cfg i = false) : Inv (runBody i s) := by
  cases i with
  | cmdWrite w =>
    rw [runBody_cmdWrite]
    by_cases hw : commandLegal w = true
    · rw [if_pos hw]; exact acceptCommand_keeps_inv h hw
    · rw [if_neg hw]; exact h
  | cfgWrite reg data => exact configWrite_keeps_inv h _ data
  | edge pin l ts => exact runEdge_keeps_inv h (pinPresent_of_not_missing hp) l _
  | shutdown => exact shutdown_keeps_inv h
  | tick => exact tick_keeps_inv hl h hrun
  | txRequest id => exact txRequest_keeps_inv h hrun id
  | txStep =>
    change Inv (if s.tx.busy then txStep s else s)
    split
    · next hb => exact txStep_keeps_inv h hrun hb
    · exact h
  | edgeSync pin v => exact runEdgeSync_keeps_inv h (pinPresent_of_not_missing hp) v
  | hitTake => exact hitTake_keeps_inv h
  | hitExpire el b => exact hitExpire_keeps_inv h _ b
  | safetyStop => exact safetyStop_keeps_inv h
  | standbyUpdate => exact standbyUpdate_keeps_inv h hrun
  | motorApply halt => exact motorApply_keeps_inv hl h hrun halt
  | fireDispatch => exact fireDispatch_keeps_inv h hrun
  | hitPush id ts => exact hitPush_keeps_inv (s := s.timed ts.toNat) (h.of_unread ..) id (opTime_le s _)
  | rxFall pin ts => exact runEdge_keeps_inv h (pinPresent_of_not_missing hp) false _
  | rxRise pin ts => exact runEdge_keeps_inv h (pinPresent_of_not_missing hp) true _
  | _ => exact h

/-- BOOT keeps R43: the clock stands at 0 when `rst` is released, and a block that does not boot is left safe. -/
theorem execBoot_keeps_inv {r : Bool} {s t : State} (h : Inv s) (hx : execBoot r s = .next t) : Inv t := by
  obtain ⟨-, rfl⟩ | ⟨hr, -, rfl⟩ | ⟨hr, -, rfl⟩ := execBoot_next hx
  · exact h.of_unread ..
  · exact { h with
      heldInReset := nofun
      tickNotOverdue := fun _ => (h.heldInReset hr).le.trans (Nat.zero_le _)
      transmitter := { h.transmitter with onlyInRun := fun _ => rfl }
      safeOutsideRun := fun hn => absurd rfl hn }
  · have hout : s.runState ≠ .run := fun hrun => nomatch hr.symm.trans hrun
    exact { h with
      heldInReset := nofun
      tickNotOverdue := nofun
      transmitter := { h.transmitter with onlyInRun := fun hb => absurd (h.transmitter.onlyInRun hb) hout }
      safeOutsideRun := fun _ => h.safeOutsideRun hout }

/-- Every instruction keeps R43 in a legal configuration. -/
theorem exec_keeps_inv {i : Instr} {s t : State} (hl : s.cfg.legal = true) (h : Inv s) (hx : exec i s = .next t) :
    Inv t := by
  obtain rfl | ⟨r, rfl⟩ | ⟨o, rfl⟩ | ⟨hrun, hp, o, rfl⟩ := exec_next hx
  · cases hx
    exact (resetWith_inv s.cfg s.env).of_unread ..
  · exact execBoot_keeps_inv h hx
  · exact h.of_unread ..
  · have hclear : Inv s.clearOut := h.of_unread ..
    exact (runBody_keeps_inv (s := s.clearOut) hl hclear hrun hp).of_unread ..

/-! ### R43 under the arbiter -/

theorem Session.Ok.later {c : Params} {now n : Nat} {x : Session} (h : x.Ok c now) (hn : now ≤ n) : x.Ok c n :=
  { h with hitAt := Nat.le_trans h.hitAt hn }

theorem RxState.Ok.later {now n : Nat} {r : RxState} (h : r.Ok now) (hn : now ≤ n) : r.Ok n :=
  { h with fall := Nat.le_trans h.fall hn, last := Nat.le_trans h.last hn }

/-- R43 at a later time of the time base, `rst` not held, that passes neither the next tick nor the transmit deadline. -/
theorem Inv.later {s : State} (h : Inv s) {n : Nat} (hn : s.now ≤ n) (hlimit : n < timeLimit)
    (hheld : s.runState = .reset → n = s.now) (htick : s.runState = .run → n ≤ s.tLastTick + s.cfg.tickPeriod)
    (htx : s.tx.busy = true → n ≤ s.tx.deadline) : Inv { s with now := n } :=
  { h with
    clock := hlimit
    heldInReset := fun hr => (hheld hr).trans (h.heldInReset hr)
    lastTick := Nat.le_trans h.lastTick hn
    tickNotOverdue := htick
    lastCommand := Nat.le_trans h.lastCommand hn
    lastInput := Nat.le_trans h.lastInput hn
    session := h.session.later hn
    queueStamps := fun e he => Nat.le_trans (h.queueStamps e he) hn
    receivers := fun p => (h.receivers p).later hn
    transmitter := { h.transmitter with deadline := htx } }

theorem nextTickTime_run {s : State} (hrun : s.runState = .run) : nextTickTime s = some (s.tLastTick + s.cfg.tickPeriod) :=
  if_pos hrun

theorem nextTxTime_busy {s : State} (hrun : s.runState = .run) (hb : s.tx.busy = true) :
    nextTxTime s = some s.tx.deadline := if_pos ⟨hrun, hb⟩

/-- A turn of the arbiter keeps R43: the next tick and the transmit deadline are still to come, and it passes neither. -/
theorem arbitrate_keeps_inv {s t : State} (h : Inv s) (hx : arbitrate s = .next t) : Inv t := by
  obtain ⟨ht, hback, hheld, hlimit, htick, htx⟩ := arbitrate_next hx
  have hlater : Inv { s with now := t.now } := by
    refine h.later hback ?_ hheld (fun hrun => ?_) fun hb => ?_
    · by_cases hr : s.runState = .reset
      · exact hheld hr ▸ h.clock
      · exact hlimit hr
    · exact Nat.max_eq_right (h.tickNotOverdue hrun) ▸ htick _ (nextTickTime_run hrun)
    · exact Nat.max_eq_right (h.transmitter.deadline hb) ▸ htx _ (nextTxTime_busy (h.transmitter.onlyInRun hb) hb)
  rw [ht]
  exact hlater.of_unread ..

/-- Settles O58: a step performs one instruction, on a state whose operations due do not matter, or is a turn of the
arbiter. -/
theorem stepKeepsInvariant : Obligations.StepKeepsInvariant := by
  intro s t h hstep
  obtain ⟨hl, ⟨w, rest, i, -, -, hx⟩ | ⟨-, hx⟩⟩ := step_next hstep
  · have hrest : Inv { s with agenda := rest } := h.of_unread ..
    exact exec_keeps_inv (s := { s with agenda := rest }) hl hrest hx
  · exact arbitrate_keeps_inv h hx

/-! ### The enable lines on the standby latch (R43 (f)) -/

/-- A word of an operation, from its op number, its widths and fields that fit them (R96). -/
theorem decode_opWord {op : Nat} {ws fs : List Nat} {i : Instr} (hop : op < 256) (hw : opWidths op = some ws)
    (hf : FieldsFit ws fs) (hb : buildOp op fs = some i) : decode (opWord op fs) = .ok i := by
  have hop : (BitVec.ofNat 8 op).toNat = op := by rw [BitVec.toNat_ofNat, Nat.mod_eq_of_lt hop]
  simp [decode, opWord, decodeOp, hop, hw, payloadFields_bytesLE ws fs hf, hb]

/-- A word that decodes to an operation the arbiter may line up (R96). -/
def IssuedWord (w : TraceWord) : Prop := ∃ i, decode w = .ok i ∧ isIssued i = true

theorem issued_tick : IssuedWord (encode .tick) := ⟨.tick, by decide, rfl⟩

theorem issued_txStep : IssuedWord (encode .txStep) := ⟨.txStep, by decide, rfl⟩

/-- The word of a sample decodes to one, whatever its pin and level. -/
theorem issued_edgeSync (p : BitVec 4) (v : Bool) : IssuedWord (encode (.edgeSync p v)) :=
  ⟨_, decode_opWord (i := .edgeSync (BitVec.ofNat 4 p.toNat) (ofBit v == 1)) (by decide) rfl
    ⟨p.isLt, ofBit_lt v, trivial⟩ rfl, rfl⟩

theorem isIssued_of_external {i : Instr} (h : isExternal i = true) : isIssued i = true := by
  cases i with
  | reset | cmdWrite | cfgWrite | edge | statusRead | shutdown | boot => rfl
  | _ => exact absurd h Bool.false_ne_true

/-- An input that is not turned away may be lined up. -/
theorem issued_of_input {w : TraceWord} (h : inputRefusal w = none) : IssuedWord w := by
  obtain ⟨i, hd, hx⟩ := inputRefusal_none h
  exact ⟨i, hd, isIssued_of_external hx⟩

theorem issued_samplesDue (s : State) (t : Nat) (pins : Vector Bool 16) : ∀ w ∈ samplesDue s t pins, IssuedWord w := by
  intro w hw
  unfold samplesDue at hw
  split at hw
  · obtain ⟨p, -, rfl⟩ := List.mem_map.mp hw
    exact issued_edgeSync _ _
  · exact absurd hw List.not_mem_nil

theorem issued_dueBy {i : Instr} (h : IssuedWord (encode i)) (t : Nat) (due : Option Nat) :
    ∀ w ∈ dueBy t due i, IssuedWord w := by
  intro w hw
  unfold dueBy at hw
  split at hw
  · exact absurd hw List.not_mem_nil
  · split at hw
    · exact List.mem_singleton.mp hw ▸ h
    · exact absurd hw List.not_mem_nil

theorem lineUp_issued {s t : State} {n : Nat} (h : lineUp s n = .next t) : ∀ w ∈ t.agenda, IssuedWord w := by
  unfold lineUp at h
  dsimp only at h
  split at h
  · cases h
  · next hwords =>
    cases h
    intro w hw
    simp only [mem_inDueOrder, List.mem_append] at hw
    obtain ((hw | hw) | hw) | hw := hw
    · obtain ⟨i, hd, hx⟩ := firstRefusal_none hwords w hw
      exact ⟨i, hd, isIssued_of_external hx⟩
    · exact issued_samplesDue _ _ _ w hw
    · exact issued_dueBy issued_txStep _ _ w hw
    · exact issued_dueBy issued_tick _ _ w hw

theorem resetFirst_issued {s t : State} {n : Nat} (h : resetFirst s n = some t) : ∀ w ∈ t.agenda, IssuedWord w := by
  unfold resetFirst at h
  split at h
  · split at h
    · next hreset =>
      cases h
      intro w hw
      obtain rfl := List.mem_singleton.mp hw
      exact ⟨.reset, (isResetWord_iff _).mp hreset.2, rfl⟩
    · cases h
  · cases h

theorem arbitrateInReset_issued {s t : State} (ha : s.agenda = []) (h : arbitrateInReset s = .next t) :
    ∀ w ∈ t.agenda, IssuedWord w := by
  unfold arbitrateInReset at h
  split at h
  · cases h
    exact ha ▸ nofun
  · cases h
    exact ha ▸ nofun
  · split at h
    · cases h
    · next hw =>
      cases h
      intro x hx
      exact List.mem_singleton.mp hx ▸ issued_of_input hw

/-- The arbiter lines up only what an agent may issue (R13, R96). -/
theorem arbitrate_issued {s t : State} (ha : s.agenda = []) (h : arbitrate s = .next t) :
    ∀ w ∈ t.agenda, IssuedWord w := by
  unfold arbitrate at h
  dsimp only at h
  split at h
  · exact arbitrateInReset_issued (s := s.clearOut) ha h
  split at h
  · cases h
  split at h
  · cases h
  split at h
  · next hfirst => cases h; exact resetFirst_issued hfirst
  · exact lineUp_issued h

/-- An EDGE leaves the session and the driver stage. -/
theorem runEdge_session (s : State) (p : Fin 16) (l : Bool) (ts : Nat) :
    (runEdge s p l ts).session = s.session ∧ (runEdge s p l ts).driveEnable = s.driveEnable := by
  obtain ⟨hf, -⟩ := runEdge_frame s p l ts
  rw [hf]
  exact ⟨rfl, rfl⟩

/-- Of the agents' operations only TICK and SHUTDOWN write the session or the driver stage (R62). -/
theorem runBody_session {i : Instr} (s : State) (hi : isIssued i = true) (ht : i ≠ .tick) (hs : i ≠ .shutdown) :
    (runBody i s).session = s.session ∧ (runBody i s).driveEnable = s.driveEnable := by
  cases i with
  | tick => exact absurd rfl ht
  | shutdown => exact absurd rfl hs
  | cmdWrite w => rw [runBody_cmdWrite, apply_ite State.session, apply_ite State.driveEnable]; exact ⟨ite_self _, ite_self _⟩
  | cfgWrite reg data =>
    change (configWrite s _ data).session = _ ∧ (configWrite s _ data).driveEnable = _
    rw [configWrite_frame]
    exact ⟨rfl, rfl⟩
  | edge pin l ts => exact runEdge_session s _ l _
  | txStep =>
    change (if s.tx.busy then txStep s else s).session = _ ∧ (if s.tx.busy then txStep s else s).driveEnable = _
    rw [txStep_frame]
    split <;> exact ⟨rfl, rfl⟩
  | edgeSync pin v =>
    change (runEdgeSync s _ v).session = _ ∧ (runEdgeSync s _ v).driveEnable = _
    rw [runEdgeSync_eq]
    split
    · exact ⟨rfl, rfl⟩
    · exact runEdge_session (s.setRx _ _) _ _ _
  | reset | boot | statusRead => exact ⟨rfl, rfl⟩
  | _ => exact absurd hi Bool.false_ne_true

/-- STANDBY_UPDATE is the tick's last word on the latch and on the enable lines (R185, R201). -/
theorem tick_enable (s : State) : (tick s).driveEnable = !(tick s).session.standby := by
  rw [tick_driveEnable, tick_session]
  rfl

/-- The body of an agent's operation in RUN, SHUTDOWN apart, keeps the enable lines on the latch. -/
theorem runBody_enable {i : Instr} {s : State} (hi : isIssued i = true) (hs : i ≠ .shutdown)
    (h : s.driveEnable = !s.session.standby) : (runBody i s).driveEnable = !(runBody i s).session.standby := by
  by_cases ht : i = .tick
  · rw [ht]
    exact tick_enable s
  · obtain ⟨hsession, henable⟩ := runBody_session s hi ht hs
    rw [hsession, henable]
    exact h

/-- Every operation of an agent keeps R43 (f). -/
theorem exec_keeps_enable {i : Instr} {s t : State} (hi : isIssued i = true) (h : EnableFollowsLatch s)
    (hx : exec i s = .next t) : EnableFollowsLatch t := by
  obtain rfl | ⟨r, rfl⟩ | ⟨o, rfl⟩ | ⟨hrun, -, o, rfl⟩ := exec_next hx
  · cases hx
    exact ⟨nofun, fun _ => rfl, nofun⟩
  · obtain ⟨-, rfl⟩ | ⟨hr, -, rfl⟩ | ⟨hr, -, rfl⟩ := execBoot_next hx
    · exact { h with }
    · refine ⟨h.agenda, nofun, fun _ => ?_⟩
      change true = !s.session.standby
      rw [h.heldSession hr]
      rfl
    · exact ⟨h.agenda, nofun, nofun⟩
  · exact { h with }
  · by_cases hs : i = .shutdown
    · subst hs
      exact ⟨h.agenda, nofun, nofun⟩
    · obtain ⟨-, -, hr, -, ha⟩ := runBody_fixed s.clearOut hs
      have hrun' : (runBody i s.clearOut).runState = .run := hr.trans hrun
      exact
        { agenda := fun w hw => h.agenda w (ha ▸ hw)
          heldSession := fun hreset => nomatch hreset.symm.trans hrun'
          enable := fun _ => runBody_enable hi hs (h.enable hrun) }

/-- Settles O59: the operation due first is an agent's, and what the arbiter lines up is. -/
theorem stepKeepsEnableOnLatch : Obligations.StepKeepsEnableOnLatch := by
  intro s t _ h hstep
  obtain ⟨-, ⟨w, rest, i, ha, hd, hx⟩ | ⟨ha, hx⟩⟩ := step_next hstep
  · obtain ⟨j, hj, hissued⟩ := h.agenda w (ha ▸ List.mem_cons_self)
    cases hd.symm.trans hj
    have hrest : EnableFollowsLatch { s with agenda := rest } :=
      { h with agenda := fun x hx => h.agenda x (ha ▸ List.mem_cons_of_mem w hx) }
    exact exec_keeps_enable hissued hrest hx
  · obtain ⟨ht, -⟩ := arbitrate_next hx
    have hagenda := arbitrate_issued ha hx
    rw [ht]
    exact { h with agenda := hagenda }

/-! ### The run states (R21, R242) and the clock (R20) -/

/-- Settles O9: an absent pin is refused, what needs RUN is ignored, and BOOT reads `rst`. -/
theorem noEffectOutsideRun : Obligations.NoEffectOutsideRun := by
  intro s i
  refine ⟨exec_pinMissing, fun hrun hp hn => ?_, fun hreset r => ?_⟩
  · rw [exec_needsRun hrun hp hn, ignored_eq]
  · rw [exec_boot, execBoot, if_neg hreset, ignored_eq]

/-- In HALT and FATAL every instruction but RESET changes only what is answered. -/
theorem exec_stopped {i : Instr} {s t : State} (h : exec i s = .next t) (hs : s.runState = .halt ∨ s.runState = .fatal)
    (hr : i ≠ .reset) : t = { s with out := t.out } := by
  have hreset : s.runState ≠ .reset := by rintro hx; rw [hx] at hs; exact absurd hs (by decide)
  have hrun : s.runState ≠ .run := by rintro hx; rw [hx] at hs; exact absurd hs (by decide)
  obtain hi | ⟨r, rfl⟩ | ⟨o, rfl⟩ | ⟨hx, -⟩ := exec_next h
  · exact absurd hi hr
  · obtain ⟨-, rfl⟩ | ⟨hx, -⟩ | ⟨hx, -⟩ := execBoot_next h
    · rfl
    · exact absurd hx hreset
    · exact absurd hx hreset
  · rfl
  · exact absurd hx hrun

/-- Settles O10: outside RUN and RESET there is only an answer, and only three instructions write the run state. -/
theorem onlyResetLeavesHaltAndFatal : Obligations.OnlyResetLeavesHaltAndFatal := by
  intro i s t h
  refine ⟨exec_stopped h, fun hne => ?_, fun hi => ?_⟩
  · by_contra hnot
    obtain ⟨hr, hs, htrue, hfalse⟩ : i ≠ .reset ∧ i ≠ .shutdown ∧ i ≠ .boot true ∧ i ≠ .boot false := by
      simpa only [not_or] using hnot
    refine hne (exec_runState h hr hs fun r => ?_)
    cases r
    · exact hfalse
    · exact htrue
  · subst hi
    cases h
    exact ⟨rfl, rfl, rfl, rfl, rfl⟩

/-- Settles O60: only RESET moves the clock among the instructions, and the arbiter moves it on. -/
theorem clockNeverGoesBack : Obligations.ClockNeverGoesBack := by
  intro s t hclock hstep
  obtain ⟨-, ⟨w, rest, i, ha, hd, hx⟩ | ⟨-, hx⟩⟩ := step_next hstep
  · by_cases hi : i = .reset
    · subst hi
      cases hx
      exact ⟨Nat.two_pow_pos 64, .inr ⟨w, rest, ha, hd⟩⟩
    · obtain ⟨-, hnow, -, -⟩ := exec_keeps_clock hx hi
      exact ⟨hnow ▸ hclock, .inl hnow.ge⟩
  · obtain ⟨-, hback, hheld, hlimit, -, -⟩ := arbitrate_next hx
    refine ⟨?_, .inl hback⟩
    by_cases hr : s.runState = .reset
    · exact hheld hr ▸ hclock
    · exact hlimit hr

/-! ### The reset state (R42) -/

/-- Settles O6: RESET leaves the state of `resetWith`, whatever was there. -/
theorem resetValues : Obligations.ResetValues := by
  intro s
  refine ⟨{ State.resetWith s.cfg s.env with draws := s.draws }, rfl, rfl, rfl, rfl, rfl, rfl, rfl, rfl, rfl, rfl,
    fun p => rxAt_resetWith s.cfg s.env p, rfl, fun m hm => ?_, rfl, rfl⟩
  simpa [State.resetWith] using hm

theorem resetWith_enable (c : Params) (e : Env) : EnableFollowsLatch (State.resetWith c e) := ⟨nofun, fun _ => rfl, nofun⟩

/-- Settles O57. -/
theorem invariantAtReset : Obligations.InvariantAtReset :=
  fun c e _ => ⟨resetWith_inv c e, resetWith_enable c e, resetWith_inv {} {}⟩

/-! ### The numbered registers (R40) -/

/-- Register 2 is ST_FLAGS bit by bit, with zeros above. -/
theorem readReg_flags_getLsbD (s : State) (i : Nat) : (readReg s 2).getLsbD i = (stFlags s).getLsbD i := by
  change ((stFlags s).setWidth 64).getLsbD i = _
  rw [BitVec.getLsbD_setWidth]
  by_cases hi : i < 64
  · simp [hi]
  · simp [hi, BitVec.getLsbD_of_ge (stFlags s) i (by omega)]

/-- A two-bit field of register 2 is the code whose bits stand there. -/
theorem readReg_flags_field {s : State} {k : Nat} {c : BitVec 2} (h0 : (stFlags s).getLsbD k = c.getLsbD 0)
    (h1 : (stFlags s).getLsbD (k + 1) = c.getLsbD 1) : (readReg s 2).extractLsb' k 2 = c := by
  refine extractLsb'_eq_of_bits fun i hi => ?_
  rw [readReg_flags_getLsbD]
  match i, hi with
  | 0, _ => exact h0
  | 1, _ => exact h1

/-- Bits 15 to 13 of ST_FLAGS are zero. -/
theorem readReg_flags_lt (s : State) : (readReg s 2).toNat < 2 ^ 13 := by
  refine Nat.lt_pow_two_of_testBit _ fun i hi => ?_
  rw [BitVec.testBit_toNat, readReg_flags_getLsbD, stFlags_getLsbD]
  obtain ⟨k, rfl⟩ := Nat.exists_eq_add_of_le' hi
  match k with
  | 0 | 1 | 2 => rfl
  | k + 3 => rfl

/-- Register 1 is the self-hit flag in bit 0 alone. -/
theorem readReg_selfhit (s : State) : (readReg s 1).getLsbD 0 = s.selfhitEn ∧ (readReg s 1).toNat < 2 := by
  change ((BitVec.ofBool s.selfhitEn).setWidth 64).getLsbD 0 = _ ∧ ((BitVec.ofBool s.selfhitEn).setWidth 64).toNat < 2
  cases s.selfhitEn <;> decide

/-- Register 4 is the lockout's remaining time, which R8 (f) holds to 32 bits. -/
theorem readReg_remaining {s : State} (h : s.session.remaining < 2 ^ 32) : (readReg s 4).toNat = s.session.remaining := by
  change ((BitVec.ofNat 32 s.session.remaining).setWidth 64).toNat = _
  rw [BitVec.toNat_setWidth, BitVec.toNat_ofNat]
  omega

/-- Settles O12. -/
theorem registerFields : Obligations.RegisterFields := by
  refine ⟨fun n => ?_, ⟨rfl, rfl, rfl, rfl⟩, ⟨rfl, rfl, fun _ => rfl⟩, fun s => ?_⟩
  · match n with
    | 0 | 1 | 2 | 3 | 4 | 5 | 6 => rfl
    | n + 7 => rfl
  · have hbit (i : Nat) := (readReg_flags_getLsbD s i).trans (stFlags_getLsbD s i)
    obtain ⟨hself, hselfLt⟩ := readReg_selfhit s
    exact ⟨rfl, hself, hselfLt, hbit 0, hbit 1, hbit 2, hbit 3, hbit 4, hbit 5, hbit 6, hbit 7,
      readReg_flags_field (stFlags_getLsbD s 8) (stFlags_getLsbD s 9),
      readReg_flags_field (stFlags_getLsbD s 10) (stFlags_getLsbD s 11), hbit 12, readReg_flags_lt s, rfl, rfl,
      readReg_remaining, fun h => (BitVec.toNat_ofNat _ _).trans (Nat.mod_eq_of_lt h),
      fun h => (BitVec.toNat_ofNat _ _).trans (Nat.mod_eq_of_lt h), readReg_reserved s⟩

/-! ### The outputs (R36, R114, R115) -/

/-- A carrier is high at `num / den` microseconds exactly in the first CARRIER_DUTY of its period (R114). -/
theorem carrierHigh_iff {c : Params} (hduty : 0 < c.carrierDuty.den) (num : Nat) {den : Nat} (hden : 0 < den) :
    carrierHigh c num den = true ↔
      Int.fract ((num : ℚ) / den * c.carrierHz / 1000000) < c.carrierDuty.toRat := by
  have hperiod : (0 : ℚ) < ((1000000 * den : Nat) : ℚ) := by exact_mod_cast Nat.mul_pos (by decide) hden
  have hcycles : (num : ℚ) / den * c.carrierHz / 1000000 = ((num * c.carrierHz : Nat) : ℚ) / ((1000000 * den : Nat) : ℚ) := by
    push_cast
    field_simp
  rw [hcycles, Int.fract_div_natCast_eq_div_natCast_mod, Ratio.toRat,
    div_lt_div_iff₀ hperiod (by exact_mod_cast hduty), carrierHigh, decide_eq_true_iff]
  exact_mod_cast Iff.rfl

/-- Inside a burst `ir_tx` is the carrier, counted from the burst's start (R114). -/
theorem irTxAt_burst {s : State} (hl : s.cfg.legal = true) (henv : s.tx.irEnv = true) (num : Nat) {den : Nat}
    (hden : 0 < den) :
    irTxAt s num den = true ↔
      Int.fract ((((s.now - burstStart s : Nat) : ℚ) + (num : ℚ) / den) * s.cfg.carrierHz / 1000000) <
        s.cfg.carrierDuty.toRat := by
  obtain ⟨-, -, -, -, hderived, -⟩ := s.cfg.legal_iff.mp hl
  obtain ⟨-, -, -, hduty, -⟩ := s.cfg.derivedAgree_iff.mp hderived
  have hden' : (den : ℚ) ≠ 0 := by exact_mod_cast hden.ne'
  have htime : (((s.now - burstStart s : Nat) : ℚ) + (num : ℚ) / den) =
      (((s.now - burstStart s) * den + num : Nat) : ℚ) / den := by
    push_cast
    field_simp
  rw [htime, ← carrierHigh_iff hduty _ hden, irTxAt, henv, Bool.true_and]

/-- The whole carrier cycles of a burst are the floor of their number (R115). -/
theorem carrierCycles_eq_floor (c : Params) (d : Nat) :
    (carrierCycles c d : Int) = ⌊(d : ℚ) * c.carrierHz / 1000000⌋ := by
  have hfloor := Rat.floor_natCast_div_natCast (d * c.carrierHz) 1000000
  push_cast at hfloor
  rw [hfloor, carrierCycles]
  push_cast
  rfl

/-- Settles O51. -/
theorem outputsFollowState : Obligations.OutputsFollowState := by
  intro s m num den d
  refine ⟨fun hoff => ?_, fun hon => ?_, fun henv => ?_, fun hl hden henv => ?_, carrierCycles_eq_floor _ _, by decide⟩
  · simp [enablePin, hoff]
  · simp [enablePin, hon]
  · simp [irTxAt, henv]
  · rw [encodeFrame_getElem]
    exact irTxAt_burst hl henv num hden

end Sys2Proof.Machine
end

section
/-! Family 20_memory (spec/20_memory.md): who may write which part of the state (R62), and that with self-hits enabled the hit
queue's depth does not show (R65). -/

namespace Sys2Proof.Machine

/-! ### The frame of TICK (R62) -/

/-- Settles O45. -/
theorem tickFrame : Obligations.TickFrame := by
  intro s hrun
  refine ⟨tick s.clearOut, exec_tick_run hrun, tick_frame s.clearOut, ?_⟩
  rw [tick_mailbox]
  exact tickSession_tInput s.clearOut

/-! ### The rows of the single-writer table (R62) -/

/-- The row of an instruction in the table of R62: what it may write is taken from `u`, all else from `s`. An operation of a pin
writes that pin's receiver alone. What an instruction answers stands in no row. -/
def writeRow (i : Instr) (s u : State) : State :=
  match i with
  | .cmdWrite _ => { s with mailbox := u.mailbox }
  | .cfgWrite _ _ => { s with ownId := u.ownId, selfhitEn := u.selfhitEn }
  | .edge p _ _ | .edgeSync p _ | .rxRise p _ =>
    { s.setRx (pinIndex p) (u.rxAt (pinIndex p)) with hitq := u.hitq, draws := u.draws }
  | .rxFall p _ => { s.setRx (pinIndex p) (u.rxAt (pinIndex p)) with draws := u.draws }
  | .hitPush _ _ => { s with hitq := u.hitq, draws := u.draws }
  | .shutdown => { s with tx := u.tx, mot := u.mot, driveEnable := u.driveEnable, runState := u.runState }
  | .boot _ => { s with driveEnable := u.driveEnable, runState := u.runState }
  | .tick =>
    { s with
      tLastTick := u.tLastTick, hitq := u.hitq, mailbox := { s.mailbox with tInput := u.mailbox.tInput }
      session := u.session, flags := u.flags, tx := u.tx, mot := u.mot, driveEnable := u.driveEnable }
  | .hitTake => { s with hitq := u.hitq, session := u.session }
  | .hitExpire _ _ => { s with session := u.session, mailbox := { s.mailbox with tInput := u.mailbox.tInput } }
  | .safetyStop => { s with flags := u.flags }
  | .standbyUpdate => { s with session := u.session, driveEnable := u.driveEnable }
  | .motorApply _ => { s with mot := u.mot }
  | .fireDispatch => { s with flags := u.flags, tx := u.tx }
  | .txRequest _ | .txStep => { s with tx := u.tx }
  | _ => s

theorem setRx_self (s : State) (p : Fin 16) : s.setRx p (s.rxAt p) = s := by
  rw [State.setRx, State.rxAt, Vector.set_getElem_self]

/-- An instruction that leaves the state stays in its row. -/
theorem writeRow_self (i : Instr) (s : State) : writeRow i s s = s := by
  cases i with
  | edge p | edgeSync p | rxRise p | rxFall p => exact setRx_self s (pinIndex p)
  | _ => rfl

/-- The answer before is in no row. -/
theorem writeRow_clearOut (i : Instr) (s u : State) (o : Out) :
    { writeRow i s.clearOut u with out := o } = { writeRow i s u with out := o } := by
  cases i <;> rfl

/-- A receiver operation's frame, with the array of receivers written at its own pin alone (R140). -/
theorem eq_setRx_of_frame {s t : State} {p : Fin 16}
    (hframe : t = { s with rx := t.rx, hitq := t.hitq, draws := t.draws, out := t.out })
    (hother : ∀ q, q ≠ p → t.rxAt q = s.rxAt q) :
    t = { s.setRx p (t.rxAt p) with hitq := t.hitq, draws := t.draws, out := t.out } := by
  have hrx : t.rx = s.rx.set p.val (t.rxAt p) := by
    ext k hk : 1
    by_cases hkp : p.val = k
    · subst hkp
      exact (Vector.getElem_set_self _).symm
    · rw [Vector.getElem_set_ne _ _ hkp]
      exact hother ⟨k, hk⟩ fun he => hkp (congrArg Fin.val he).symm
  conv_lhs => rw [hframe, hrx]
  rfl

/-- EDGE_SYNC changes its receiver, the queue, the free values drawn and the answer, nothing else (R140). -/
theorem runEdgeSync_frame (s : State) (p : Fin 16) (v : Bool) :
    let t := runEdgeSync s p v
    t = { s with rx := t.rx, hitq := t.hitq, draws := t.draws, out := t.out } ∧ ∀ q, q ≠ p → t.rxAt q = s.rxAt q := by
  have hshift (q : Fin 16) (hq : q ≠ p) := rxAt_setRx_other s p q (syncShift (s.rxAt p) v) hq
  rw [runEdgeSync_eq]
  split
  · exact ⟨rfl, hshift⟩
  · obtain ⟨hframe, hother⟩ := runEdge_frame (s.setRx p (syncShift (s.rxAt p) v)) p (s.rxAt p).s1 s.now
    exact ⟨hframe, fun q hq => (hother q hq).trans (hshift q hq)⟩

theorem runEdgeSync_ownPin (s : State) (p : Fin 16) (v : Bool) :
    let t := runEdgeSync s p v
    t = { s.setRx p (t.rxAt p) with hitq := t.hitq, draws := t.draws, out := t.out } := by
  obtain ⟨hframe, hother⟩ := runEdgeSync_frame s p v
  exact eq_setRx_of_frame hframe hother

theorem runEdge_ownPin (s : State) (p : Fin 16) (l : Bool) (ts : Nat) :
    let t := runEdge s p l ts
    t = { s.setRx p (t.rxAt p) with hitq := t.hitq, draws := t.draws, out := t.out } := by
  obtain ⟨hframe, hother⟩ := runEdge_frame s p l ts
  exact eq_setRx_of_frame hframe hother

/-- The body of an operation writes its row only. -/
theorem runBody_writeRow (i : Instr) (s : State) : ∃ u o, runBody i s = { writeRow i s u with out := o } := by
  cases i with
  | cmdWrite w =>
    rw [runBody_cmdWrite]
    by_cases hl : commandLegal w = true
    · rw [if_pos hl]; exact ⟨acceptCommand s (commandOf w), _, rfl⟩
    · rw [if_neg hl]; exact ⟨s, _, rfl⟩
  | cfgWrite reg data => exact ⟨configWrite s reg.toNat data, _, configWrite_frame s _ _⟩
  | edge p l ts => exact ⟨runEdge s (pinIndex p) l ts.toNat, _, runEdge_ownPin s _ _ _⟩
  | rxFall p ts => exact ⟨runEdge s (pinIndex p) false ts.toNat, _, runEdge_ownPin s (pinIndex p) false ts.toNat⟩
  | rxRise p ts => exact ⟨runEdge s (pinIndex p) true ts.toNat, _, runEdge_ownPin s (pinIndex p) true ts.toNat⟩
  | edgeSync p v => exact ⟨runEdgeSync s (pinIndex p) v, _, runEdgeSync_ownPin s _ v⟩
  | hitPush id ts =>
    exact ⟨{ hitPush (s.timed ts.toNat) id (opTime s ts.toNat) with draws := (s.timed ts.toNat).draws }, _,
      pushHit_frame (s.timed ts.toNat) _⟩
  | shutdown => exact ⟨shutdown s, _, rfl⟩
  | tick => exact ⟨{ tick s with tLastTick := s.now, hitq := [] }, _, tick_frame s⟩
  | txRequest id => exact ⟨(txRequest s id).2, _, txRequest_frame s id⟩
  | txStep =>
    change ∃ u o, (if s.tx.busy then txStep s else s) = { writeRow .txStep s u with out := o }
    split
    · exact ⟨txStep s, _, txStep_frame s⟩
    · exact ⟨s, _, rfl⟩
  | hitTake => exact ⟨{ (hitTake s).2 with hitq := [] }, _, hitTake_frame s⟩
  | hitExpire el b => exact ⟨hitExpire s el.toNat b, _, hitExpire_frame s _ _⟩
  | safetyStop => exact ⟨(safetyStop s).2, _, rfl⟩
  | standbyUpdate => exact ⟨standbyUpdate s, _, rfl⟩
  | motorApply halt => exact ⟨motorApply s halt, _, motorApply_frame s halt⟩
  | fireDispatch => exact ⟨fireDispatch s, _, fireDispatch_frame s⟩
  | _ => exact ⟨s, _, rfl⟩

/-- Every instruction but RESET writes its row and its answer only. -/
theorem exec_writeRow {i : Instr} {s t : State} (h : exec i s = .next t) (hr : i ≠ .reset) :
    ∃ u o, t = { writeRow i s u with out := o } := by
  obtain hi | ⟨r, rfl⟩ | ⟨o, rfl⟩ | ⟨-, -, o, rfl⟩ := exec_next h
  · exact absurd hi hr
  · obtain ⟨-, rfl⟩ | ⟨-, -, rfl⟩ | ⟨-, -, rfl⟩ := execBoot_next h
    · exact ⟨s, _, rfl⟩
    · exact ⟨{ s with runState := .run, driveEnable := true }, _, rfl⟩
    · exact ⟨{ s with runState := .fatal }, _, rfl⟩
  · exact ⟨s, o, by rw [writeRow_self]⟩
  · obtain ⟨u, _, hu⟩ := runBody_writeRow i s.clearOut
    exact ⟨u, o, by rw [hu, writeRow_clearOut]⟩

/-! ### The columns of the single-writer table (R62) -/

theorem writeRow_command {i : Instr} (s u : State) (hw : ∀ w, i ≠ .cmdWrite w) :
    (writeRow i s u).mailbox.cmd = s.mailbox.cmd ∧ (writeRow i s u).mailbox.valid = s.mailbox.valid ∧
      (writeRow i s u).mailbox.tCmd = s.mailbox.tCmd := by
  cases i with
  | cmdWrite w => exact absurd rfl (hw w)
  | _ => exact ⟨rfl, rfl, rfl⟩

theorem writeRow_tInput {i : Instr} (s u : State) (hw : ∀ w, i ≠ .cmdWrite w) (ht : i ≠ .tick)
    (he : ∀ a b, i ≠ .hitExpire a b) : (writeRow i s u).mailbox.tInput = s.mailbox.tInput := by
  cases i with
  | cmdWrite w => exact absurd rfl (hw w)
  | tick => exact absurd rfl ht
  | hitExpire a b => exact absurd rfl (he a b)
  | _ => rfl

theorem writeRow_config {i : Instr} (s u : State) (hc : ∀ a b, i ≠ .cfgWrite a b) :
    (writeRow i s u).ownId = s.ownId ∧ (writeRow i s u).selfhitEn = s.selfhitEn := by
  cases i with
  | cfgWrite a b => exact absurd rfl (hc a b)
  | _ => exact ⟨rfl, rfl⟩

theorem writeRow_session {i : Instr} (s u : State) (ht : i ≠ .tick) (hh : i ≠ .hitTake) (he : ∀ a b, i ≠ .hitExpire a b)
    (hs : i ≠ .standbyUpdate) : (writeRow i s u).session = s.session := by
  cases i with
  | tick => exact absurd rfl ht
  | hitTake => exact absurd rfl hh
  | hitExpire a b => exact absurd rfl (he a b)
  | standbyUpdate => exact absurd rfl hs
  | _ => rfl

theorem writeRow_flags {i : Instr} (s u : State) (ht : i ≠ .tick) (hs : i ≠ .safetyStop) (hf : i ≠ .fireDispatch) :
    (writeRow i s u).flags = s.flags := by
  cases i with
  | tick => exact absurd rfl ht
  | safetyStop => exact absurd rfl hs
  | fireDispatch => exact absurd rfl hf
  | _ => rfl

theorem writeRow_tLastTick {i : Instr} (s u : State) (ht : i ≠ .tick) : (writeRow i s u).tLastTick = s.tLastTick := by
  cases i with
  | tick => exact absurd rfl ht
  | _ => rfl

theorem writeRow_draws {i : Instr} (s u : State) (hp : ∀ a b, i ≠ .hitPush a b) (hf : ∀ p a, i ≠ .rxFall p a)
    (hr : ∀ p a, i ≠ .rxRise p a) (he : ∀ p l a, i ≠ .edge p l a) (hs : ∀ p v, i ≠ .edgeSync p v) :
    (writeRow i s u).draws = s.draws := by
  cases i with
  | hitPush a b => exact absurd rfl (hp a b)
  | rxFall p a => exact absurd rfl (hf p a)
  | rxRise p a => exact absurd rfl (hr p a)
  | edge p l a => exact absurd rfl (he p l a)
  | edgeSync p v => exact absurd rfl (hs p v)
  | _ => rfl

theorem writeRow_hitq {i : Instr} (s u : State) (ht : i ≠ .tick) (hh : i ≠ .hitTake) (hp : ∀ a b, i ≠ .hitPush a b)
    (hr : ∀ p a, i ≠ .rxRise p a) (he : ∀ p l a, i ≠ .edge p l a) (hs : ∀ p v, i ≠ .edgeSync p v) :
    (writeRow i s u).hitq = s.hitq := by
  cases i with
  | tick => exact absurd rfl ht
  | hitTake => exact absurd rfl hh
  | hitPush a b => exact absurd rfl (hp a b)
  | rxRise p a => exact absurd rfl (hr p a)
  | edge p l a => exact absurd rfl (he p l a)
  | edgeSync p v => exact absurd rfl (hs p v)
  | _ => rfl

/-- Writing another pin's receiver is no write of this one's (R140). -/
theorem rxAt_setRx_of_pin_ne {p q : BitVec 4} (s : State) (r : RxState) (h : p ≠ q) :
    (s.setRx (pinIndex p) r).rxAt (pinIndex q) = s.rxAt (pinIndex q) :=
  rxAt_setRx_other s _ _ r fun he => h (pinIndex_inj he).symm

theorem writeRow_rxAt {i : Instr} (s u : State) {q : BitVec 4} (hf : ∀ a, i ≠ .rxFall q a) (hr : ∀ a, i ≠ .rxRise q a)
    (he : ∀ l a, i ≠ .edge q l a) (hs : ∀ v, i ≠ .edgeSync q v) :
    (writeRow i s u).rxAt (pinIndex q) = s.rxAt (pinIndex q) := by
  cases i with
  | rxFall p a => exact rxAt_setRx_of_pin_ne s _ fun hpq => hf a (hpq ▸ rfl)
  | rxRise p a => exact rxAt_setRx_of_pin_ne s _ fun hpq => hr a (hpq ▸ rfl)
  | edge p l a => exact rxAt_setRx_of_pin_ne s _ fun hpq => he l a (hpq ▸ rfl)
  | edgeSync p v => exact rxAt_setRx_of_pin_ne s _ fun hpq => hs v (hpq ▸ rfl)
  | _ => rfl

theorem writeRow_tx {i : Instr} (s u : State) (ht : i ≠ .tick) (hf : i ≠ .fireDispatch) (hq : ∀ a, i ≠ .txRequest a)
    (hx : i ≠ .txStep) (hd : i ≠ .shutdown) : (writeRow i s u).tx = s.tx := by
  cases i with
  | tick => exact absurd rfl ht
  | fireDispatch => exact absurd rfl hf
  | txRequest a => exact absurd rfl (hq a)
  | txStep => exact absurd rfl hx
  | shutdown => exact absurd rfl hd
  | _ => rfl

theorem writeRow_mot {i : Instr} (s u : State) (ht : i ≠ .tick) (hm : ∀ h, i ≠ .motorApply h) (hd : i ≠ .shutdown) :
    (writeRow i s u).mot = s.mot := by
  cases i with
  | tick => exact absurd rfl ht
  | motorApply h => exact absurd rfl (hm h)
  | shutdown => exact absurd rfl hd
  | _ => rfl

theorem writeRow_driveEnable {i : Instr} (s u : State) (ht : i ≠ .tick) (hs : i ≠ .standbyUpdate) (hd : i ≠ .shutdown)
    (hb : ∀ r, i ≠ .boot r) : (writeRow i s u).driveEnable = s.driveEnable := by
  cases i with
  | tick => exact absurd rfl ht
  | standbyUpdate => exact absurd rfl hs
  | shutdown => exact absurd rfl hd
  | boot r => exact absurd rfl (hb r)
  | _ => rfl

/-- Settles O52: what an instruction leaves is its row of the table, read column by column. -/
theorem singleWriterTable : Obligations.SingleWriterTable := by
  intro i s t h hr
  obtain ⟨hcfg, hnow, henv, hagenda⟩ := exec_keeps_clock h hr
  have hrunState := exec_runState h hr
  obtain ⟨u, o, rfl⟩ := exec_writeRow h hr
  exact ⟨hcfg, hnow, henv, hagenda, writeRow_command s u, writeRow_tInput s u, writeRow_config s u, writeRow_session s u,
    writeRow_flags s u, writeRow_tLastTick s u, writeRow_draws s u, writeRow_hitq s u, fun _ => writeRow_rxAt s u,
    writeRow_tx s u, writeRow_mot s u, writeRow_driveEnable s u, hrunState⟩

/-! ### The queue's depth (R64, R65) -/

/-- A run of pushes changes the queue and the answer, nothing else. -/
theorem foldl_pushHit_frame (events : List HitEvent) (s : State) :
    events.foldl pushHit s =
      { s with hitq := (events.foldl pushHit s).hitq, out := (events.foldl pushHit s).out } := by
  induction events generalizing s with
  | nil => rfl
  | cons e events ih =>
    rw [List.foldl_cons, ih, pushHit_frame]

/-- The unbounded queue holds every event pushed. -/
theorem foldl_pushHit_unbounded {s : State} (h : s.cfg.hitqDepth = none) (events : List HitEvent) :
    (events.foldl pushHit s).hitq = s.hitq ++ events := by
  induction events generalizing s with
  | nil => exact (List.append_nil _).symm
  | cons e events ih =>
    have hroom : queueHasRoom s.cfg s.hitq = true := (queueHasRoom_iff _ _).mpr fun d hd => nomatch h.symm.trans hd
    rw [List.foldl_cons, ih (by rw [pushHit_frame]; exact h), pushHit_hitq, if_pos hroom, List.append_assoc,
      List.singleton_append]

/-- The bounded queue takes the events pushed first, as many as it has room for. -/
theorem foldl_pushHit_bounded {s : State} {d : Nat} (h : s.cfg.hitqDepth = some d) (events : List HitEvent) :
    (events.foldl pushHit s).hitq = s.hitq ++ events.take (d - s.hitq.length) := by
  induction events generalizing s with
  | nil => rw [List.take_nil, List.append_nil]; rfl
  | cons e events ih =>
    have hroom : queueHasRoom s.cfg s.hitq = true ↔ s.hitq.length < d := by
      rw [queueHasRoom_iff, h]
      exact ⟨fun hd => hd d rfl, fun hd _ he => Option.some.inj he ▸ hd⟩
    rw [List.foldl_cons, ih (by rw [pushHit_frame]; exact h), pushHit_hitq]
    by_cases hlt : s.hitq.length < d
    · rw [if_pos (hroom.mpr hlt), List.length_append, List.length_singleton,
        show d - s.hitq.length = d - (s.hitq.length + 1) + 1 by omega, List.take_succ_cons, List.append_assoc,
        List.singleton_append]
    · rw [if_neg fun hr => hlt (hroom.mp hr), Nat.sub_eq_zero_of_le (Nat.le_of_not_lt hlt), List.take_zero, List.take_zero]

/-- A bound of at least 1 never costs the queue its first event. -/
theorem head?_append_take (q events : List HitEvent) {d : Nat} (hd : 1 ≤ d) :
    (q ++ events.take (d - q.length)).head? = (q ++ events).head? := by
  cases q with
  | nil => rw [List.nil_append, List.nil_append, List.head?_take, List.length_nil, Nat.sub_zero, if_neg (Nat.ne_of_gt hd)]
  | cons e q => rfl

/-! ### A tick reads the queue's first event only (R65, R182) -/

/-- The state under another depth of the hit queue, with another queue and another answer. -/
def State.underQueue (s : State) (depth : Option Nat) (q : List HitEvent) (o : Out) : State :=
  { s with cfg := { s.cfg with hitqDepth := depth }, hitq := q, out := o }

/-- In the lockout HIT_TAKE discards the whole queue (R191). -/
theorem hitTake_of_active {s : State} (hact : s.session.hitActive = true) : ∃ o,
    hitTake s = (false, { s with hitq := [], out := o }) :=
  ⟨_, drainHits_discards s.hitq _ _ s rfl (Nat.le_refl _) fun e _ => by rw [hact]; rfl⟩

/-- On an empty queue HIT_TAKE does nothing. -/
theorem hitTake_of_nil {s : State} (hq : s.hitq = []) : hitTake s = (false, s) := by
  rw [hitTake, hq]
  rfl

/-- Outside the lockout, with self-hits enabled, HIT_TAKE takes the first event and discards the rest. -/
theorem hitTake_of_cons {s : State} {e : HitEvent} {q : List HitEvent} (hact : s.session.hitActive = false)
    (hself : s.selfhitEn = true) (hq : s.hitq = e :: q) : ∃ o,
    hitTake s = (true, { enterLockout s e with hitq := [], out := o }) :=
  ⟨_, drainHits_takes [] q e _ _ s hq (Nat.le_refl _) hact nofun (by rw [hself]; rfl)⟩

/-- With self-hits enabled HIT_TAKE reads the queue's first event only. -/
theorem hitTake_underQueue {s : State} {q : List HitEvent} (hself : s.selfhitEn = true) (hhead : q.head? = s.hitq.head?)
    (depth : Option Nat) (o : Out) : ∃ o',
      hitTake (s.underQueue depth q o) = ((hitTake s).1, (hitTake s).2.underQueue depth [] o') := by
  cases hact : s.session.hitActive with
  | true =>
    obtain ⟨o₁, h₁⟩ := hitTake_of_active (s := s.underQueue depth q o) hact
    obtain ⟨o₂, h₂⟩ := hitTake_of_active hact
    exact ⟨o₁, by rw [h₁, h₂]; rfl⟩
  | false =>
    cases q with
    | nil =>
      have hq : s.hitq = [] := List.head?_eq_none_iff.mp hhead.symm
      exact ⟨o, by rw [hitTake_of_nil hq, hitTake_of_nil rfl]⟩
    | cons e q =>
      obtain ⟨q', hq⟩ := List.head?_eq_some_iff.mp hhead.symm
      obtain ⟨o₁, h₁⟩ := hitTake_of_cons (s := s.underQueue depth (e :: q) o) hact hself rfl
      obtain ⟨o₂, h₂⟩ := hitTake_of_cons hact hself hq
      exact ⟨o₁, by rw [h₁, h₂]; rfl⟩

theorem hitExpire_underQueue (s : State) (depth : Option Nat) (q : List HitEvent) (o : Out) (el : Nat) (b : Bool) :
    hitExpire (s.underQueue depth q o) el b = (hitExpire s el b).underQueue depth q o := by
  unfold hitExpire
  rw [apply_ite (State.underQueue · depth q o), apply_ite (State.underQueue · depth q o)]
  rfl

theorem motorApply_underQueue (s : State) (depth : Option Nat) (q : List HitEvent) (o : Out) (halt : Bool) :
    motorApply (s.underQueue depth q o) halt = (motorApply s halt).underQueue depth q o := by
  cases halt <;> rfl

/-- FIRE_DISPATCH by its four cases (R202). -/
theorem fireDispatch_eq (s : State) :
    let f (refused dropped : Bool) : TickFlags := { s.flags with fireRefused := refused, fireDropped := dropped }
    fireDispatch s =
      if s.mailbox.valid && s.mailbox.cmd.fire then
        if s.session.hitActive then { s with flags := f true false }.note .fireWhileDisabled
        else if s.tx.busy then { s with flags := f false true }.note .txInFlight
        else { s with
          flags := f false false
          tx := { busy := true, id := s.mailbox.cmd.teamId, idx := 0, phase := .burst,
                  deadline := s.now + frameDuration s.cfg s.mailbox.cmd.teamId 0, irEnv := true } }
      else { s with flags := f false false } := by
  unfold fireDispatch txRequest
  dsimp only
  cases s.session.hitActive <;> cases s.tx.busy <;> rfl

theorem fireDispatch_underQueue (s : State) (depth : Option Nat) (q : List HitEvent) (o : Out) :
    ∃ o', fireDispatch (s.underQueue depth q o) = (fireDispatch s).underQueue depth q o' := by
  rw [fireDispatch_eq, fireDispatch_eq]
  change ∃ o', (if s.mailbox.valid && s.mailbox.cmd.fire then
    if s.session.hitActive then _ else if s.tx.busy then _ else _ else _) = _
  split
  · split
    · exact ⟨_, rfl⟩
    · split <;> exact ⟨_, rfl⟩
  · exact ⟨_, rfl⟩

/-- With self-hits enabled a tick reads of the queue its first event only, and its depth not at all. -/
theorem tick_underQueue {s : State} {q : List HitEvent} (hself : s.selfhitEn = true) (hhead : q.head? = s.hitq.head?)
    (depth : Option Nat) (o : Out) : ∃ o', tick (s.underQueue depth q o) = (tick s).underQueue depth [] o' := by
  obtain ⟨o₁, htake⟩ := hitTake_underQueue (s := { s with tLastTick := s.now }) hself hhead depth o
  have hsession : tickSession (s.underQueue depth q o) = ((tickSession s).1, (tickSession s).2.underQueue depth [] o₁) := by
    unfold tickSession
    change (let h := hitTake (State.underQueue { s with tLastTick := s.now } depth q o)
      let p := safetyStop (hitExpire h.2 (s.now - s.tLastTick) h.1)
      (p.1, standbyUpdate p.2)) = _
    rw [htake]
    dsimp only
    rw [hitExpire_underQueue]
    rfl
  rw [tick_eq, tick_eq, hsession]
  change ∃ o', fireDispatch (motorApply ((tickSession s).2.underQueue depth [] o₁) _) = _
  rw [motorApply_underQueue]
  exact fireDispatch_underQueue _ depth [] o₁

/-- Settles O39: under every bound the queue has the same first event, and a tick reads no other. -/
theorem queueDepthUnobservable : Obligations.QueueDepthUnobservable := by
  intro s events d hrun hself hd pushed
  have hunbounded : (pushed none).hitq = s.hitq ++ events := foldl_pushHit_unbounded rfl events
  have hbounded : (pushed (some d)).hitq = s.hitq ++ events.take (d - s.hitq.length) := foldl_pushHit_bounded rfl events
  refine ⟨hunbounded, fun hle => ?_, ?_⟩
  · rw [hbounded, List.take_append, List.take_of_length_le hle]
  · have hframe (depth : Option Nat) : pushed depth = s.underQueue depth (pushed depth).hitq (pushed depth).out :=
      foldl_pushHit_frame events _
    have hhead : (pushed (some d)).hitq.head? = (pushed none).hitq.head? := by
      rw [hbounded, hunbounded, head?_append_take _ _ hd]
    have hsame : (pushed (some d)).clearOut = (pushed none).clearOut.underQueue (some d) (pushed (some d)).hitq {} := by
      rw [hframe none, hframe (some d)]
      rfl
    have hrunning (depth : Option Nat) : (pushed depth).runState = .run := by rw [hframe]; exact hrun
    have hselfhit : (pushed none).clearOut.selfhitEn = true := by rw [hframe]; exact hself
    obtain ⟨o, htick⟩ := tick_underQueue hselfhit hhead (some d) {}
    refine ⟨_, _, exec_tick_run (hrunning _), exec_tick_run (hrunning _), ?_, ?_⟩
    · rw [hsame, htick]; rfl
    · rw [hsame, htick, tick_frame (pushed none).clearOut]; rfl

end Sys2Proof.Machine
end

section
/-! Family 30_encoding (spec/30_encoding.md): where the fields of the command word, the frame and the records stand, and which op bytes
are operations. -/

namespace Sys2Proof.Machine

/-! ### Op bytes (R96) -/

/-- The op bytes whose payload has a layout are R96's list. -/
theorem mem_of_opWidths {n : Nat} {ws : List Nat} (h : opWidths n = some ws) :
    n ∈ [0x00, 0x01, 0x02, 0x03, 0x04, 0x05, 0x10, 0x11, 0x12, 0x13, 0x14, 0x20, 0x21, 0x22, 0x23, 0x24, 0x25, 0x26,
      0x27, 0x28, 0x30, 0x31, 0x32, 0x33, 0x34, 0x35] := by
  unfold opWidths at h
  split at h
  case h_27 => cases h
  all_goals decide

/-- An op byte with no layout is refused by the decoder before it reads the payload. -/
theorem decode_of_opWidths_none {op : Byte} (h : opWidths op.toNat = none) (payload : List Byte) :
    decode ⟨.op, op :: payload⟩ = .error (.unknownOperation op) := by
  simp only [decode, decodeOp, h]

/-- A word that does not decode is refused with the decoder's reason. -/
theorem perform_of_decode_error {w : TraceWord} {e : DecodeError} (h : decode w = .error e) (s : State) :
    perform w s = .refused (.undecodable e) := by
  simp only [perform, h]

/-- Settles O3: an unlisted op byte has no layout. -/
theorem unlistedOpByteRefused : Obligations.UnlistedOpByteRefused := by
  intro op payload s hop
  have hnone : opWidths op.toNat = none := Option.eq_none_iff_forall_ne_some.mpr fun _ h => hop (mem_of_opWidths h)
  exact perform_of_decode_error (decode_of_opWidths_none hnone payload) s

/-- Settles O1, word by word. -/
theorem specWordsDecode : Obligations.SpecWordsDecode := by
  refine ⟨?_, ?_, ?_, ?_, ?_, ?_, ?_, ?_, ?_, ?_⟩ <;> decide

/-! ### The command word (R88 to R90) -/

theorem axisInRange_iff (v : BitVec 16) : axisInRange v = true ↔ -16384 ≤ v.toInt ∧ v.toInt ≤ 16384 := by
  simp [axisInRange]

theorem speedInRange_iff (v : BitVec 16) : speedInRange v = true ↔ v.toNat ≤ 16384 := decide_eq_true_iff

theorem Command.inRange_iff (c : Command) : c.inRange = true ↔
    (-16384 ≤ c.vx.toInt ∧ c.vx.toInt ≤ 16384) ∧ (-16384 ≤ c.vy.toInt ∧ c.vy.toInt ≤ 16384) ∧
      (-16384 ≤ c.omega.toInt ∧ c.omega.toInt ≤ 16384) ∧ c.speed.toNat ≤ 16384 := by
  simp only [Command.inRange, Bool.and_eq_true, axisInRange_iff, speedInRange_iff, and_assoc]

theorem commandLegal_iff (w : BitVec 80) :
    commandLegal w = true ↔ (commandOf w).inRange = true ∧ w.extractLsb' 66 6 = 0 := by
  simp only [commandLegal, Bool.and_eq_true, beq_iff_eq]

theorem Command.pack_reserved (c : Command) : c.pack.extractLsb' 66 6 = 0 :=
  extractLsb'_eq_of_bits fun i hi => by rw [Command.pack_getLsbD]; grind

/-- A packed command's reserved bits are zero, so its fields decide. -/
theorem commandLegal_pack_iff (c : Command) : commandLegal c.pack = true ↔ c.inRange = true := by
  rw [commandLegal_iff, commandOf_pack]
  exact and_iff_left c.pack_reserved

/-- A bit of a field that is zero is zero. -/
theorem getLsbD_of_extractLsb'_eq_zero {n w k i : Nat} {x : BitVec n} (h : x.extractLsb' k w = 0) (hk : k ≤ i)
    (hi : i < k + w) : x.getLsbD i = false := by
  have hbit : (x.extractLsb' k w).getLsbD (i - k) = x.getLsbD i := by
    rw [BitVec.getLsbD_extractLsb', Nat.add_sub_cancel' hk, decide_eq_true (by omega), Bool.true_and]
  rw [← hbit, h]
  exact BitVec.getLsbD_zero

/-- Settles O14: a word is legal by its fields and its reserved bits, and a packed command reads back. -/
theorem commandWordFields : Obligations.CommandWordFields := by
  refine ⟨fun _ => rfl, fun c => ⟨commandOf_pack c, ?_⟩, fun w => ?_, fun w k hlo hhi hbit => ?_, fun _ _ => rfl⟩
  · rw [commandLegal_pack_iff, Command.inRange_iff]
  · rw [commandLegal_iff, commandLegal_pack_iff]
  · by_contra hlegal
    obtain ⟨-, hreserved⟩ := (commandLegal_iff w).mp (Bool.of_not_eq_false hlegal)
    rw [getLsbD_of_extractLsb'_eq_zero hreserved hlo (Nat.lt_succ_of_le hhi)] at hbit
    cases hbit

/-! ### Symbols and frames (R81 to R87) -/

theorem symbolOfCode_eq_startEnd (b : BitVec 2) : symbolOfCode b = .startEnd ↔ b = 0b11#2 := by
  revert b; decide

theorem symbolOfCode_eq_bit (b : BitVec 2) (x : Bool) :
    symbolOfCode b = symbolOfBit x ↔ b = if x then 0b10#2 else 0b01#2 := by
  revert b x; decide

/-- Eight symbols are an identifier's, highest bit first, exactly when position `8 - k` is its bit `k`. -/
theorem interior_eq_symbolsOf_iff (f : Fin 10 → Symbol) (id : Byte) :
    [f 1, f 2, f 3, f 4, f 5, f 6, f 7, f 8] = symbolsOf 8 id.toNat ↔
      ∀ k : Fin 8, f ⟨8 - k.val, by omega⟩ = symbolOfBit (id.getLsbD k.val) := by
  simp only [symbolsOf, List.cons.injEq, BitVec.testBit_toNat, and_true]
  constructor
  · rintro ⟨h1, h2, h3, h4, h5, h6, h7, h8⟩ k
    fin_cases k
    exacts [h8, h7, h6, h5, h4, h3, h2, h1]
  · exact fun h => ⟨h 7, h 6, h 5, h 4, h 3, h 2, h 1, h 0⟩

/-- Ten symbols are an identifier's frame exactly when the ends are START_END and the interior is its bits (R83, R84). -/
theorem decodeSymbols_eq_some_iff (f : Fin 10 → Symbol) (id : Byte) :
    decodeSymbols f = some id ↔ f 0 = .startEnd ∧ f 9 = .startEnd ∧
      ∀ k : Fin 8, f ⟨8 - k.val, by omega⟩ = symbolOfBit (id.getLsbD k.val) := by
  rw [decodeSymbols, Option.ite_none_right_eq_some, bitsValue_eq_iff, interior_eq_symbolsOf_iff, and_assoc]

/-- Settles O49: a symbol at a position is the reading of its two bits. -/
theorem symbolAndFrameReadings : Obligations.SymbolAndFrameReadings := by
  refine fun s => ⟨rfl, rfl, rfl, rfl, fun codes => ⟨_, rfl, fun id => ?_⟩⟩
  rw [decodeSymbols_eq_some_iff]
  refine and_congr (symbolOfCode_eq_startEnd _) (and_congr (symbolOfCode_eq_startEnd _) (forall_congr' fun k => ?_))
  have hpos : 9 - (8 - k.val) = k.val + 1 := by omega
  rw [frameSymbol, symbolOfCode_eq_bit, hpos]

/-- A frame is START_END, the identifier's bits from bit 7 down, and START_END (R110). -/
theorem encodeFrame_toList (c : Params) (id : Byte) :
    (encodeFrame c id).toList = [c.tStartEnd] ++
      ((List.range 8).map fun k => if id.getLsbD k then c.tBit1 else c.tBit0).reverse ++ [c.tStartEnd] := rfl

/-- The sum over a list of one of two lengths, by how many elements take the first. -/
theorem sum_map_ite_eq_length_filter (p : Nat → Bool) (a b : Nat) (l : List Nat) :
    (l.map fun k => if p k then a else b).sum = (l.filter p).length * a + (l.length - (l.filter p).length) * b := by
  induction l with
  | nil => simp
  | cons k l ih =>
    have hle := List.length_filter_le p l
    rw [List.map_cons, List.sum_cons, ih, List.length_cons]
    cases hp : p k with
    | true => rw [List.filter_cons_of_pos hp, List.length_cons, if_pos rfl, Nat.add_sub_add_right]; ring
    | false => rw [List.filter_cons_of_neg (by simp [hp]), if_neg Bool.false_ne_true, Nat.sub_add_comm hle]; ring

/-- Settles O18: the two ends, and the interior by the number of one bits. -/
theorem frameBurstsTotal : Obligations.FrameBurstsTotal := by
  intro c id n
  have hinterior : ((List.range 8).map fun k => if id.getLsbD k then c.tBit1 else c.tBit0).sum =
      n * c.tBit1 + (8 - n) * c.tBit0 := sum_map_ite_eq_length_filter ..
  rw [encodeFrame_toList, List.sum_append, List.sum_append, List.sum_reverse, hinterior, List.sum_singleton]
  ring

/-! ### The records (R92, R94, R100) -/

theorem Motor.pack_duty (m : Motor) : m.pack.extractLsb' 0 8 = m.duty :=
  extractLsb'_eq_of_bits fun i hi => by rw [Motor.pack_getLsbD]; grind

theorem HitEvent.pack_receivedAt (e : HitEvent) : e.pack.extractLsb' 0 64 = BitVec.ofNat 64 e.receivedAt :=
  extractLsb'_eq_of_bits fun i hi => by rw [HitEvent.pack_getLsbD]; grind

theorem HitEvent.pack_team (e : HitEvent) : e.pack.extractLsb' 64 8 = e.team :=
  extractLsb'_eq_of_bits fun i hi => by rw [HitEvent.pack_getLsbD]; grind

theorem HitEvent.pack_reserved (e : HitEvent) : e.pack.extractLsb' 73 7 = 0 :=
  extractLsb'_eq_of_bits fun i hi => by rw [HitEvent.pack_getLsbD]; grind

/-- Settles O50: each field of a packed record is the field it was packed from. -/
theorem recordReadings : Obligations.RecordReadings := by
  refine fun s => ⟨fun _ _ => rfl, fun m => ?_, fun e hat => ⟨?_, e.pack_reserved⟩⟩
  · rw [m.pack_duty, m.pack_getLsbD, m.pack_getLsbD, m.pack_getLsbD]
    rfl
  · have htime : (BitVec.ofNat 64 e.receivedAt).toNat = e.receivedAt := (BitVec.toNat_ofNat ..).trans (Nat.mod_eq_of_lt hat)
    rw [e.pack_receivedAt, e.pack_team, e.pack_getLsbD, exec_hitRecord, execHitRecord, htime]
    rfl

end Sys2Proof.Machine
end

section
/-! Family 40_ir_tx (spec/40_ir_tx.md): ENCODE, TX_REQUEST and TX_STEP, and the envelope of a whole transmission. -/

namespace Sys2Proof.Machine

/-! ### ENCODE (R110) -/

theorem frameDuration_first (c : Params) (id : Byte) : frameDuration c id 0 = c.tStartEnd := if_pos (.inl rfl)

theorem frameDuration_last (c : Params) (id : Byte) : frameDuration c id 9 = c.tStartEnd := if_pos (.inr rfl)

/-- Between the ends of a frame stand the identifier's bits, bit 7 first. -/
theorem frameDuration_interior (c : Params) (id : Byte) (k : Fin 8) (h : 1 + k.val < 10) :
    frameDuration c id ⟨1 + k.val, h⟩ = if id.getLsbD (7 - k.val) then c.tBit1 else c.tBit0 := by
  have hinterior : ¬(1 + k.val = 0 ∨ 1 + k.val = 9) := by omega
  have hbit : 8 - (1 + k.val) = 7 - k.val := by omega
  rw [frameDuration, if_neg hinterior, hbit]

/-- Settles O17: the answer is the frame, and its positions are `frameDuration`'s. -/
theorem encodeDurations : Obligations.EncodeDurations := by
  refine fun s id => ⟨encodeFrame s.cfg id, rfl, ?_, ?_, fun k => ?_⟩ <;> rw [encodeFrame_getElem]
  · exact frameDuration_first ..
  · exact frameDuration_last ..
  · exact frameDuration_interior ..

/-! ### TX_REQUEST and TX_STEP (R111, R112) -/

/-- TX_REQUEST under the lockout, whatever the lock. -/
theorem txRequest_of_lockout {s : State} (hlock : s.session.hitActive = true) (id : Byte) :
    txRequest s id = (.refuse, s) := if_pos hlock

/-- TX_REQUEST while a transmission is in flight. -/
theorem txRequest_of_busy {s : State} (hlock : s.session.hitActive = false) (hb : s.tx.busy = true) (id : Byte) :
    txRequest s id = (.drop, s) := by
  rw [txRequest, hlock]
  exact if_pos hb

/-- TX_REQUEST with the lock free. -/
theorem txRequest_of_idle {s : State} (hlock : s.session.hitActive = false) (hb : s.tx.busy = false) (id : Byte) :
    txRequest s id = (.ok, { s with tx :=
      { busy := true, id := id, idx := 0, phase := .burst, deadline := s.now + s.cfg.tStartEnd, irEnv := true } }) := by
  rw [txRequest, hlock, hb, frameDuration_first]
  rfl

/-- Settles O19. -/
theorem txRequestAnswers : Obligations.TxRequestAnswers := by
  intro s id hrun
  rw [exec_txRequest, execTxRequest, whenRunning_run hrun]
  refine ⟨fun hlock => ?_, fun hlock hb => ?_, fun hlock hb => ?_⟩
  · rw [txRequest_of_lockout (s := s.clearOut) hlock]
    rfl
  · rw [txRequest_of_busy (s := s.clearOut) hlock hb]
    rfl
  · rw [txRequest_of_idle (s := s.clearOut) hlock hb]
    rfl

/-- TX_STEP at the end of a burst. -/
theorem txStep_burst {s : State} (hp : s.tx.phase = .burst) :
    txStep s = { s with tx := { s.tx with irEnv := false, phase := .gap, deadline := s.now + s.cfg.txGap } } := by
  rw [txStep, hp]

/-- TX_STEP at the end of the tenth gap. -/
theorem txStep_lastGap {s : State} (hp : s.tx.phase = .gap) (hi : s.tx.idx = 9) :
    txStep s = { s with tx := { s.tx with busy := false } } := by
  rw [txStep, hp]
  exact if_pos (congrArg Fin.val hi)

/-- TX_STEP at the end of an earlier gap. -/
theorem txStep_gap {s : State} (hp : s.tx.phase = .gap) {k : Fin 10} (hk : k.val = s.tx.idx.val + 1) :
    txStep s = { s with tx := { s.tx with
      idx := k, phase := .burst, irEnv := true, deadline := s.now + frameDuration s.cfg s.tx.id k } } := by
  have hi : s.tx.idx.val ≠ 9 := by omega
  have hnext : nextIdx s.tx.idx = k := Fin.ext ((nextIdx_val _ hi).trans hk.symm)
  rw [txStep, hp, ← hnext]
  exact if_neg hi

theorem exec_txStep_idle {s : State} (hrun : s.runState = .run) (hb : s.tx.busy = false) :
    exec .txStep s = .next s.clearOut := by
  rw [exec_txStep, execTxStep, whenRunning_run hrun]
  simp [hb]

/-- Settles O20, phase by phase. -/
theorem txStepEffect : Obligations.TxStepEffect := by
  refine fun s hrun => ⟨exec_txStep_idle hrun, fun hb hp => ?_, fun hb hp hi => ?_, fun hb hp k hk => ?_⟩
  · rw [exec_txStep_run hrun hb, txStep_burst (s := s.clearOut) hp]
    rfl
  · rw [exec_txStep_run hrun hb, txStep_lastGap (s := s.clearOut) hp hi]
    rfl
  · rw [exec_txStep_run hrun hb, txStep_gap (s := s.clearOut) hp hk, encodeFrame_getElem]
    rfl

/-! ### A whole transmission (R113, R117) -/

/-- When symbol `k` starts of a frame that begins at `s.now`: after `k` bursts and their gaps. -/
def symbolStart (s : State) (id : Byte) (k : Nat) : Nat :=
  s.now + ((encodeFrame s.cfg id).toList.take k).sum + k * s.cfg.txGap

/-- The state of `s`'s transmission when symbol `k`'s burst has started. -/
def burstAt (s : State) (id : Byte) (k : Fin 10) : State :=
  { s with
    now := symbolStart s id k
    tx := { busy := true, id := id, idx := k, phase := .burst,
            deadline := symbolStart s id k + frameDuration s.cfg id k, irEnv := true }
    out := {} }

/-- The state of `s`'s transmission when symbol `k`'s gap has started. -/
def gapAt (s : State) (id : Byte) (k : Fin 10) : State :=
  { s with
    now := symbolStart s id k + frameDuration s.cfg id k
    tx := { busy := true, id := id, idx := k, phase := .gap, deadline := symbolStart s id (k + 1), irEnv := false }
    out := {} }

/-- The state of `s`'s transmission when its last gap has ended. -/
def sentAt (s : State) (id : Byte) : State :=
  { gapAt s id 9 with now := symbolStart s id 10, tx := { (gapAt s id 9).tx with busy := false } }

/-- The transmitter's next deadline has come. -/
def atDeadline (s : State) : State := { s with now := s.tx.deadline }

theorem encodeFrame_sum_take_succ (c : Params) (id : Byte) (k : Fin 10) :
    ((encodeFrame c id).toList.take (k + 1)).sum = ((encodeFrame c id).toList.take k).sum + frameDuration c id k := by
  rw [List.sum_take_succ _ _ (by simp), Vector.getElem_toList, encodeFrame_getElem]

/-- A symbol's burst and gap last until the next symbol's start. -/
theorem symbolStart_succ (s : State) (id : Byte) (k : Fin 10) :
    symbolStart s id (k + 1) = symbolStart s id k + frameDuration s.cfg id k + s.cfg.txGap := by
  rw [symbolStart, symbolStart, encodeFrame_sum_take_succ]
  ring

/-- An accepted request starts the first burst. -/
theorem exec_txRequest_starts {s : State} (hrun : s.runState = .run) (hlock : s.session.hitActive = false)
    (hb : s.tx.busy = false) (id : Byte) : exec (.txRequest id) s = .next (burstAt s id 0) := by
  obtain ⟨-, -, hidle⟩ := txRequestAnswers s id hrun
  rw [hidle hlock hb]
  simp [burstAt, symbolStart, frameDuration_first]

theorem exec_txStep_burstAt {s : State} (hrun : s.runState = .run) (id : Byte) (k : Fin 10) :
    exec .txStep (atDeadline (burstAt s id k)) = .next (gapAt s id k) := by
  obtain ⟨-, hburst, -, -⟩ := txStepEffect (atDeadline (burstAt s id k)) hrun
  rw [hburst rfl rfl, gapAt, symbolStart_succ]
  rfl

theorem exec_txStep_gapAt {s : State} (hrun : s.runState = .run) (id : Byte) (k : Nat) (hk : k + 1 < 10) :
    exec .txStep (atDeadline (gapAt s id ⟨k, Nat.lt_of_succ_lt hk⟩)) = .next (burstAt s id ⟨k + 1, hk⟩) := by
  obtain ⟨-, -, -, hgap⟩ := txStepEffect (atDeadline (gapAt s id ⟨k, Nat.lt_of_succ_lt hk⟩)) hrun
  rw [hgap rfl rfl ⟨k + 1, hk⟩ rfl, encodeFrame_getElem]
  rfl

theorem exec_txStep_lastGap {s : State} (hrun : s.runState = .run) (id : Byte) :
    exec .txStep (atDeadline (gapAt s id 9)) = .next (sentAt s id) := by
  obtain ⟨-, -, hrelease, -⟩ := txStepEffect (atDeadline (gapAt s id 9)) hrun
  exact hrelease rfl rfl rfl

theorem andThen_next (a : Answer) : andThen a .next = a := by cases a <;> rfl

/-- `sendSteps` takes its first step first; this takes the last one last. -/
theorem sendSteps_succ {n : Nat} {s t : State} (h : sendSteps n s = .next t) :
    sendSteps (n + 1) s = exec .txStep (atDeadline t) := by
  induction n generalizing s with
  | zero =>
    cases h
    exact andThen_next _
  | succ n ih =>
    rw [sendSteps] at h ⊢
    cases hx : exec .txStep { s with now := s.tx.deadline } with
    | next u => rw [hx] at h; exact ih h
    | fault r => rw [hx] at h; cases h
    | refused r => rw [hx] at h; cases h

/-- Two steps send a symbol. -/
theorem sendSteps_even {s : State} (hrun : s.runState = .run) (id : Byte) (k : Nat) (hk : k < 10) :
    sendSteps (2 * k) (burstAt s id 0) = .next (burstAt s id ⟨k, hk⟩) := by
  induction k with
  | zero => rfl
  | succ k ih =>
    have hgap := (sendSteps_succ (ih (Nat.lt_of_succ_lt hk))).trans (exec_txStep_burstAt hrun id _)
    exact (sendSteps_succ hgap).trans (exec_txStep_gapAt hrun id k hk)

theorem sendSteps_odd {s : State} (hrun : s.runState = .run) (id : Byte) (k : Fin 10) :
    sendSteps (2 * k + 1) (burstAt s id 0) = .next (gapAt s id k) :=
  (sendSteps_succ (sendSteps_even hrun id k k.isLt)).trans (exec_txStep_burstAt hrun id k)

theorem sendSteps_all {s : State} (hrun : s.runState = .run) (id : Byte) :
    sendSteps 20 (burstAt s id 0) = .next (sentAt s id) :=
  (sendSteps_succ (sendSteps_odd hrun id 9)).trans (exec_txStep_lastGap hrun id)

/-- Settles O21: an even number of steps leads into a burst, an odd one into a gap, and all twenty to the lock's release. -/
theorem transmissionSendsEnvelope : Obligations.TransmissionSendsEnvelope := by
  intro s id hrun hlock hb d
  refine ⟨burstAt s id 0, exec_txRequest_starts hrun hlock hb id, fun n hn => ?_,
    sentAt s id, sendSteps_all hrun id, rfl, rfl, ?_, rfl, rfl, rfl⟩
  · obtain ⟨k, rfl | rfl⟩ := n.even_or_odd'
    · have hk : k < 10 := by omega
      have hhalf : 2 * k / 2 = k := by omega
      have hparity : 2 * k % 2 = 0 := by omega
      have hsum : (d.take (k + 1)).sum = (d.take k).sum + frameDuration s.cfg id ⟨k, hk⟩ :=
        encodeFrame_sum_take_succ s.cfg id ⟨k, hk⟩
      rw [hhalf, hparity, hsum]
      refine ⟨_, sendSteps_even hrun id k hk, rfl, rfl, rfl, iff_of_true rfl rfl, ?_⟩
      change symbolStart s id k + frameDuration s.cfg id ⟨k, hk⟩ = _
      rw [symbolStart]
      ring
    · have hk : k < 10 := by omega
      have hhalf : (2 * k + 1) / 2 = k := by omega
      have hparity : (2 * k + 1) % 2 = 1 := by omega
      rw [hhalf, hparity]
      refine ⟨_, sendSteps_odd hrun id ⟨k, hk⟩, rfl, rfl, rfl, iff_of_false Bool.false_ne_true Nat.one_ne_zero, ?_⟩
      change symbolStart s id (k + 1) = _
      rw [symbolStart]
      ring
  · change symbolStart s id 10 = _
    rw [symbolStart, List.take_of_length_le (by simp)]

end Sys2Proof.Machine
end

section
/-! Family 41_ir_rx (spec/41_ir_rx.md): CLASSIFY and DECODE, the edges of a receiver pin, the frame they make, and the samples of the
pins. -/

namespace Sys2Proof.Machine

/-! ### CLASSIFY and DECODE (R137, R138, R141) -/

/-- Settles O22. -/
theorem classifyWindows : Obligations.ClassifyWindows := by
  intro s w hl
  refine ⟨classify s.cfg w.toNat, rfl, ?_⟩
  simpa only [inWindow_iff] using classify_eq_iff hl w.toNat

/-- A frame decodes to the identifier that its interior widths are, bit 7 first (R138). -/
theorem decodeFrame_eq_some_iff (c : Params) (buf : Vector Nat 10) (id : Byte) :
    decodeFrame c buf = some id ↔ classify c buf[0] = .startEnd ∧ classify c buf[9] = .startEnd ∧
      ∀ k : Fin 8, classify c buf[1 + k.val] = symbolOfBit (id.getLsbD (7 - k.val)) := by
  rw [decodeFrame, decodeSymbols_eq_some_iff, Fin.rev_surjective.forall]
  refine and_congr_right' (and_congr_right' (forall_congr' fun k => ?_))
  have hbit : k.rev.val = 7 - k.val := by rw [Fin.val_rev]; omega
  have hpos : 8 - (7 - k.val) = 1 + k.val := by omega
  simp only [hbit, hpos]

/-- Settles O23. -/
theorem decodeOnlyFullFrames : Obligations.DecodeOnlyFullFrames := by
  refine fun s buf => ⟨_, rfl, fun id => ?_⟩
  rw [decodeFrame_eq_some_iff]
  simp only [Vector.getElem_ofFn, symbolOfBit]

/-- A nominal duration classifies as its own symbol (R87). -/
theorem classify_nominal {c : Params} (hl : c.legal = true) :
    classify c c.tStartEnd = .startEnd ∧ ∀ b : Bool, classify c (if b then c.tBit1 else c.tBit0) = symbolOfBit b := by
  refine ⟨(classify_eq_iff hl _).1.mpr (inWindow_self ..), fun b => ?_⟩
  cases b
  · exact (classify_eq_iff hl _).2.2.mpr (inWindow_self ..)
  · exact (classify_eq_iff hl _).2.1.mpr (inWindow_self ..)

/-- Settles O24: each position of the frame classifies as the symbol it was sent for. -/
theorem decodeOfEncodedDurations : Obligations.DecodeOfEncodedDurations := by
  intro c id hl
  obtain ⟨hends, hbits⟩ := classify_nominal hl
  rw [decodeFrame_eq_some_iff]
  refine ⟨?_, ?_, fun k => ?_⟩ <;> rw [encodeFrame_getElem]
  · exact frameDuration_first c id ▸ hends
  · exact frameDuration_last c id ▸ hends
  · rw [frameDuration_interior]
    exact hbits _

/-! ### RX_FALL, HIT_PUSH and EDGE_SYNC (R130, R133, R139) -/

/-- Settles O25. -/
theorem fallingEdgeRecorded : Obligations.FallingEdgeRecorded := by
  intro s pin t hrun hp
  refine ⟨opTime s t.toNat, (s.timed t.toNat).draws, opTime_le .., fun ht => ⟨opTime_eq ht, if_pos ht⟩, ?_, ?_⟩
  · rw [exec_rxFall_run hrun hp]
    rfl
  · rw [exec_rxFall_run hrun hp, exec_edge_run hrun hp]
    rfl

/-- HIT_PUSH into a queue with room (R64, R139). -/
theorem hitPush_of_room {s : State} (h : ∀ n, s.cfg.hitqDepth = some n → s.hitq.length < n) (id : Byte) (t : Nat) :
    hitPush s id t = { s with hitq := s.hitq ++ [{ team := id, receivedAt := t, self := decide (id = s.ownId) }] } :=
  if_pos ((queueHasRoom_iff ..).mpr h)

/-- HIT_PUSH into a full queue (R64). -/
theorem hitPush_of_full {s : State} {n : Nat} (hn : s.cfg.hitqDepth = some n) (hfull : n ≤ s.hitq.length) (id : Byte)
    (t : Nat) : hitPush s id t = s.note .queueOverflow :=
  if_neg fun h => hfull.not_gt ((queueHasRoom_iff ..).mp h n hn)

/-- Settles O27. -/
theorem hitPushAppends : Obligations.HitPushAppends := by
  intro s id t hrun
  refine ⟨opTime s t.toNat, (s.timed t.toNat).draws, opTime_le .., fun ht => ⟨opTime_eq ht, if_pos ht⟩, fun hroom => ?_,
    fun n hn hfull => ?_⟩ <;> rw [exec_hitPush_run hrun]
  · exact congrArg _ (hitPush_of_room (s := s.clearOut.timed t.toNat) hroom ..)
  · exact congrArg _ (hitPush_of_full (s := s.clearOut.timed t.toNat) hn hfull ..)

/-- Settles O29. -/
theorem edgeSyncShifts : Obligations.EdgeSyncShifts := by
  intro s pin v hrun hp hnow r s'
  have hsync := exec_edgeSync_run hrun hp v
  rw [runEdgeSync_eq] at hsync
  refine ⟨fun heq => hsync.trans (congrArg _ (if_pos heq)), fun hne => hsync.trans ?_⟩
  have hedge := exec_edge_run (s := s') hrun hp r.s1 (BitVec.ofNat 64 s.now)
  rw [BitVec.toNat_ofNat, Nat.mod_eq_of_lt hnow] at hedge
  exact (congrArg _ (if_neg hne)).trans hedge.symm

/-! ### RX_RISE (R134 to R136, R139) -/

/-- The receiver `r` when a rising edge at `t` has put a burst of width `w` at position `i` of the buffer, the count then `k`. -/
def RxState.risen (r : RxState) (k i : Fin 10) (t w : Nat) : RxState :=
  { r with fallValid := false, cnt := k, buf := r.buf.set i.val w, lastTs := t, lastValid := true }

/-- The state `s` after a rising edge at `t` that leaves the record `r'` of receiver `p`, before the edge's answer and event. -/
def afterRise (s : State) (p : Fin 16) (t : Nat) (r' : RxState) : State :=
  { s with rx := s.rx.set p.val r', draws := s.draws + drawnByRise (s.rxAt p) t }

/-- The gap rule on an empty buffer discards nothing (R135). -/
theorem countBefore_eq {r : RxState} {gap : Bool} (h : gap = true → r.cnt = 0) : countBefore r gap = r.cnt := by
  cases gap
  · rfl
  · exact (h rfl).symm

/-- The count once the burst at position `i` has completed (R134, R136). -/
def countAfter (c : Params) (i : Fin 10) : Fin 10 :=
  if h : i.val + 1 < 10 ∧ i.val + 1 < c.frameLen then ⟨i.val + 1, h.1⟩ else 0

theorem countAfter_of_lt {c : Params} (hc : c.frameLen = 10) {i k : Fin 10} (hk : k.val = i.val + 1) : countAfter c i = k := by
  have hlt : i.val + 1 < 10 ∧ i.val + 1 < c.frameLen := by omega
  rw [countAfter, dif_pos hlt]
  exact Fin.ext hk.symm

theorem countAfter_last (c : Params) : countAfter c 9 = 0 := dif_neg fun h => absurd h.1 (by decide)

theorem appendBurst_eq (c : Params) (r : RxState) (t w : Nat) (gap : Bool) :
    appendBurst c r t w gap = r.risen (countAfter c (countBefore r gap)) (countBefore r gap) t w := rfl

theorem completesFrame_iff {c : Params} (hc : c.frameLen = 10) (r : RxState) (gap : Bool) :
    completesFrame c r gap = true ↔ countBefore r gap = 9 := by
  rw [completesFrame, beq_iff_eq, hc, Fin.ext_iff]
  exact Nat.succ_inj

/-- A rising edge with no fall before it (R134, R235 code 5). -/
theorem rxRise_of_no_fall {s : State} {p : Fin 16} (hf : (s.rxAt p).fallValid = false) (t : Nat) :
    rxRise s p t = s.note .ignoredEdge := by
  rw [rxRise, hf]
  rfl

/-- A rising edge that completes no frame: the burst is appended, and a partial buffer that the gap rule discards is noted. -/
theorem rxRise_of_not_full {s : State} {p : Fin 16} {t : Nat} (hc : s.cfg.frameLen = 10) (hf : (s.rxAt p).fallValid = true)
    {i k : Fin 10} (hi : countBefore (s.rxAt p) (gapFires s (s.rxAt p) t) = i) (hk : k.val = i.val + 1) :
    rxRise s p t =
      let u := afterRise s p t ((s.rxAt p).risen k i t (burstWidth s (s.rxAt p) t))
      if gapFires s (s.rxAt p) t && decide (0 < (s.rxAt p).cnt.val) then u.note .gapDiscard else u := by
  have hnot : completesFrame s.cfg (s.rxAt p) (gapFires s (s.rxAt p) t) ≠ true := by
    rw [Ne, completesFrame_iff hc, hi]
    omega
  rw [rxRise, if_pos hf]
  dsimp only
  rw [if_neg hnot, riseReceiver, appendBurst_eq, hi, countAfter_of_lt hc hk]
  rfl

/-- A rising edge that completes no frame and discards none: the burst is appended. -/
theorem rxRise_appends {s : State} {p : Fin 16} {t : Nat} (hc : s.cfg.frameLen = 10) (hf : (s.rxAt p).fallValid = true)
    {i k : Fin 10} (hi : countBefore (s.rxAt p) (gapFires s (s.rxAt p) t) = i) (hk : k.val = i.val + 1)
    (hempty : gapFires s (s.rxAt p) t = true → (s.rxAt p).cnt = 0) :
    rxRise s p t = afterRise s p t ((s.rxAt p).risen k i t (burstWidth s (s.rxAt p) t)) := by
  rw [rxRise_of_not_full hc hf hi hk]
  refine if_neg fun hnote => ?_
  obtain ⟨hgap, hpos⟩ := Bool.and_eq_true_iff.mp hnote
  rw [hempty hgap] at hpos
  exact absurd hpos (by decide)

/-- A rising edge after the gap timeout discards a partial buffer and starts a new one (R135, R235 code 4). -/
theorem rxRise_discards {s : State} {p : Fin 16} {t : Nat} (hc : s.cfg.frameLen = 10) (hf : (s.rxAt p).fallValid = true)
    (hgap : gapFires s (s.rxAt p) t = true) (hpartial : (s.rxAt p).cnt ≠ 0) :
    rxRise s p t = (afterRise s p t ((s.rxAt p).risen 1 0 t (burstWidth s (s.rxAt p) t))).note .gapDiscard := by
  rw [rxRise_of_not_full hc hf (congrArg (countBefore _) hgap) (k := 1) rfl]
  exact if_pos (Bool.and_eq_true_iff.mpr ⟨hgap, decide_eq_true (Fin.pos_iff_ne_zero.mpr hpartial)⟩)

section
variable {s : State} {p : Fin 16} {t : Nat} (hc : s.cfg.frameLen = 10) (hf : (s.rxAt p).fallValid = true)
  (hgap : gapFires s (s.rxAt p) t = false) (hk : (s.rxAt p).cnt = 9)

include hc hf hgap hk

/-- A rising edge that completes a frame clears the buffer; what the frame decodes to is pushed (R136, R138, R139). -/
theorem rxRise_of_full :
    let r' := (s.rxAt p).risen 0 9 t (burstWidth s (s.rxAt p) t)
    let u := afterRise s p t r'
    rxRise s p t = (decodeFrame s.cfg r'.buf).elim (u.note .decodeFailure) (hitPush u · t) := by
  have hi : countBefore (s.rxAt p) false = 9 := hk
  have hfull : completesFrame s.cfg (s.rxAt p) false = true := (completesFrame_iff hc _ _).mpr hi
  simp only [rxRise, hf, hgap, hfull, riseReceiver, appendBurst_eq, hi, countAfter_last]
  cases decodeFrame s.cfg ((s.rxAt p).risen 0 9 t (burstWidth s (s.rxAt p) t)).buf <;> rfl

theorem rxRise_of_frame {id : Byte} (hd : decodeFrame s.cfg ((s.rxAt p).buf.set 9 (burstWidth s (s.rxAt p) t)) = some id) :
    rxRise s p t = hitPush (afterRise s p t ((s.rxAt p).risen 0 9 t (burstWidth s (s.rxAt p) t))) id t := by
  refine (rxRise_of_full hc hf hgap hk).trans ?_
  exact congrArg (Option.elim · _ _) hd

theorem rxRise_of_bad_frame (hd : decodeFrame s.cfg ((s.rxAt p).buf.set 9 (burstWidth s (s.rxAt p) t)) = none) :
    rxRise s p t = (afterRise s p t ((s.rxAt p).risen 0 9 t (burstWidth s (s.rxAt p) t))).note .decodeFailure := by
  refine (rxRise_of_full hc hf hgap hk).trans ?_
  exact congrArg (Option.elim · _ _) hd

end

/-- An edge whose differences are stated draws no free value (log entry 10). -/
theorem rxRise_draws {s : State} {p : Fin 16} {t : Nat} (hf : (s.rxAt p).fallTs ≤ t)
    (hl : (s.rxAt p).lastValid = true → (s.rxAt p).lastTs ≤ t) : (rxRise s p t).draws = s.draws := by
  rw [rxRise_frame]
  dsimp only
  rw [drawnByRise_eq hf hl, Nat.add_zero, ite_self]

/-- Settles O26: the free values first, then the edge by its cases. -/
theorem risingEdgeEffect : Obligations.RisingEdgeEffect := by
  intro s pin t hl hrun hp r
  have hc : s.cfg.frameLen = 10 := Params.legal_frameLen hl
  let u : State := { s with draws := (s.timed t.toNat).draws, out := {} }
  let tau := opTime s t.toNat
  have hexec : exec (.rxRise pin t) s = .next (rxRise u (pinIndex pin) tau) := exec_rxRise_run hrun hp t
  refine ⟨tau, burstWidth u r tau, (rxRise u (pinIndex pin) tau).draws, gapFires u r tau, ⟨opTime_le .., opTime_eq⟩,
    burstWidth_eq, fun hv => ?_, fun hv hle => ?_, fun ht hf hle => ?_, (exec_edge_run hrun hp ..).trans hexec.symm,
    fun hf => ?_, fun hf hg => ?_, fun hf hg k hk => ?_, fun hf hg hk => ⟨fun hd => ?_, fun id hd => ⟨fun hroom => ?_,
      fun n hn hfull => ?_⟩⟩⟩
  · rw [gapFires, hv, Bool.false_and]
  · rw [gapFires_iff fun _ => hle]
    exact and_iff_right hv
  · exact (rxRise_draws (s := u) hf hle).trans (if_pos ht)
  -- no fall recorded
  · rw [hexec, rxRise_of_no_fall (s := u) hf]
    rfl
  -- the gap rule fires, on an empty buffer or on a partial one
  · have hi : countBefore (u.rxAt (pinIndex pin)) (gapFires u r tau) = 0 := congrArg (countBefore r) hg
    by_cases hk : r.cnt = 0
    · rw [hexec, rxRise_appends (s := u) hc hf hi (k := 1) rfl fun _ => hk, if_pos hk]
      rfl
    · rw [hexec, rxRise_discards (s := u) hc hf hg hk, if_neg hk]
      rfl
  -- a burst inside a frame
  · have hi : countBefore (u.rxAt (pinIndex pin)) (gapFires u r tau) = r.cnt := congrArg (countBefore r) hg
    rw [hexec, rxRise_appends (s := u) hc hf hi hk fun h => absurd (hg.symm.trans h) Bool.false_ne_true]
    rfl
  -- the tenth burst
  · rw [hexec, rxRise_of_bad_frame (s := u) hc hf hg hk hd]
    rfl
  · rw [hexec, rxRise_of_frame (s := u) hc hf hg hk hd, hitPush_of_room]
    · rfl
    · exact hroom
  · rw [hexec, rxRise_of_frame (s := u) hc hf hg hk hd, hitPush_of_full]
    · rfl
    · exact hn
    · exact hfull

/-! ### The pins' samples (R130, R207) -/

/-- The numbers below `m` in `Fin n`, in order, are those of `List.range m`. -/
theorem filterMap_finRange_lt {α : Type} (f : Nat → α) {m n : Nat} (h : m ≤ n) :
    ((List.finRange n).filterMap fun p => if p.val < m then some (f p.val) else none) = (List.range m).map f := by
  obtain ⟨j, rfl⟩ := Nat.exists_eq_add_of_le h
  have hlow : ((List.range m).filterMap fun k => if k < m then some (f k) else none) = (List.range m).map f := by
    rw [← List.filterMap_eq_map]
    exact List.filterMap_congr fun k hk => if_pos (List.mem_range.mp hk)
  have hhigh : (((List.range j).map (m + ·)).filterMap fun k => if k < m then some (f k) else none) = [] := by
    simp
  calc _ = ((List.finRange (m + j)).map Fin.val).filterMap fun k => if k < m then some (f k) else none :=
        (List.filterMap_map ..).symm
    _ = _ := by rw [List.map_coe_finRange_eq_range, List.range_add, List.filterMap_append, hlow, hhigh, List.append_nil]

/-- The samples due are those of the present pins, each of its own level. -/
theorem samplesDue_eq {s : State} (hn : s.cfg.nRx ≤ 16) {t : Nat} (hdue : s.runState = .run ∧ s.env.sampling ∧ s.now < t)
    (pins : Vector Bool 16) :
    samplesDue s t pins = (List.finRange 16).filterMap fun p =>
      if p.val < s.cfg.nRx then some (encode (.edgeSync (BitVec.ofNat 4 p.val) pins[p.val])) else none := by
  rw [samplesDue, if_pos hdue, ← filterMap_finRange_lt _ hn]
  refine List.filterMap_congr fun p _ => ?_
  simp

/-- A sample's place is its pin's (R207). -/
theorem wordPlace_edgeSync (p : BitVec 4) (v : Bool) : wordPlace (encode (.edgeSync p v)) = 4 + p.toNat := by
  revert p v
  decide

/-- A word whose place is not before any other goes last. -/
theorem insertDue_of_le {w : TraceWord} {l : List TraceWord} (h : ∀ x ∈ l, wordPlace x ≤ wordPlace w) :
    insertDue w l = l ++ [w] := by
  induction l with
  | nil => rfl
  | cons x l ih =>
    obtain ⟨hx, hl⟩ := List.forall_mem_cons.mp h
    rw [insertDue, if_neg hx.not_gt, ih hl]
    rfl

theorem foldl_insertDue_of_sorted {ws acc : List TraceWord} (h : (acc ++ ws).Pairwise fun a b => wordPlace a ≤ wordPlace b) :
    ws.foldl (fun acc w => insertDue w acc) acc = acc ++ ws := by
  induction ws generalizing acc with
  | nil => simp
  | cons w ws ih =>
    have hw : ∀ x ∈ acc, wordPlace x ≤ wordPlace w := fun x hx =>
      (List.pairwise_append.mp h).2.2 x hx w List.mem_cons_self
    rw [List.append_cons] at h ⊢
    rw [List.foldl_cons, insertDue_of_le hw, ih h]

/-- Words that stand in the order of R207 keep it. -/
theorem inDueOrder_of_sorted {ws : List TraceWord} (h : ws.Pairwise fun a b => wordPlace a ≤ wordPlace b) :
    inDueOrder ws = ws := foldl_insertDue_of_sorted h

theorem samplesDue_sorted (s : State) (t : Nat) (pins : Vector Bool 16) (hn : s.cfg.nRx ≤ 16) :
    (samplesDue s t pins).Pairwise fun a b => wordPlace a ≤ wordPlace b := by
  unfold samplesDue
  split
  · rw [List.pairwise_map]
    refine List.pairwise_lt_range.imp_of_mem fun {p q} hp hq hpq => ?_
    have hp := List.mem_range.mp hp
    have hq := List.mem_range.mp hq
    rw [wordPlace_edgeSync, wordPlace_edgeSync, BitVec.toNat_ofNat, BitVec.toNat_ofNat]
    omega
  · exact List.Pairwise.nil

/-- With nothing due now a step is a turn of the arbiter. -/
theorem step_of_idle {s : State} (hl : s.cfg.legal = true) (ha : s.agenda = []) : step s = arbitrate s := by
  rw [step, if_pos hl, fetch, ha]

/-- With no input to come the block's own operations are lined up. -/
theorem lineUp_of_no_input {s : State} (hin : s.env.inputs = []) (t : Nat) :
    lineUp s t = .next { s with
      now := t
      agenda := inDueOrder
        (samplesDue s t s.env.pins ++ dueBy t (nextTxTime s) .txStep ++ dueBy t (nextTickTime s) .tick) } := by
  have henv : ({ s.env with inputs := [] } : Env) = s.env := by rw [← hin]
  rw [lineUp, hin]
  dsimp only [takeInputs, firstRefusal, List.findSome?]
  rw [henv, List.nil_append]

/-- Out of reset and with no input to come the arbiter's turn moves the clock and lines up what is due (R208). -/
theorem arbitrate_of_no_input {s : State} (hr : s.runState ≠ .reset) (hin : s.env.inputs = []) (ht : moveTo s < timeLimit) :
    arbitrate s = .next { s with
      now := moveTo s
      agenda := inDueOrder (samplesDue s (moveTo s) s.env.pins ++ dueBy (moveTo s) (nextTxTime s) .txStep ++
        dueBy (moveTo s) (nextTickTime s) .tick)
      out := {} } := by
  have hlate : inputLate s.clearOut = false := by rw [inputLate, nextInputTime, clearOut_env, hin]; rfl
  have hmove : moveTo s.clearOut = moveTo s := rfl
  have hfirst : resetFirst s.clearOut (moveTo s) = none := by rw [resetFirst, clearOut_env, hin]
  simp only [arbitrate, clearOut_runState, if_neg hr, hlate, Bool.false_eq_true, if_false, hmove, if_neg ht.not_ge, hfirst]
  exact lineUp_of_no_input (s := s.clearOut) hin (moveTo s)

theorem dueBy_eq_nil {t : Nat} {due : Option Nat} (h : ∀ d, due = some d → t < d) (i : Instr) : dueBy t due i = [] := by
  cases due with
  | none => rfl
  | some d => exact if_neg (h d rfl).not_ge

/-- A time before another is the earlier one. -/
theorem earlier_of_lt {due : Option Nat} {t : Nat} (h : ∀ d, due = some d → t < d) : earlier due (some t) = some t := by
  cases due with
  | none => rfl
  | some d => exact congrArg some (Nat.min_eq_right (h d rfl).le)

/-- Where the pins are sampled the clock moves by one microsecond, unless something is due before. -/
theorem moveTo_of_sampling {s : State} (hsample : nextSampleTime s = some (s.now + 1)) (hin : s.env.inputs = [])
    (htx : ∀ d, nextTxTime s = some d → s.now + 1 < d) (htick : ∀ d, nextTickTime s = some d → s.now + 1 < d) :
    moveTo s = s.now + 1 := by
  rw [moveTo, nextTime, nextInputTime, hin, hsample, earlier_of_lt htx, earlier_of_lt htick]
  exact Nat.max_eq_right (Nat.le_succ s.now)

/-- Settles O54: the next microsecond is the first time at which something is due, and only the samples are due there. -/
theorem arbiterSamplesPins : Obligations.ArbiterSamplesPins := by
  intro s hl hrun ha hin hsampling htick htx hlimit
  have hn : s.cfg.nRx ≤ 16 := by
    obtain ⟨-, -, -, hsizes, -⟩ := s.cfg.legal_iff.mp hl
    obtain ⟨-, -, hmax, -⟩ := s.cfg.sizesInRange_iff.mp hsizes
    exact hmax
  have hr : s.runState ≠ .reset := by rw [hrun]; decide
  have htx : ∀ d, nextTxTime s = some d → s.now + 1 < d := fun d hd => by
    obtain ⟨⟨-, hb⟩, hd⟩ := Option.ite_none_right_eq_some.mp hd
    exact Option.some.inj hd ▸ htx hb
  have htick : ∀ d, nextTickTime s = some d → s.now + 1 < d := fun d hd => by
    cases (nextTickTime_run hrun).symm.trans hd
    exact htick
  have hmove := moveTo_of_sampling (if_pos ⟨hrun, hsampling⟩) hin htx htick
  rw [step_of_idle hl ha, arbitrate_of_no_input hr hin (hmove ▸ hlimit), hmove, dueBy_eq_nil htx, dueBy_eq_nil htick,
    List.append_nil, List.append_nil, inDueOrder_of_sorted (samplesDue_sorted _ _ _ hn),
    samplesDue_eq hn ⟨hrun, hsampling, Nat.lt_succ_self _⟩]

/-! ### A frame at a pin (R141) -/

/-- An EDGE stamped `now` is RX_FALL or RX_RISE at `now` (R132). -/
theorem exec_edge_now {s : State} {pin : BitVec 4} (hrun : s.runState = .run) (hp : pin.toNat < s.cfg.nRx)
    (hnow : s.now < 2 ^ 64) (l : Bool) :
    exec (.edge pin l (BitVec.ofNat 64 s.now)) s =
      .next (if l then rxRise s.clearOut (pinIndex pin) s.now else rxFall s.clearOut (pinIndex pin) s.now) := by
  rw [exec_edge_run hrun hp, BitVec.toNat_ofNat, Nat.mod_eq_of_lt hnow]
  exact congrArg _ (runEdge_eq (s := s.clearOut) (Nat.le_refl _))

/-- The receiver's record inside a burst that fell at `t`. -/
def RxState.fallen (r : RxState) (t : Nat) : RxState := { r with fallValid := true, fallTs := t }

/-- The state at the end of a burst from `t` to `t + d` at receiver `p`, before its rising edge. -/
def burstEnd (s : State) (p : Fin 16) (t d : Nat) : State :=
  { s with now := t + d, rx := s.rx.set p.val ((s.rxAt p).fallen t), out := {} }

@[simp] theorem burstEnd_rxAt (s : State) (p : Fin 16) (t d : Nat) : (burstEnd s p t d).rxAt p = (s.rxAt p).fallen t :=
  Vector.getElem_set_self _

/-- The two edges of a burst. -/
theorem feedBursts_cons {s : State} {pin : BitVec 4} (hrun : s.runState = .run) (hp : pin.toNat < s.cfg.nRx) {t d : Nat}
    (ht : t + d < 2 ^ 64) (ds : List Nat) :
    feedBursts pin (d :: ds) t s =
      feedBursts pin ds (t + d + s.cfg.txGap) (rxRise (burstEnd s (pinIndex pin) t d) (pinIndex pin) (t + d)) := by
  have hfall := exec_edge_now (s := { s with now := t }) hrun hp (Nat.lt_of_le_of_lt (Nat.le_add_right t d) ht) false
  have hrise := exec_edge_now (s := burstEnd s (pinIndex pin) t d) hrun hp ht true
  rw [feedBursts, hfall]
  exact congrArg (andThen · _) hrise

section
variable {s : State} {p : Fin 16} {t d : Nat}

theorem burstWidth_burstEnd : burstWidth (burstEnd s p t d) ((burstEnd s p t d).rxAt p) (t + d) = d := by
  rw [burstEnd_rxAt, burstWidth_eq (Nat.le_add_right t d)]
  exact Nat.add_sub_cancel_left t d

variable (hlast : (s.rxAt p).lastValid = true → (s.rxAt p).lastTs ≤ t + d)
include hlast

/-- A burst in order draws no free value. -/
theorem afterRise_burstEnd (r : RxState) :
    afterRise (burstEnd s p t d) p (t + d) r = { s with now := t + d, rx := s.rx.set p.val r, out := {} } := by
  have hdrawn : drawnByRise ((burstEnd s p t d).rxAt p) (t + d) = 0 := by
    rw [burstEnd_rxAt]
    exact drawnByRise_eq (Nat.le_add_right t d) hlast
  have hset : (burstEnd s p t d).rx.set p.val r = s.rx.set p.val r := Vector.set_set ..
  rw [afterRise, hdrawn, hset]
  rfl

variable (hc : s.cfg.frameLen = 10) (hgap : (s.rxAt p).cnt ≠ 0 → t + d ≤ (s.rxAt p).lastTs + s.cfg.rxGapTimeout)
include hgap

/-- Within the gap timeout the gap rule has nothing to discard (R135). -/
theorem cnt_of_gapFires_burstEnd (hfires : gapFires (burstEnd s p t d) ((burstEnd s p t d).rxAt p) (t + d) = true) :
    ((burstEnd s p t d).rxAt p).cnt = 0 := by
  rw [burstEnd_rxAt] at hfires ⊢
  obtain ⟨-, hlate⟩ := (gapFires_iff hlast).mp hfires
  have hlate : s.cfg.rxGapTimeout < t + d - (s.rxAt p).lastTs := hlate
  by_contra hne
  have hle := hgap hne
  omega

include hc

/-- A burst that completes no frame is appended (R134). -/
theorem rxRise_burstEnd_appends {k : Fin 10} (hk : k.val = (s.rxAt p).cnt.val + 1) :
    rxRise (burstEnd s p t d) p (t + d) =
      { s with
        now := t + d
        rx := s.rx.set p.val (((s.rxAt p).fallen t).risen k (s.rxAt p).cnt (t + d) d)
        out := {} } := by
  have hsilent := cnt_of_gapFires_burstEnd hlast hgap
  have hf : ((burstEnd s p t d).rxAt p).fallValid = true := by rw [burstEnd_rxAt]; rfl
  have hcnt : ((burstEnd s p t d).rxAt p).cnt = (s.rxAt p).cnt := by rw [burstEnd_rxAt]; rfl
  rw [rxRise_appends (s := burstEnd s p t d) hc hf ((countBefore_eq hsilent).trans hcnt) hk hsilent, burstWidth_burstEnd,
    afterRise_burstEnd hlast, burstEnd_rxAt]

/-- The tenth burst of a frame that decodes clears the count and pushes the event (R136, R139). -/
theorem rxRise_burstEnd_pushes {id : Byte} (hk : (s.rxAt p).cnt = 9)
    (hd : decodeFrame s.cfg ((s.rxAt p).buf.set 9 d) = some id)
    (hroom : ∀ n, s.cfg.hitqDepth = some n → s.hitq.length < n) :
    rxRise (burstEnd s p t d) p (t + d) =
      { s with
        now := t + d
        rx := s.rx.set p.val (((s.rxAt p).fallen t).risen 0 9 (t + d) d)
        hitq := s.hitq ++ [{ team := id, receivedAt := t + d, self := decide (id = s.ownId) }]
        out := {} } := by
  have hcnt : ((burstEnd s p t d).rxAt p).cnt = 9 := by rw [burstEnd_rxAt]; exact hk
  have hsilent : gapFires (burstEnd s p t d) ((burstEnd s p t d).rxAt p) (t + d) = false := by
    refine Bool.eq_false_iff.mpr fun hfires => ?_
    have hzero := cnt_of_gapFires_burstEnd hlast hgap hfires
    exact absurd (hcnt.symm.trans hzero) (by decide)
  have hf : ((burstEnd s p t d).rxAt p).fallValid = true := by rw [burstEnd_rxAt]; rfl
  have hd : decodeFrame (burstEnd s p t d).cfg (((burstEnd s p t d).rxAt p).buf.set 9
      (burstWidth (burstEnd s p t d) ((burstEnd s p t d).rxAt p) (t + d))) = some id := by
    rw [burstWidth_burstEnd, burstEnd_rxAt]
    exact hd
  rw [rxRise_of_frame (s := burstEnd s p t d) hc hf hsilent hcnt hd, burstWidth_burstEnd, afterRise_burstEnd hlast, burstEnd_rxAt,
    hitPush_of_room]
  exact hroom

end

/-- No burst of a frame is longer than its ends. -/
theorem frameDuration_le {c : Params} (hl : c.legal = true) (id : Byte) (i : Fin 10) : frameDuration c id i ≤ c.tStartEnd := by
  obtain ⟨h0, h1, -⟩ := Params.legal_windows hl
  unfold frameDuration
  split_ifs <;> omega

/-- Receiver `p` of `u` holds the first `k` bursts of the frame of `id` that begins at `s.now`, and nothing else of `s` has
changed. -/
structure PartFrame (s : State) (p : Fin 16) (id : Byte) (k : Fin 10) (u : State) : Prop where
  frame : u = { s with now := u.now, rx := u.rx, out := u.out }
  others : ∀ q, q ≠ p → u.rxAt q = s.rxAt q
  count : (u.rxAt p).cnt = k
  widths : ∀ i : Fin 10, i < k → (u.rxAt p).buf[i.val] = frameDuration s.cfg id i
  inOrder : (u.rxAt p).lastValid = true → (u.rxAt p).lastTs ≤ symbolStart s id k
  recent : k ≠ 0 → symbolStart s id k ≤ (u.rxAt p).lastTs + s.cfg.txGap

theorem PartFrame.cfg_eq {s u : State} {p : Fin 16} {id : Byte} {k : Fin 10} (h : PartFrame s p id k u) : u.cfg = s.cfg := by
  rw [h.frame]

/-- What a further edge may write being overwritten, nothing else of `s` has changed. -/
theorem PartFrame.update_eq {s u : State} {p : Fin 16} {id : Byte} {k : Fin 10} (h : PartFrame s p id k u) (n : Nat)
    (rx : Vector RxState 16) (q : List HitEvent) (o : Out) :
    { u with now := n, rx := rx, hitq := q, out := o } = { s with now := n, rx := rx, hitq := q, out := o } :=
  congrArg (fun x : State => { x with now := n, rx := rx, hitq := q, out := o }) h.frame

theorem symbolStart_zero (s : State) (id : Byte) : symbolStart s id 0 = s.now := by simp [symbolStart]

/-- The state once the burst of symbol `k` has risen and is appended to receiver `p`, the count then `k'`. -/
def frameBurst (s u : State) (p : Fin 16) (id : Byte) (k k' : Fin 10) : State :=
  { u with
    now := symbolStart s id k + frameDuration s.cfg id k
    rx := u.rx.set p.val (((u.rxAt p).fallen (symbolStart s id k)).risen k' k (symbolStart s id k + frameDuration s.cfg id k)
      (frameDuration s.cfg id k))
    out := {} }

theorem frameBurst_rxAt (s u : State) (p : Fin 16) (id : Byte) (k k' : Fin 10) :
    (frameBurst s u p id k k').rxAt p = ((u.rxAt p).fallen (symbolStart s id k)).risen k' k
      (symbolStart s id k + frameDuration s.cfg id k) (frameDuration s.cfg id k) :=
  Vector.getElem_set_self _

theorem frameBurst_rxAt_ne (s u : State) {p q : Fin 16} (id : Byte) (k k' : Fin 10) (hq : q ≠ p) :
    (frameBurst s u p id k k').rxAt q = u.rxAt q :=
  setRx_rxAt_ne u p q _ hq

section
variable {s u : State} {p : Fin 16} {id : Byte} {k : Fin 10} (h : PartFrame s p id k u)
include h

/-- The buffer after symbol `k`'s burst. -/
theorem PartFrame.widths_set (i : Fin 10) (hi : i ≤ k) :
    ((u.rxAt p).buf.set k.val (frameDuration s.cfg id k))[i.val] = frameDuration s.cfg id i := by
  rw [Vector.getElem_set]
  split
  · next heq => rw [Fin.ext heq]
  · next hne => exact h.widths i (lt_of_le_of_ne hi fun heq => hne (congrArg Fin.val heq).symm)

/-- A burst appended is one burst more. -/
theorem PartFrame.append {k' : Fin 10} (hk : k'.val = k.val + 1) : PartFrame s p id k' (frameBurst s u p id k k') where
  frame := congrArg (fun x : State => { x with
    now := (frameBurst s u p id k k').now, rx := (frameBurst s u p id k k').rx, out := {} }) h.frame
  others q hq := (frameBurst_rxAt_ne s u id k k' hq).trans (h.others q hq)
  count := by rw [frameBurst_rxAt]; rfl
  widths i hi := by
    rw [frameBurst_rxAt]
    exact h.widths_set i (by omega)
  inOrder _ := by
    rw [frameBurst_rxAt, hk, symbolStart_succ]
    exact Nat.le_add_right ..
  recent _ := by
    rw [frameBurst_rxAt, hk, symbolStart_succ]
    exact Nat.le_refl _

/-- A frame's rises come in order. -/
theorem PartFrame.last_le (hv : (u.rxAt p).lastValid = true) :
    (u.rxAt p).lastTs ≤ symbolStart s id k + frameDuration s.cfg id k :=
  Nat.le_add_right_of_le (h.inOrder hv)

variable (hl : s.cfg.legal = true)
include hl

theorem PartFrame.frameLen_eq : u.cfg.frameLen = 10 := h.cfg_eq ▸ Params.legal_frameLen hl

variable (htimeout : s.cfg.txGap + s.cfg.tStartEnd ≤ s.cfg.rxGapTimeout)
include htimeout

/-- Inside a frame no rise-to-rise time exceeds the timeout (R135). -/
theorem PartFrame.within_timeout (hk : (u.rxAt p).cnt ≠ 0) :
    symbolStart s id k + frameDuration s.cfg id k ≤ (u.rxAt p).lastTs + u.cfg.rxGapTimeout := by
  have hrecent := h.recent (h.count ▸ hk)
  have hle := frameDuration_le hl id k
  rw [h.cfg_eq]
  omega

/-- The rising edge of every burst but the last appends it. -/
theorem PartFrame.rxRise_eq {k' : Fin 10} (hk : k'.val = k.val + 1) :
    rxRise (burstEnd u p (symbolStart s id k) (frameDuration s.cfg id k)) p (symbolStart s id k + frameDuration s.cfg id k) =
      frameBurst s u p id k k' := by
  have hcount := h.count
  have hk : k'.val = (u.rxAt p).cnt.val + 1 := by rw [hcount]; exact hk
  rw [rxRise_burstEnd_appends h.last_le (h.frameLen_eq hl) (h.within_timeout hl htimeout) hk, hcount]
  rfl

end

/-- The tenth burst fills the buffer with the frame's durations. -/
theorem PartFrame.buf_full {s u : State} {p : Fin 16} {id : Byte} (h : PartFrame s p id 9 u) :
    (u.rxAt p).buf.set 9 (frameDuration s.cfg id 9) = encodeFrame s.cfg id := by
  ext i hi
  rw [encodeFrame_getElem]
  exact h.widths_set ⟨i, hi⟩ (Nat.le_of_lt_succ hi)

/-- The last rising edge completes the frame and pushes its event. -/
theorem PartFrame.rxRise_last {s u : State} {p : Fin 16} {id : Byte} (h : PartFrame s p id 9 u) (hl : s.cfg.legal = true)
    (htimeout : s.cfg.txGap + s.cfg.tStartEnd ≤ s.cfg.rxGapTimeout)
    (hroom : ∀ n, s.cfg.hitqDepth = some n → s.hitq.length < n) :
    rxRise (burstEnd u p (symbolStart s id 9) (frameDuration s.cfg id 9)) p (symbolStart s id 9 + frameDuration s.cfg id 9) =
      { frameBurst s u p id 9 0 with
        hitq := u.hitq ++ [{ team := id, receivedAt := symbolStart s id 9 + frameDuration s.cfg id 9,
                             self := decide (id = u.ownId) }] } := by
  have hd : decodeFrame u.cfg ((u.rxAt p).buf.set 9 (frameDuration s.cfg id 9)) = some id := by
    rw [h.buf_full, h.cfg_eq]
    exact decodeOfEncodedDurations _ id hl
  have hroom : ∀ n, u.cfg.hitqDepth = some n → u.hitq.length < n := by rw [h.frame]; exact hroom
  exact rxRise_burstEnd_pushes h.last_le (h.frameLen_eq hl) (h.within_timeout hl htimeout) h.count hd hroom

theorem symbolStart_mono (s : State) (id : Byte) : Monotone (symbolStart s id) := by
  refine monotone_nat_of_le_succ fun k => ?_
  have hsum : ((encodeFrame s.cfg id).toList.take k).sum ≤ ((encodeFrame s.cfg id).toList.take (k + 1)).sum := by
    rw [List.take_add_one, List.sum_append]
    exact Nat.le_add_right ..
  have hgaps : k * s.cfg.txGap ≤ (k + 1) * s.cfg.txGap := Nat.mul_le_mul_right _ (Nat.le_succ k)
  simp only [symbolStart]
  omega

/-- A frame comes down to its last bursts: those before are received into the buffer. -/
theorem feedBursts_drop {s : State} {pin : BitVec 4} {id : Byte} (hl : s.cfg.legal = true) (hrun : s.runState = .run)
    (hp : pin.toNat < s.cfg.nRx) (hstart : PartFrame s (pinIndex pin) id 0 s)
    (htimeout : s.cfg.txGap + s.cfg.tStartEnd ≤ s.cfg.rxGapTimeout) (hlast : symbolStart s id 9 < 2 ^ 64) (k : Nat)
    (hk : k < 10) : ∃ u, PartFrame s (pinIndex pin) id ⟨k, hk⟩ u ∧
      feedBursts pin (encodeFrame s.cfg id).toList s.now s =
        feedBursts pin ((encodeFrame s.cfg id).toList.drop k) (symbolStart s id k) u := by
  induction k with
  | zero => exact ⟨s, hstart, by rw [symbolStart_zero, List.drop_zero]⟩
  | succ k ih =>
    obtain ⟨u, hu, hfeed⟩ := ih (Nat.lt_of_succ_lt hk)
    have hnext := symbolStart_succ s id ⟨k, Nat.lt_of_succ_lt hk⟩
    have hend : symbolStart s id k + frameDuration s.cfg id ⟨k, Nat.lt_of_succ_lt hk⟩ < 2 ^ 64 := by
      have hle := symbolStart_mono s id (Nat.le_of_lt_succ hk)
      dsimp only at hnext
      omega
    refine ⟨_, hu.append (k' := ⟨k + 1, hk⟩) rfl, hfeed.trans ?_⟩
    rw [List.drop_eq_getElem_cons (by simpa using Nat.lt_of_succ_lt hk), Vector.getElem_toList, encodeFrame_getElem,
      feedBursts_cons (by rw [hu.frame]; exact hrun) (by rw [hu.cfg_eq]; exact hp) hend,
      hu.rxRise_eq hl htimeout (k' := ⟨k + 1, hk⟩) rfl, hnext, hu.cfg_eq]

/-- The last rising edge of a frame stands at the sum of all bursts and nine gaps. -/
theorem symbolStart_last (s : State) (id : Byte) :
    symbolStart s id 9 + frameDuration s.cfg id 9 = s.now + (encodeFrame s.cfg id).toList.sum + 9 * s.cfg.txGap := by
  have hsum : ((encodeFrame s.cfg id).toList.take 10).sum =
      ((encodeFrame s.cfg id).toList.take 9).sum + frameDuration s.cfg id 9 := encodeFrame_sum_take_succ s.cfg id 9
  rw [List.take_of_length_le (by simp)] at hsum
  rw [hsum, symbolStart]
  ring

/-- Settles O30: nine bursts are received one by one, and the rising edge of the tenth completes the frame. -/
theorem frameAtPinPushesOneHit : Obligations.FrameAtPinPushesOneHit := by
  intro s₀ pin id t0 hl hinv hrun hp hcnt ht0 hroom htimeout bursts last hlast
  let s : State := { s₀ with now := t0 }
  have hstart : PartFrame s (pinIndex pin) id 0 s :=
    { frame := rfl
      others := fun _ _ => rfl
      count := hcnt
      widths := nofun
      inOrder := fun _ => ((hinv.receivers (pinIndex pin)).last.trans ht0).trans_eq (symbolStart_zero s id).symm
      recent := fun h => absurd rfl h }
  have hend : symbolStart s id 9 + frameDuration s.cfg id 9 = last := symbolStart_last s id
  clear_value last
  subst hend
  obtain ⟨u, hu, hfeed⟩ :=
    feedBursts_drop (s := s) hl hrun hp hstart htimeout (Nat.lt_of_le_of_lt (Nat.le_add_right ..) hlast) 9 (by decide)
  have hfeed : feedBursts pin bursts t0 s₀ = feedBursts pin [frameDuration s.cfg id 9] (symbolStart s id 9) u := hfeed
  rw [feedBursts_cons (by rw [hu.frame]; exact hrun) (by rw [hu.cfg_eq]; exact hp) hlast,
    hu.rxRise_last (s := s) hl htimeout hroom] at hfeed
  have hrx := frameBurst_rxAt s u (pinIndex pin) id 9 0
  have hq : u.hitq = s₀.hitq := by rw [hu.frame]
  have hown : u.ownId = s₀.ownId := by rw [hu.frame]
  refine ⟨_, hfeed, ?_, congrArg RxState.cnt hrx, (congrArg RxState.buf hrx).trans hu.buf_full, congrArg RxState.lastTs hrx,
    fun q hq => (frameBurst_rxAt_ne s u id 9 0 hq).trans (hu.others q hq), ?_⟩
  · rw [← hq, ← hown]
  · exact hu.update_eq ..

end Sys2Proof.Machine
end

section
/-! Family 42_kinematics (spec/42_kinematics.md): MECANUM's wheel values and DUTYMAP's regimes, over Q, and MOTOR_APPLY. -/

namespace Sys2Proof

/-! ### Signs and fractions over Q -/

theorem Sign.apply_eq_ite (sg : Sign) (x : Int) : sg.apply x = if sg = .plus then x else -x := by
  cases sg <;> rfl

theorem Sign.apply_neg (sg : Sign) (x : Int) : sg.apply (-x) = -sg.apply x := by
  cases sg <;> rfl

theorem Frac.abs_toRat (w : Frac) : |w.toRat| = (w.num.natAbs : ℚ) / w.den := by
  rw [Frac.toRat, abs_div, Nat.abs_cast, Nat.cast_natAbs, Int.cast_abs]

/-- A wheel value under its channel's wiring sign (R164). -/
def Frac.signed (sg : Sign) (w : Frac) : Frac := ⟨sg.apply w.num, w.den⟩

theorem Frac.signed_toRat (sg : Sign) (w : Frac) : (w.signed sg).toRat = (if sg = .plus then 1 else -1) * w.toRat := by
  cases sg <;> simp [Frac.signed, Frac.toRat, Sign.apply, neg_div]

theorem Frac.toRat_pos_iff {w : Frac} (hd : 0 < w.den) : 0 < w.toRat ↔ 0 < w.num := by
  rw [Frac.toRat, div_pos_iff_of_pos_right (by exact_mod_cast hd), Int.cast_pos]

theorem Frac.toRat_neg_iff {w : Frac} (hd : 0 < w.den) : w.toRat < 0 ↔ w.num < 0 := by
  rw [Frac.toRat, div_lt_iff₀ (by exact_mod_cast hd), zero_mul, Int.cast_lt_zero]

/-- A magnitude below a fractional parameter, by cross-multiplication. -/
theorem Frac.abs_toRat_lt_iff {w : Frac} {r : Ratio} (hd : 0 < w.den) (hr : 0 < r.den) :
    |w.toRat| < r.toRat ↔ w.num.natAbs * r.den < r.num * w.den := by
  rw [Frac.abs_toRat, Ratio.toRat, div_lt_div_iff₀ (by exact_mod_cast hd) (by exact_mod_cast hr)]
  exact_mod_cast Iff.rfl

/-- What a legal configuration says of the duty map's parameters (R8 (d)). -/
theorem Params.legal_duty {c : Params} (h : c.legal = true) :
    c.minDuty.num < c.minDuty.den ∧ 0 < c.pureDc.den ∧ c.pureDc.num ≤ c.pureDc.den ∧ 0 < c.zeroEps.den ∧
      0 < c.zeroEps.num ∧ c.dutyMax ≤ 255 := by
  obtain ⟨-, -, hfrac, -, hderived, -⟩ := c.legal_iff.mp h
  obtain ⟨-, hmin, hdc, -, hdcLe, heps, hepsPos, -⟩ := c.fractionsInRange_iff.mp hfrac
  exact ⟨hmin, hdc, hdcLe, heps, hepsPos, (c.derivedAgree_iff.mp hderived).2.1⟩

end Sys2Proof

namespace Sys2Proof.Machine

/-! ### MECANUM (R160 to R163) -/

/-- One wheel value over Q (R161, R162). -/
theorem wheelValue_toRat (m sp : Nat) (a : Int) : (wheelValue m sp a).toRat = (a : ℚ) / m * ((sp : ℚ) / 16384) := by
  simp [wheelValue, Frac.toRat, mul_div_mul_comm]

theorem wheelValue_neg (m sp : Nat) (a : Int) :
    wheelValue m sp (-a) = ⟨-(wheelValue m sp a).num, (wheelValue m sp a).den⟩ := by
  simp [wheelValue]

/-- The normaliser over Q (R161). -/
theorem normaliser_cast (a : PerWheel Int) :
    (normaliser a : ℚ) = max 16384 (max |(a.fl : ℚ)| (max |(a.fr : ℚ)| (max |(a.rl : ℚ)| |(a.rr : ℚ)|))) := by
  simp [normaliser, Nat.cast_natAbs]

/-- Settles O31: each wheel value is `wheelValue` of its sum, under the normaliser of the four. -/
theorem mecanumWheelValues : Obligations.MecanumWheelValues := by
  intro s vx vy om sp
  refine ⟨mecanum s.cfg vx.toInt vy.toInt om.toInt sp.toNat, rfl, ?_⟩
  have hm := normaliser_cast (rawSums s.cfg vx.toInt vy.toInt om.toInt)
  simp only [rawSums, Sign.apply_eq_ite] at hm
  simp only [mecanum, rawSums, Sign.apply_eq_ite, wheelValue_toRat, hm, and_self]

/-- A sum within the normaliser, under a speed scale of at most 1, gives a wheel value of at most 1. -/
theorem wheelValue_abs_le_one {m sp : Nat} {a : Int} (ha : a.natAbs ≤ m) (hsp : sp ≤ 16384) :
    |(wheelValue m sp a).toRat| ≤ 1 := by
  have hsum : |(a : ℚ) / m| ≤ 1 := by
    rw [abs_div, Nat.abs_cast, ← Int.cast_abs, ← Nat.cast_natAbs]
    exact div_le_one_of_le₀ (by exact_mod_cast ha) (Nat.cast_nonneg m)
  have hscale : |(sp : ℚ) / 16384| ≤ 1 := by
    rw [abs_of_nonneg (by positivity)]
    exact div_le_one_of_le₀ (by exact_mod_cast hsp) (by norm_num)
  rw [wheelValue_toRat, abs_mul]
  exact mul_le_one₀ hsum (abs_nonneg _) hscale

theorem rawSums_neg (c : Params) (x y o : Int) :
    rawSums c (-x) (-y) (-o) =
      ⟨-(rawSums c x y o).fl, -(rawSums c x y o).fr, -(rawSums c x y o).rl, -(rawSums c x y o).rr⟩ := by
  simp only [rawSums, Sign.apply_neg, PerWheel.mk.injEq]
  omega

theorem normaliser_neg (a : PerWheel Int) : normaliser ⟨-a.fl, -a.fr, -a.rl, -a.rr⟩ = normaliser a := by
  simp [normaliser]

/-- Settles O32: the normaliser bounds each sum, and negated axes negate the sums and leave the normaliser. -/
theorem wheelValuesBoundedAndOdd : Obligations.WheelValuesBoundedAndOdd := by
  intro c x y o sp hsp
  constructor
  · obtain ⟨-, hfl, hfr, hrl, hrr⟩ := normaliser_bounds (rawSums c x y o)
    simp only [List.forall_mem_cons]
    exact ⟨wheelValue_abs_le_one hfl hsp, wheelValue_abs_le_one hfr hsp, wheelValue_abs_le_one hrl hsp,
      wheelValue_abs_le_one hrr hsp, nofun⟩
  · simp only [mecanum, rawSums_neg, normaliser_neg, wheelValue_neg]

/-- MECANUM reads nothing of the configuration but RR_VX_SIGN. -/
theorem mecanum_eq_default {c : Params} (h : c.rrVxSign = .plus) (x y o : Int) (sp : Nat) :
    mecanum c x y o sp = mecanum {} x y o sp := by
  simp only [mecanum, rawSums, h]

/-- Settles O33: under the default configuration the five cases compute. -/
theorem kinematicsSymmetry : Obligations.KinematicsSymmetry := by
  intro c hc
  simp only [mecanum_eq_default hc]
  refine ⟨?_, ?_, ?_, ?_, fun sp => ?_⟩ <;>
    norm_num [mecanum, wheelValue_toRat, rawSums, normaliser, Sign.apply]

/-! ### DUTYMAP (R164 to R169) -/

theorem inZeroBand_iff {c : Params} {e : Frac} (hd : 0 < e.den) (hr : 0 < c.zeroEps.den) :
    inZeroBand c e.num.natAbs e.den = true ↔ |e.toRat| < c.zeroEps.toRat := by
  rw [inZeroBand, decide_eq_true_eq, Frac.abs_toRat_lt_iff hd hr]

theorem isFullyOn_iff {c : Params} {e : Frac} (hd : 0 < e.den) (hr : 0 < c.pureDc.den) :
    isFullyOn c e.num.natAbs e.den = true ↔ c.pureDc.toRat ≤ |e.toRat| := by
  rw [isFullyOn, decide_eq_true_eq, ← not_lt, ← not_lt, Frac.abs_toRat_lt_iff hd hr]

/-- The one integer division is the floor of the line (R168). -/
theorem dutyCode_eq_floor {c : Params} (hmin : c.minDuty.num < c.minDuty.den) {n d : Nat} (hd : 0 < d) :
    (dutyCode c n d : Int) =
      ⌊(c.dutyMax : ℚ) * (c.minDuty.toRat + (1 - c.minDuty.toRat) * ((n : ℚ) / d))⌋ := by
  have hden : (c.minDuty.den : ℚ) ≠ 0 := by exact_mod_cast (Nat.zero_lt_of_lt hmin).ne'
  have hd : (d : ℚ) ≠ 0 := by exact_mod_cast hd.ne'
  rw [dutyCode, Int.natCast_div, ← Rat.floor_natCast_div_natCast]
  push_cast [Nat.cast_sub hmin.le, Ratio.toRat]
  congr 1
  field_simp

/-- A magnitude of at most 1 has a duty code of at most DUTY_MAX. -/
theorem dutyCode_le_dutyMax {c : Params} (hmin : c.minDuty.num < c.minDuty.den) {n d : Nat} (hn : n ≤ d) :
    dutyCode c n d ≤ c.dutyMax := by
  refine Nat.div_le_of_le_mul ?_
  rw [Nat.mul_comm _ c.dutyMax]
  refine Nat.mul_le_mul_left _ ?_
  calc c.minDuty.num * d + (c.minDuty.den - c.minDuty.num) * n
      ≤ c.minDuty.num * d + (c.minDuty.den - c.minDuty.num) * d := by gcongr
    _ = c.minDuty.den * d := by rw [← Nat.add_mul, Nat.add_sub_of_le hmin.le]

/-- A magnitude below the fully-on threshold is below 1. -/
theorem lt_of_not_isFullyOn {c : Params} (hl : c.legal = true) {n d : Nat} (hf : ¬isFullyOn c n d = true) : n < d := by
  obtain ⟨-, -, hdcLe, -⟩ := Params.legal_duty hl
  rw [isFullyOn, decide_eq_true_eq, not_le] at hf
  refine Nat.lt_of_mul_lt_mul_right (a := c.pureDc.den) (hf.trans_le ?_)
  rw [Nat.mul_comm d]
  exact Nat.mul_le_mul_right d hdcLe

/-- Below the fully-on threshold the duty code fits its eight bits. -/
theorem dutyCode_toNat {c : Params} (hl : c.legal = true) {n d : Nat} (hf : ¬isFullyOn c n d = true) :
    (BitVec.ofNat 8 (dutyCode c n d)).toNat = dutyCode c n d := by
  obtain ⟨hmin, -, -, -, -, hmax⟩ := Params.legal_duty hl
  have hle := dutyCode_le_dutyMax hmin (lt_of_not_isFullyOn hl hf).le
  rw [BitVec.toNat_ofNat, Nat.mod_eq_of_lt (by omega)]

/-- The wiring sign acts on the wheel value alone (R164). -/
theorem dutyMap_eq_signed (c : Params) (sg : Sign) (w : Frac) : dutyMap c sg w = dutyMap c .plus (w.signed sg) := rfl

/-- The register of the zero band is STOP (R165). -/
theorem dutyMap_of_zeroBand {c : Params} {e : Frac} (hz : inZeroBand c e.num.natAbs e.den = true) :
    dutyMap c .plus e = {} := if_pos hz

/-- From the threshold on the register is fully on (R166, R167). -/
theorem dutyMap_of_fullyOn {c : Params} {e : Frac} (hz : ¬inZeroBand c e.num.natAbs e.den = true)
    (hf : isFullyOn c e.num.natAbs e.den = true) :
    dutyMap c .plus e = { dirA := decide (0 < e.num), dirB := !decide (0 < e.num), fullOn := true, duty := 255 } :=
  (if_neg hz).trans (if_pos hf)

/-- Between the zero band and the threshold the register holds the line's duty code (R166, R168). -/
theorem dutyMap_of_line {c : Params} {e : Frac} (hz : ¬inZeroBand c e.num.natAbs e.den = true)
    (hf : ¬isFullyOn c e.num.natAbs e.den = true) :
    dutyMap c .plus e = { dirA := decide (0 < e.num), dirB := !decide (0 < e.num), fullOn := false,
                          duty := BitVec.ofNat 8 (dutyCode c e.num.natAbs e.den) } :=
  (if_neg hz).trans (if_neg hf)

/-- The zero band holds zero (R165). -/
theorem inZeroBand_zero {c : Params} (hl : c.legal = true) {d : Nat} (hd : 0 < d) : inZeroBand c 0 d = true := by
  obtain ⟨-, -, -, -, hepsPos, -⟩ := Params.legal_duty hl
  simpa [inZeroBand] using ⟨hepsPos, hd⟩

/-- Outside the zero band the sign picks the direction pin (R166). -/
theorem dutyMap_direction_iff {c : Params} (hl : c.legal = true) {e : Frac} (hd : 0 < e.den)
    (hz : ¬inZeroBand c e.num.natAbs e.den = true) :
    ((dutyMap c .plus e).dirA = true ↔ 0 < e.toRat) ∧ ((dutyMap c .plus e).dirB = true ↔ e.toRat < 0) := by
  have hne : e.num ≠ 0 := fun h => hz (by rw [h]; exact inZeroBand_zero hl hd)
  have hdir : (dutyMap c .plus e).dirA = decide (0 < e.num) ∧ (dutyMap c .plus e).dirB = !decide (0 < e.num) := by
    by_cases hf : isFullyOn c e.num.natAbs e.den = true
    · rw [dutyMap_of_fullyOn hz hf]
      exact ⟨rfl, rfl⟩
    · rw [dutyMap_of_line hz hf]
      exact ⟨rfl, rfl⟩
  rw [hdir.1, hdir.2, Frac.toRat_pos_iff hd, Frac.toRat_neg_iff hd, Bool.not_eq_true', decide_eq_false_iff_not,
    decide_eq_true_eq]
  omega

/-- Settles O34: the three regimes of the signed value, whose integer comparisons are those over Q. -/
theorem dutyMapRegimes : Obligations.DutyMapRegimes := by
  intro s num den sg hl
  refine ⟨dutyMap s.cfg sg (wheelOf num den), rfl, ?_⟩
  obtain ⟨hmin, hdc, -, heps, -⟩ := Params.legal_duty hl
  intro e
  have he : e = ((wheelOf num den).signed sg).toRat := by
    rw [Frac.signed_toRat, wheelOf, Frac.toRat]
    push_cast
    rfl
  have hd : 0 < ((wheelOf num den).signed sg).den := Nat.succ_pos _
  rw [dutyMap_eq_signed]
  clear_value e
  generalize (wheelOf num den).signed sg = v at he hd ⊢
  subst he
  refine ⟨fun hz => dutyMap_of_zeroBand ((inZeroBand_iff hd heps).mpr hz), fun hz => ?_⟩
  have hz : ¬inZeroBand s.cfg v.num.natAbs v.den = true := fun h => hz.not_gt ((inZeroBand_iff hd heps).mp h)
  obtain ⟨hdirA, hdirB⟩ := dutyMap_direction_iff hl hd hz
  refine ⟨hdirA, hdirB, fun hf => ?_, fun hf => ?_⟩
  · rw [dutyMap_of_fullyOn hz ((isFullyOn_iff hd hdc).mpr hf)]
    exact ⟨rfl, rfl⟩
  · have hf : ¬isFullyOn s.cfg v.num.natAbs v.den = true := fun h => hf.not_ge ((isFullyOn_iff hd hdc).mp h)
    rw [dutyMap_of_line hz hf, dutyCode_toNat hl hf, Frac.abs_toRat]
    exact ⟨rfl, dutyCode_eq_floor hmin hd⟩

/-- With the default parameters the line runs from code 76 to code 219 below the threshold (R169). -/
theorem dutyCode_default_bounds {n d : Nat} (hd : 0 < d) (hf : ¬isFullyOn {} n d = true) :
    76 ≤ dutyCode {} n d ∧ dutyCode {} n d < 220 := by
  have hf : ¬4 * d ≤ n * 5 := of_decide_eq_false (Bool.eq_false_of_not_eq_true hf)
  change 76 ≤ 255 * (3 * d + 7 * n) / (10 * d) ∧ 255 * (3 * d + 7 * n) / (10 * d) < 220
  rw [Nat.le_div_iff_mul_le (by omega), Nat.div_lt_iff_lt_mul (by omega)]
  omega

/-- Settles O35: the zero band, the fully-on regime, and the line between them. -/
theorem defaultDutyCodes : Obligations.DefaultDutyCodes := by
  intro sg w hd
  replace hd : 0 < (w.signed sg).den := hd
  rw [dutyMap_eq_signed]
  generalize w.signed sg = e at hd ⊢
  by_cases hz : inZeroBand {} e.num.natAbs e.den = true
  · rw [dutyMap_of_zeroBand hz]
    exact .inl ⟨rfl, rfl, rfl, rfl⟩
  by_cases hf : isFullyOn {} e.num.natAbs e.den = true
  · rw [dutyMap_of_fullyOn hz hf]
    exact .inr (.inr ⟨rfl, rfl⟩)
  · obtain ⟨hlow, hhigh⟩ := dutyCode_default_bounds hd hf
    rw [← dutyCode_toNat (by decide) hf] at hlow hhigh
    rw [dutyMap_of_line hz hf]
    exact .inr (.inl ⟨hlow, Nat.le_of_lt_succ hhigh, rfl⟩)

/-! ### MOTOR_APPLY (R170) -/

/-- Settles O36: in RUN it is `motorApply`, whose motors are `driveMotors` of the mailbox. -/
theorem motorApplyEffect : Obligations.MotorApplyEffect := by
  intro s hrun
  rw [exec_motorApply, exec_motorApply, execMotorApply, execMotorApply, whenRunning_run hrun, whenRunning_run hrun]
  exact ⟨rfl, rfl⟩

end Sys2Proof.Machine
end

section
/-! Family 43_session_fsm (spec/43_session_fsm.md): MEANINGFUL, the four session sub-operations, what a tick leaves of the session,
the motors and the enable lines, and a whole lockout. -/

namespace Sys2Proof.Machine

/-! ### MEANINGFUL (R187) -/

/-- The deadband comparison over Q, by cross-multiplication. -/
theorem aboveDeadband_iff {c : Params} (hd : 0 < c.deadband.den) (v : BitVec 16) :
    aboveDeadband c v = true ↔ c.deadband.toRat < |(v.toInt : ℚ) / 16384| := by
  have hden : (0 : ℚ) < c.deadband.den := by exact_mod_cast hd
  rw [aboveDeadband, decide_eq_true_eq, Ratio.toRat, abs_div, abs_of_pos (show (0 : ℚ) < 16384 by norm_num),
    div_lt_div_iff₀ hden (by norm_num), ← Int.cast_abs, ← Nat.cast_natAbs]
  exact_mod_cast Iff.rfl

/-- Settles O16: the bit is `meaningfulCommand` of the word's fields. -/
theorem meaningfulAboveDeadband : Obligations.MeaningfulAboveDeadband := by
  intro s w hd
  refine ⟨meaningfulCommand s.cfg (commandOf w), rfl, ?_⟩
  simp only [meaningfulCommand, Bool.or_eq_true, aboveDeadband_iff hd, or_assoc]

/-! ### HIT_TAKE (R182, R191, R192) -/

/-- HIT_TAKE on a queue whose first event that passes the filter stands after `before` (R182). -/
theorem hitTake_takes {s : State} {before after : List HitEvent} {e : HitEvent} (hact : s.session.hitActive = false)
    (hq : s.hitq = before ++ e :: after) (hbefore : ∀ x ∈ before, s.selfhitEn = false ∧ x.self = true)
    (he : s.selfhitEn = true ∨ e.self = false) :
    hitTake s = (true, { enterLockout s e with
      hitq := []
      out := { s.out with codes := s.out.codes ++ List.replicate (before.length + after.length) .hitIgnored } }) :=
  drainHits_takes before after e _ _ s hq (Nat.le_refl _) hact (fun x hx => by simpa using hbefore x hx)
    (by simpa using he)

/-- HIT_TAKE on a queue of which no event is taken (R182, R191). -/
theorem hitTake_discards {s : State}
    (h : s.session.hitActive = true ∨ ∀ x ∈ s.hitq, s.selfhitEn = false ∧ x.self = true) :
    hitTake s = (false, { s with
      hitq := [], out := { s.out with codes := s.out.codes ++ List.replicate s.hitq.length .hitIgnored } }) := by
  refine drainHits_discards s.hitq _ _ s rfl (Nat.le_refl _) fun x hx => ?_
  obtain hact | hmasked := h
  · simp [hact]
  · simp [hmasked x hx]

/-- HIT_TAKE in RUN answers whether the lockout was entered. -/
theorem exec_hitTake_run {s : State} (hrun : s.runState = .run) :
    exec .hitTake s = .next ((hitTake s.clearOut).2.withResult (.flag (hitTake s.clearOut).1)) := by
  rw [exec_hitTake, execHitTake, whenRunning_run hrun]

/-- Settles O37. -/
theorem hitTakeTakesFirst : Obligations.HitTakeTakesFirst := by
  intro s before after e hrun hact hq hbefore he
  rw [exec_hitTake_run hrun, hitTake_takes (s := s.clearOut) hact hq hbefore he]
  rfl

/-- Settles O38. -/
theorem hitTakeDiscards : Obligations.HitTakeDiscards := by
  intro s hrun h
  rw [exec_hitTake_run hrun, hitTake_discards (s := s.clearOut) h]
  rfl

/-! ### HIT_EXPIRE (R183, R240) -/

/-- Outside the lockout, and on the tick that entered it, HIT_EXPIRE does nothing. -/
theorem hitExpire_skips {s : State} {entered : Bool} (h : s.session.hitActive = false ∨ entered = true) (el : Nat) :
    hitExpire s el entered = s := by
  refine if_neg ?_
  obtain hidle | hentered := h
  · simp [hidle]
  · simp [hentered]

/-- Before its end HIT_EXPIRE counts the lockout down. -/
theorem hitExpire_counts {s : State} {el : Nat} (hact : s.session.hitActive = true) (hel : el < s.session.remaining) :
    hitExpire s el false = { s with session := { s.session with remaining := s.session.remaining - el } } := by
  have hleft : s.session.remaining - el ≠ 0 := by omega
  simp [hitExpire, hact, Nat.min_eq_right hel.le, hleft]

/-- At its end HIT_EXPIRE leaves the lockout; the subtraction saturates. -/
theorem hitExpire_leaves {s : State} {el : Nat} (hact : s.session.hitActive = true) (hel : s.session.remaining ≤ el) :
    hitExpire s el false = leaveLockout s := by
  simp [hitExpire, hact, Nat.min_eq_left hel]

theorem exec_hitExpire_run {s : State} (hrun : s.runState = .run) (el : BitVec 64) (entered : Bool) :
    exec (.hitExpire el entered) s = .next (hitExpire s.clearOut el.toNat entered) := by
  rw [exec_hitExpire, execHitExpire, whenRunning_run hrun]

/-- Settles O40: the three cases of HIT_EXPIRE. -/
theorem hitExpireEffect : Obligations.HitExpireEffect := by
  intro s el entered hrun
  simp only [exec_hitExpire_run hrun]
  refine ⟨fun h => ?_, fun hact hel => ?_, fun hact hel => ?_⟩
  · rw [hitExpire_skips (s := s.clearOut) h]; rfl
  · rw [hitExpire_counts (s := s.clearOut) hact hel]; rfl
  · rw [hitExpire_leaves (s := s.clearOut) hact hel]; rfl

/-! ### SAFETY_STOP and STANDBY_UPDATE (R184 to R186) -/

/-- The stop condition (R184). -/
theorem stopCondition_iff (s : State) :
    stopCondition s = true ↔
      s.mailbox.valid = false ∨ s.mailbox.cmd.estop = true ∨ s.cfg.cmdTimeout < s.now - s.mailbox.tCmd := by
  simp only [stopCondition, Bool.or_eq_true, Bool.not_eq_true', decide_eq_true_eq, or_assoc]

/-- Settles O41: the answer and the flag are `stopCondition`. -/
theorem safetyStopCondition : Obligations.SafetyStopCondition := by
  intro s hrun
  refine ⟨stopCondition s, ?_, stopCondition_iff s⟩
  rw [exec_safetyStop, execSafetyStop, whenRunning_run hrun]
  rfl

/-- The latch that STANDBY_UPDATE leaves (R185, R186). -/
def standbyAfter (s : State) : Bool := if s.session.hitActive then s.session.standby else inactive s

theorem standbyUpdate_eq (s : State) :
    standbyUpdate s =
      { s with session := { s.session with standby := standbyAfter s }, driveEnable := !standbyAfter s } := rfl

/-- The lockout holds the latch. -/
theorem standbyAfter_of_active {s : State} (hact : s.session.hitActive = true) : standbyAfter s = s.session.standby :=
  if_pos hact

/-- Outside the lockout the latch is the inactivity condition. -/
theorem standbyAfter_of_idle {s : State} (hact : s.session.hitActive = false) : standbyAfter s = inactive s :=
  if_neg (Bool.eq_false_iff.mp hact)

/-- In the lockout STANDBY_UPDATE leaves the session. -/
theorem standbyUpdate_session_of_active {s : State} (hact : s.session.hitActive = true) :
    (standbyUpdate s).session = s.session := by
  rw [standbyUpdate_eq, standbyAfter_of_active hact]

/-- Outside the lockout an inactivity timer that starts now clears the latch. -/
theorem standbyUpdate_session_of_fresh {s : State} (hact : s.session.hitActive = false) (hin : s.mailbox.tInput = s.now) :
    (standbyUpdate s).session = { s.session with standby := false } := by
  rw [standbyUpdate_eq, standbyAfter_of_idle hact, inactive, hin, Nat.sub_self]
  rfl

/-- Settles O42: the latch is `standbyAfter`. -/
theorem standbyUpdateEffect : Obligations.StandbyUpdateEffect := by
  intro s hrun
  refine ⟨standbyAfter s, ?_, standbyAfter_of_active, fun hact => ?_⟩
  · rw [exec_standbyUpdate, execStandbyUpdate, whenRunning_run hrun]
    rfl
  · rw [standbyAfter_of_idle hact, inactive, decide_eq_true_eq]

/-! ### What a tick leaves (R189, R190, R202) -/

/-- A tick's MOTOR_APPLY halts by the state the tick leaves: FIRE_DISPATCH, which follows it, writes nothing that it read. -/
theorem tick_halt (s : State) :
    haltMotors (tickSession s).2 (tickSession s).1 =
      ((tick s).session.hitActive || (tick s).flags.stopActive || (tick s).session.standby) := by
  rw [tick_stopActive, tick_session]
  rfl

/-- A tick that leaves the lockout, the standby latch or the safety stop on stops the motors (R189). -/
theorem tick_stops {s : State}
    (h : (tick s).session.hitActive = true ∨ (tick s).session.standby = true ∨ (tick s).flags.stopActive = true) :
    AllStopped (tick s).mot := by
  have hhalt : haltMotors (tickSession s).2 (tickSession s).1 = true := by
    simp only [tick_halt, Bool.or_eq_true]
    tauto
  rw [tick_mot, hhalt]
  exact ⟨rfl, rfl, rfl, rfl⟩

/-- After any other tick the motors follow the latest command (R190). -/
theorem tick_drives {s : State} (hact : (tick s).session.hitActive = false) (hstandby : (tick s).session.standby = false)
    (hstop : (tick s).flags.stopActive = false) : (tick s).mot = driveMotors s.cfg s.mailbox.cmd := by
  have hhalt : haltMotors (tickSession s).2 (tickSession s).1 = false := by rw [tick_halt, hact, hstandby, hstop]; rfl
  rw [tick_mot, hhalt, tickSession_frame]
  rfl

/-- Settles O46: a tick's last latch, motors and stop flag, read from the state it leaves. -/
theorem motorsFollowStateAfterTick : Obligations.MotorsFollowStateAfterTick := by
  intro s t hrun htick
  cases (exec_tick_run hrun).symm.trans htick
  refine ⟨tick_enable _, tick_stops, tick_drives, ?_⟩
  rw [tick_stopActive, tickSession_stop]
  exact stopCondition_iff s

/-- A tick that ends in the lockout leaves a transmission in flight alone (R202). -/
theorem tick_tx_of_lockout {s : State} (hact : (tick s).session.hitActive = true) : (tick s).tx = s.tx := by
  rw [tick_session] at hact
  rw [tick_eq, fireDispatch_tx_of_hit _ (by rw [motorApply_frame]; exact hact), motorApply_frame, tickSession_frame]

/-- A tick refuses a fire exactly when it ends in the lockout (R202). -/
theorem tick_fireRefused (s : State) :
    (tick s).flags.fireRefused = (s.mailbox.valid && s.mailbox.cmd.fire && (tick s).session.hitActive) := by
  rw [tick_session, tick_eq, fireDispatch_fireRefused, motorApply_frame]
  dsimp only
  rw [tickSession_frame]

/-! ### A tick that takes a hit (R182, R239) -/

/-- The session part of a tick, from what its HIT_TAKE leaves. -/
theorem tickSession_of_hitTake {s u : State} {entered : Bool}
    (h : hitTake { s with tLastTick := s.now } = (entered, u)) :
    (tickSession s).2 = standbyUpdate (safetyStop (hitExpire u (s.now - s.tLastTick) entered)).2 := by
  rw [tickSession, h]

/-- A tick that takes the queue's first event enters the lockout and counts nothing off it. -/
theorem tickSession_of_hit {s : State} {e : HitEvent} {rest : List HitEvent} (hact : s.session.hitActive = false)
    (hq : s.hitq = e :: rest) (he : s.selfhitEn = true ∨ e.self = false) :
    (tickSession s).2.session = (enterLockout s e).session ∧ (tickSession s).2.mailbox = s.mailbox := by
  have htake := hitTake_takes (s := { s with tLastTick := s.now }) (before := []) hact hq nofun he
  rw [tickSession_of_hitTake htake, hitExpire_skips (.inr rfl)]
  exact ⟨standbyUpdate_session_of_active rfl, rfl⟩

/-- Settles O47: what the tick's session part leaves decides the motors, the fire and the enable lines. -/
theorem hitDisablesAtNextTick : Obligations.HitDisablesAtNextTick := by
  intro s e rest hrun hact hq he
  obtain ⟨hsession, hmailbox⟩ := tickSession_of_hit (s := s.clearOut) hact hq he
  rw [← tick_session] at hsession
  rw [← tick_mailbox] at hmailbox
  have hlocked : (tick s.clearOut).session.hitActive = true := by rw [hsession]; rfl
  refine ⟨tick s.clearOut, exec_tick_run hrun, hsession, ?_, tick_stops (.inl hlocked), tick_tx_of_lockout hlocked,
    hmailbox, ?_, ?_⟩
  · rw [sessionState, hsession]; rfl
  · rw [tick_fireRefused, hlocked, Bool.and_true, Bool.and_eq_true]; rfl
  · rw [tick_enable, hsession]; rfl

/-! ### A whole lockout (R183, R241) -/

/-- In the lockout a tick's HIT_TAKE leaves the session and the clock, whatever the queue holds (R191). -/
theorem tickSession_of_lockout {s : State} (hact : s.session.hitActive = true) : ∃ u,
    (tickSession s).2 = standbyUpdate (safetyStop (hitExpire u (s.now - s.tLastTick) false)).2 ∧
      u.session = s.session ∧ u.now = s.now := by
  obtain ⟨o, htake⟩ := hitTake_of_active (s := { s with tLastTick := s.now }) hact
  exact ⟨_, tickSession_of_hitTake htake, rfl, rfl⟩

/-- A tick before the lockout's end counts it down. -/
theorem tick_session_of_lockout {s : State} (hact : s.session.hitActive = true)
    (hel : s.now - s.tLastTick < s.session.remaining) :
    (tick s).session = { s.session with remaining := s.session.remaining - (s.now - s.tLastTick) } := by
  obtain ⟨u, hu, hsession, -⟩ := tickSession_of_lockout hact
  rw [← hsession] at hact hel ⊢
  rw [tick_session, hu, hitExpire_counts hact hel]
  exact standbyUpdate_session_of_active hact

/-- The tick at the lockout's end leaves it: Driving, since the inactivity timer starts afresh. -/
theorem tick_of_expiry {s : State} (hact : s.session.hitActive = true) (hel : s.session.remaining ≤ s.now - s.tLastTick) :
    (tick s).session = {} ∧ (tick s).mailbox.tInput = s.now := by
  obtain ⟨u, hu, hsession, hnow⟩ := tickSession_of_lockout hact
  rw [← hsession] at hact hel
  rw [tick_session, tick_mailbox, hu, hitExpire_leaves hact hel]
  exact ⟨standbyUpdate_session_of_fresh rfl rfl, hnow⟩

/-- A tick records its time (R201). -/
theorem tick_tLastTick (s : State) : (tick s).tLastTick = s.now := by rw [tick_frame]

/-- The state at its next tick's time, nothing answered yet (R200). -/
def atNextTick (s : State) : State := { s with now := s.tLastTick + s.cfg.tickPeriod, out := {} }

theorem exec_tick_due {s : State} (hrun : s.runState = .run) :
    exec .tick { s with now := s.tLastTick + s.cfg.tickPeriod } = .next (tick (atNextTick s)) :=
  exec_tick_run (s := { s with now := s.tLastTick + s.cfg.tickPeriod }) hrun

/-- `tickTimes` takes its first tick first; this takes the last one last. -/
theorem tickTimes_succ {n : Nat} {s t : State} (h : tickTimes n s = .next t) (hrun : t.runState = .run) :
    tickTimes (n + 1) s = .next (tick (atNextTick t)) := by
  induction n generalizing s with
  | zero =>
    cases h
    exact (andThen_next _).trans (exec_tick_due hrun)
  | succ n ih =>
    rw [tickTimes] at h ⊢
    cases hx : exec .tick { s with now := s.tLastTick + s.cfg.tickPeriod } with
    | next u => rw [hx] at h; exact ih h
    | fault r => rw [hx] at h; cases h
    | refused r => rw [hx] at h; cases h

/-- `t` is what `k` ticks leave of `s`, in whose lockout `n` tick periods were left. -/
structure InLockout (s : State) (n k : Nat) (t : State) : Prop where
  runState : t.runState = .run
  cfg : t.cfg = s.cfg
  lastTick : t.tLastTick = s.tLastTick + k * s.cfg.tickPeriod
  active : t.session.hitActive = true
  remaining : t.session.remaining = (n - k) * s.cfg.tickPeriod
  hitBy : t.session.hitBy = s.session.hitBy
  tx : t.tx = s.tx
  stopped : 0 < k → AllStopped t.mot

section
variable {s t : State} {n k : Nat}

/-- The next tick finds one period gone by. -/
theorem InLockout.elapsed (h : InLockout s n k t) :
    (atNextTick t).now - (atNextTick t).tLastTick = s.cfg.tickPeriod :=
  (Nat.add_sub_cancel_left ..).trans (congrArg _ h.cfg)

/-- The next tick comes `k + 1` periods after the tick before the first. -/
theorem InLockout.nextTick_now (h : InLockout s n k t) :
    (atNextTick t).now = s.tLastTick + (k + 1) * s.cfg.tickPeriod := by
  rw [atNextTick, h.lastTick, h.cfg, Nat.succ_mul, Nat.add_assoc]

/-- A tick before the last one goes on with the lockout. -/
theorem InLockout.next (h : InLockout s n k t) (hp : 0 < s.cfg.tickPeriod) (hk : k + 1 < n) :
    InLockout s n (k + 1) (tick (atNextTick t)) := by
  have hlast : s.cfg.tickPeriod < t.session.remaining := by
    rw [h.remaining]
    exact lt_mul_of_one_lt_left hp (by omega)
  have hsession := tick_session_of_lockout (s := atNextTick t) h.active (h.elapsed.trans_lt hlast)
  rw [h.elapsed] at hsession
  have hactive : (tick (atNextTick t)).session.hitActive = true := by rw [hsession]; exact h.active
  obtain ⟨hcfg, -, hrun, -, -⟩ := tick_fixed (atNextTick t)
  exact
    { runState := hrun.trans h.runState
      cfg := hcfg.trans h.cfg
      lastTick := (tick_tLastTick _).trans h.nextTick_now
      active := hactive
      remaining := by
        calc (tick (atNextTick t)).session.remaining
            = t.session.remaining - s.cfg.tickPeriod := by rw [hsession]; rfl
          _ = (n - (k + 1)) * s.cfg.tickPeriod := by rw [h.remaining, ← Nat.sub_one_mul, Nat.sub_sub]
      hitBy := by rw [hsession]; exact h.hitBy
      tx := (tick_tx_of_lockout hactive).trans h.tx
      stopped := fun _ => tick_stops (.inl hactive) }

end

/-- Before the `n`-th tick the lockout goes on. -/
theorem tickTimes_inLockout {s : State} {n : Nat} (h : InLockout s n 0 s) (hp : 0 < s.cfg.tickPeriod) (k : Nat) (hk : k < n) :
    ∃ t, tickTimes k s = .next t ∧ InLockout s n k t := by
  induction k with
  | zero => exact ⟨s, rfl, h⟩
  | succ k ih =>
    obtain ⟨t, ht, hlock⟩ := ih (Nat.lt_of_succ_lt hk)
    exact ⟨_, tickTimes_succ ht hlock.runState, hlock.next hp hk⟩

/-- Settles O48, by induction on the ticks before the `n`-th, which finds one period left. -/
theorem lockoutLastsItsTicks : Obligations.LockoutLastsItsTicks := by
  intro s n hrun hact hp hn hremaining
  have hstart : InLockout s n 0 s := ⟨hrun, rfl, by simp, hact, hremaining, rfl, rfl, nofun⟩
  refine ⟨fun k hk hkn => ?_, ?_⟩
  · obtain ⟨t, ht, h⟩ := tickTimes_inLockout hstart hp k hkn
    exact ⟨t, ht, h.active, h.remaining, h.hitBy, h.stopped hk, h.tx⟩
  · obtain ⟨k, rfl⟩ := Nat.exists_eq_add_one.mpr hn
    obtain ⟨t, ht, h⟩ := tickTimes_inLockout hstart hp k (Nat.lt_succ_self k)
    have hone : t.session.remaining = s.cfg.tickPeriod := by rw [h.remaining, Nat.add_sub_cancel_left, Nat.one_mul]
    obtain ⟨hsession, hinput⟩ := tick_of_expiry (s := atNextTick t) h.active (hone.trans h.elapsed.symm).le
    have hnow : (tick (atNextTick t)).now = (atNextTick t).now := (tick_fixed _).now
    refine ⟨_, tickTimes_succ ht h.runState, ?_, ?_, hsession, hinput.trans hnow.symm, hnow.trans h.nextTick_now⟩
    · rw [sessionState, hsession]; rfl
    · rw [tick_enable, hsession]; rfl

end Sys2Proof.Machine
end

section
/-! Family 44_control_loop (spec/44_control_loop.md): CMD_WRITE, CFG_WRITE, STATUS_READ, SHUTDOWN, FIRE_DISPATCH and
TICK, and the arbiter's turn: what is due first, what is lined up there, in which order, and what is refused. -/

namespace Sys2Proof

/-- What a legal configuration says of the number of receivers (R8 (e)). -/
theorem Params.legal_nRx {c : Params} (h : c.legal = true) : c.nRx ≤ 16 := by
  obtain ⟨-, -, -, hsizes, -⟩ := c.legal_iff.mp h
  obtain ⟨-, -, hmax, -⟩ := c.sizesInRange_iff.mp hsizes
  exact hmax

end Sys2Proof

namespace Sys2Proof.Machine

/-! ### One operation a step (R61, R208) -/

theorem perform_of_decode {w : TraceWord} {i : Instr} (h : decode w = .ok i) (s : State) : perform w s = exec i s := by
  simp only [perform, h]

/-- Settles O4. -/
theorem stepPerformsDecoded : Obligations.StepPerformsDecoded := by
  intro s w rest i hl ha hd
  rw [step, if_pos hl, fetch, ha]
  exact perform_of_decode hd _

/-! ### SHUTDOWN (R206) -/

/-- Outside RUN an operation that needs it changes only what is answered. -/
theorem exec_ignored {s : State} {i : Instr} (hrun : s.runState ≠ .run) (hp : pinMissing s.cfg i = false)
    (hn : needsRun i = true) : ∃ codes, exec i s = .next { s with out := { codes := codes } } :=
  ⟨_, (exec_needsRun hrun hp hn).trans (congrArg _ (ignored_eq s))⟩

/-- In HALT every operation but RESET only answers, and one that needs RUN is ignored. -/
theorem exec_halted {s : State} {i : Instr} (hhalt : s.runState = .halt) (hr : i ≠ .reset)
    (hp : pinMissing s.cfg i = false) :
    ∃ o, exec i s = .next { s with out := o } ∧ (needsRun i = true → o = { codes := [.ignoredOperation] }) := by
  have hrun : s.runState ≠ .run := by rw [hhalt]; decide
  have hreset : s.runState ≠ .reset := by rw [hhalt]; decide
  obtain ⟨-, hignored, hboot⟩ := noEffectOutsideRun s i
  by_cases hn : needsRun i = true
  · exact ⟨_, hignored hrun hp hn, fun _ => rfl⟩
  by_cases hb : ∃ r, i = .boot r
  · obtain ⟨r, rfl⟩ := hb
    exact ⟨_, hboot hreset r, fun _ => rfl⟩
  · obtain ⟨r, hx⟩ := exec_answers s (Bool.eq_false_iff.mpr hn) hr fun r hi => hb ⟨r, hi⟩
    exact ⟨_, hx, fun h => absurd h hn⟩

/-- Settles O8. -/
theorem shutdownHalts : Obligations.ShutdownHalts := by
  intro s
  refine ⟨fun hrun => ?_, fun hrun => exec_ignored hrun rfl rfl⟩
  refine ⟨_, ?_, rfl, fun i hr hp => exec_halted rfl hr hp⟩
  rw [exec_shutdown, execShutdown, whenRunning_run hrun]
  rfl

/-! ### The register space (R204, R205, R69) -/

/-- Settles O11: STATUS_READ reads with the register's own size. -/
theorem statusReadAnswersRegister : Obligations.StatusReadAnswersRegister := by
  intro s n
  refine ⟨?_, readReg_reserved s _, fun m k _ => memRead_width s m k, memRead_other s⟩
  rw [exec_statusRead, execStatusRead, memRead_width _ _ _ (regWidth_bytes _)]
  rfl

/-- A MemWrite that is not one byte to register 0 or 1 is a Discard (R69). -/
theorem memWrite_discards {s : State} (hrun : s.runState = .run) {n k : Nat} (h : 2 ≤ n ∨ k ≠ 1) (data : Byte) :
    memWrite s n k data = .next { s with out := { outcome := .discard, codes := [.badRegister] } } := by
  rw [memWrite_run hrun]
  by_cases hk : k = 1
  · rw [if_pos hk, configWrite, writeReg_none _ _ (h.resolve_right (not_not_intro hk))]
    rfl
  · rw [if_neg hk]
    rfl

/-- Settles O13: CFG_WRITE is the MemWrite of one byte. -/
theorem configWriteEffect : Obligations.ConfigWriteEffect := by
  intro s reg data
  refine ⟨fun hrun => ⟨fun h0 => ?_, fun h1 => ?_, fun h2 => ?_, fun n k h => memWrite_discards hrun h data, rfl⟩,
    fun hrun => exec_ignored hrun rfl rfl⟩
  · rw [exec_cfgWrite, execCfgWrite, memWrite_run hrun, h0]
    rfl
  · rw [exec_cfgWrite, execCfgWrite, memWrite_run hrun, h1]
    rfl
  · exact memWrite_discards hrun (.inl h2) data

/-! ### CMD_WRITE (R203) -/

/-- Settles O15. -/
theorem commandWriteEffect : Obligations.CommandWriteEffect := by
  intro s w
  refine ⟨fun hrun hlegal => ?_, fun hrun hillegal => ?_, fun hrun => exec_ignored hrun rfl rfl⟩
  · rw [exec_cmdWrite, execCmdWrite, whenRunning_run hrun, if_pos hlegal]
    rfl
  · rw [exec_cmdWrite, execCmdWrite, whenRunning_run hrun, if_neg (Bool.eq_false_iff.mp hillegal)]
    rfl

/-! ### FIRE_DISPATCH (R202) -/

/-- The tick status flags that FIRE_DISPATCH leaves. -/
def TickFlags.fired (f : TickFlags) (refused dropped : Bool) : TickFlags :=
  { f with fireRefused := refused, fireDropped := dropped }

/-- FIRE_DISPATCH with no `fire` in the latest command. -/
theorem fireDispatch_of_no_fire {s : State} (hfire : ¬(s.mailbox.valid = true ∧ s.mailbox.cmd.fire = true)) :
    fireDispatch s = { s with flags := s.flags.fired false false } := by
  rw [fireDispatch_eq]
  exact if_neg (Bool.and_eq_true_iff.not.mpr hfire)

section
variable {s : State} (hfire : s.mailbox.valid = true ∧ s.mailbox.cmd.fire = true)
include hfire

/-- FIRE_DISPATCH under the lockout, whatever the lock. -/
theorem fireDispatch_of_lockout (hact : s.session.hitActive = true) :
    fireDispatch s = { s with flags := s.flags.fired true false }.note .fireWhileDisabled := by
  rw [fireDispatch_eq]
  exact (if_pos (Bool.and_eq_true_iff.mpr hfire)).trans (if_pos hact)

/-- FIRE_DISPATCH while a transmission is in flight. -/
theorem fireDispatch_of_busy (hact : s.session.hitActive = false) (hb : s.tx.busy = true) :
    fireDispatch s = { s with flags := s.flags.fired false true }.note .txInFlight := by
  rw [fireDispatch_eq]
  exact (if_pos (Bool.and_eq_true_iff.mpr hfire)).trans ((if_neg (Bool.eq_false_iff.mp hact)).trans (if_pos hb))

/-- FIRE_DISPATCH with the lock free. -/
theorem fireDispatch_of_idle (hact : s.session.hitActive = false) (hb : s.tx.busy = false) :
    fireDispatch s = { s with
      flags := s.flags.fired false false
      tx := { busy := true, id := s.mailbox.cmd.teamId, idx := 0, phase := .burst,
              deadline := s.now + s.cfg.tStartEnd, irEnv := true } } := by
  rw [fireDispatch_eq, frameDuration_first]
  exact (if_pos (Bool.and_eq_true_iff.mpr hfire)).trans
    ((if_neg (Bool.eq_false_iff.mp hact)).trans (if_neg (Bool.eq_false_iff.mp hb)))

end

/-- FIRE_DISPATCH in RUN: a refused fire is its outcome. -/
theorem exec_fireDispatch_run {s : State} (hrun : s.runState = .run) :
    exec .fireDispatch s = .next (if (fireDispatch s.clearOut).flags.fireRefused
      then (fireDispatch s.clearOut).withOutcome .refuse else fireDispatch s.clearOut) := by
  rw [exec_fireDispatch, execFireDispatch, whenRunning_run hrun]

/-- Settles O43, by the level of `fire`, the lockout and the lock. -/
theorem fireDispatchEffect : Obligations.FireDispatchEffect := by
  intro s hrun fires f
  rw [exec_fireDispatch_run hrun]
  refine ⟨fun hfire => ?_, fun hfire hact => ?_, fun hfire hact hb => ?_, fun hfire hact hb => ?_⟩
  · rw [fireDispatch_of_no_fire (s := s.clearOut) hfire]
    rfl
  · rw [fireDispatch_of_lockout (s := s.clearOut) hfire hact]
    rfl
  · rw [fireDispatch_of_busy (s := s.clearOut) hfire hact hb]
    rfl
  · rw [fireDispatch_of_idle (s := s.clearOut) hfire hact hb]
    rfl

/-! ### TICK is its sub-operations (R201) -/

theorem exec_safetyStop_run {s : State} (hrun : s.runState = .run) :
    exec .safetyStop s = .next ((safetyStop s.clearOut).2.withResult (.flag (safetyStop s.clearOut).1)) := by
  rw [exec_safetyStop, execSafetyStop, whenRunning_run hrun]

theorem exec_standbyUpdate_run {s : State} (hrun : s.runState = .run) :
    exec .standbyUpdate s = .next (standbyUpdate s.clearOut) := by
  rw [exec_standbyUpdate, execStandbyUpdate, whenRunning_run hrun]

theorem exec_motorApply_run {s : State} (hrun : s.runState = .run) (halt : Bool) :
    exec (.motorApply halt) s = .next (motorApply s.clearOut halt) := by
  rw [exec_motorApply, execMotorApply, whenRunning_run hrun]

theorem clearOut_underQueue (s : State) (depth : Option Nat) (q : List HitEvent) (o : Out) :
    (s.underQueue depth q o).clearOut = s.underQueue depth q {} := rfl

section
variable {s : State} (hrun : s.runState = .run) (depth : Option Nat) (q : List HitEvent) (o : Out)
include hrun

theorem exec_hitExpire_underQueue (el : BitVec 64) (entered : Bool) :
    exec (.hitExpire el entered) (s.underQueue depth q o) =
      .next ((hitExpire s el.toNat entered).underQueue depth q {}) := by
  rw [exec_hitExpire_run (s := s.underQueue depth q o) hrun, clearOut_underQueue, hitExpire_underQueue]

theorem exec_motorApply_underQueue (halt : Bool) :
    exec (.motorApply halt) (s.underQueue depth q o) = .next ((motorApply s halt).underQueue depth q {}) := by
  rw [exec_motorApply_run (s := s.underQueue depth q o) hrun, clearOut_underQueue, motorApply_underQueue]

theorem exec_fireDispatch_underQueue :
    ∃ o', exec .fireDispatch (s.underQueue depth q o) = .next ((fireDispatch s).underQueue depth q o') := by
  obtain ⟨o', h⟩ := fireDispatch_underQueue s depth q {}
  rw [exec_fireDispatch_run (s := s.underQueue depth q o) hrun, clearOut_underQueue, h]
  split <;> exact ⟨_, rfl⟩

end

/-- What a tick does after its HIT_TAKE (R201). -/
def afterHitTake (elapsed : Nat) (entered : Bool) (s : State) : State :=
  let p := safetyStop (hitExpire s elapsed entered)
  let u := standbyUpdate p.2
  fireDispatch (motorApply u (haltMotors u p.1))

/-- The HIT_TAKE of a tick, which sees the tick's own time as the last tick's (R201). -/
def tickHitTake (s : State) : Bool × State := hitTake (State.clearOut { s with tLastTick := s.now })

theorem tick_eq_afterHitTake (s : State) :
    tick s.clearOut = afterHitTake (s.now - s.tLastTick) (tickHitTake s).1 (tickHitTake s).2 := rfl

/-- The five sub-operations after HIT_TAKE, performed one by one, are what a tick does there: none of them reads an answer,
and the answer is all that they see changed. -/
theorem exec_afterHitTake {s : State} (hrun : s.runState = .run) (depth : Option Nat) (q : List HitEvent) (o : Out)
    (el : BitVec 64) (entered : Bool) :
    ∃ stop s2 s3 s4 s5 o',
      exec (.hitExpire el entered) (s.underQueue depth q o) = .next s2 ∧
      exec .safetyStop s2 = .next s3 ∧ s3.out.result = .flag stop ∧
      exec .standbyUpdate s3 = .next s4 ∧
      exec (.motorApply (s4.session.hitActive || stop || s4.session.standby)) s4 = .next s5 ∧
      exec .fireDispatch s5 = .next ((afterHitTake el.toNat entered s).underQueue depth q o') := by
  have hexpired : (hitExpire s el.toNat entered).runState = .run := (hitExpire_fixed ..).runState.trans hrun
  have hlatched : (standbyUpdate (safetyStop (hitExpire s el.toNat entered)).2).runState = .run := hexpired
  have hmoved (halt : Bool) := (motorApply_fixed _ halt).runState.trans hlatched
  obtain ⟨o', hfire⟩ := exec_fireDispatch_underQueue (hmoved _) depth q {}
  exact ⟨_, _, _, _, _, o', exec_hitExpire_underQueue hrun depth q o el entered, exec_safetyStop_run hexpired, rfl,
    exec_standbyUpdate_run hexpired, exec_motorApply_underQueue hlatched depth q {} _, hfire⟩

/-- HIT_TAKE's events leave the outcome. -/
theorem drainHits_outcome (n : Nat) (b : Bool) (s : State) : (drainHits n b s).2.out.outcome = s.out.outcome := by
  induction n generalizing b s with
  | zero => rfl
  | succ n ih =>
    cases hq : s.hitq with
    | nil => rw [drainHits, (popHit_eq_none_iff s).mpr hq]
    | cons e q =>
      rw [drainHits_cons n b s e q hq, ih, takeEvent]
      split <;> rfl

theorem hitExpire_out (s : State) (el : Nat) (b : Bool) : (hitExpire s el b).out = s.out := by rw [hitExpire_frame]

theorem fireDispatch_outcome (s : State) : (fireDispatch s).out.outcome = s.out.outcome := by
  rw [fireDispatch_eq]
  dsimp only
  split
  · split
    · rfl
    · split <;> rfl
  · rfl

/-- No sub-operation of TICK changes the outcome (R201, R235). -/
theorem tick_outcome (s : State) : (tick s).out.outcome = s.out.outcome := by
  have hsession : (tickSession s).2.out = (hitTake { s with tLastTick := s.now }).2.out := hitExpire_out ..
  rw [tick_eq, fireDispatch_outcome, motorApply_frame, hsession]
  exact drainHits_outcome ..

/-- A tick empties the queue and leaves its depth (R64). -/
theorem tick_emptiesQueue (s : State) (o : Out) :
    tick s = { (tick s).underQueue s.cfg.hitqDepth [] o with out := (tick s).out } := by
  rw [tick_frame]
  rfl

/-- So does its HIT_TAKE. -/
theorem tickHitTake_emptiesQueue (s : State) (r : Result) :
    (tickHitTake s).2.withResult r =
      (tickHitTake s).2.underQueue s.cfg.hitqDepth [] { (tickHitTake s).2.out with result := r } := by
  rw [tickHitTake, hitTake_frame]
  rfl

/-- Settles O44: a tick and its sub-operations one by one differ in what is answered only. -/
theorem tickIsItsSubOperations : Obligations.TickIsItsSubOperations := by
  intro s hrun hlimit
  have helapsed : (BitVec.ofNat 64 (s.now - s.tLastTick)).toNat = s.now - s.tLastTick := by
    rw [BitVec.toNat_ofNat, Nat.mod_eq_of_lt ((Nat.sub_le ..).trans_lt hlimit)]
  have htake : exec .hitTake { s with tLastTick := s.now } = _ := exec_hitTake_run hrun
  have htook : (tickHitTake s).2.runState = .run := (hitTake_fixed _).runState.trans hrun
  obtain ⟨stop, s2, s3, s4, s5, o, hexpire, hstop, hflag, hlatch, hmotors, hfire⟩ :=
    exec_afterHitTake htook s.cfg.hitqDepth [] { (tickHitTake s).2.out with result := .flag (tickHitTake s).1 }
      (BitVec.ofNat 64 (s.now - s.tLastTick)) (tickHitTake s).1
  rw [← tickHitTake_emptiesQueue] at hexpire
  rw [helapsed, ← tick_eq_afterHitTake] at hfire
  exact ⟨(tickHitTake s).1, stop, _, s2, s3, s4, s5, _, (tick s.clearOut).out, htake, rfl, hexpire, hstop, hflag, hlatch,
    hmotors, hfire, (exec_tick_run hrun).trans (congrArg _ (tick_emptiesQueue s.clearOut o)), tick_outcome _⟩

/-! ### The order of what is lined up (R207, R208) -/

/-- The three ways in which a turn of the arbiter goes on (R208, R260). -/
theorem arbitrate_cases {s t : State} (h : arbitrate s = .next t) :
    (s.runState = .reset ∧ arbitrateInReset s.clearOut = .next t) ∨
      (s.runState ≠ .reset ∧ resetFirst s.clearOut (moveTo s) = some t) ∨
      (s.runState ≠ .reset ∧ lineUp s.clearOut (moveTo s) = .next t) := by
  unfold arbitrate at h
  dsimp only at h
  split at h
  · next hr => exact .inl ⟨hr, h⟩
  next hr =>
  split at h
  · cases h
  split at h
  · cases h
  split at h
  · next hfirst => cases h; exact .inr (.inl ⟨hr, hfirst⟩)
  · exact .inr (.inr ⟨hr, h⟩)

/-- A RESET taken alone is an input of that time (R260). -/
theorem resetFirst_some {s t : State} {n : Nat} (h : resetFirst s n = some t) :
    ∃ w, t.now = n ∧ t.agenda = [w] ∧ .op n w ∈ s.env.inputs := by
  unfold resetFirst at h
  split at h
  · next hin =>
    split at h
    · next hreset =>
      cases h
      exact ⟨_, rfl, rfl, by rw [hin, hreset.1]; exact List.mem_cons_self⟩
    · cases h
  · cases h

/-- What is lined up at a time: the inputs taken there and the block's own operations due there. -/
theorem lineUp_next {s t : State} {n : Nat} (h : lineUp s n = .next t) :
    t.now = n ∧ t.agenda = inDueOrder ((takeInputs n s.env.inputs s.env.pins).words ++
      samplesDue s n (takeInputs n s.env.inputs s.env.pins).pins ++ dueBy n (nextTxTime s) .txStep ++
      dueBy n (nextTickTime s) .tick) := by
  unfold lineUp at h
  dsimp only at h
  split at h
  · cases h
  · cases h
    exact ⟨rfl, rfl⟩

/-- While `rst` is high at most one operation is lined up. -/
theorem arbitrateInReset_agenda {s t : State} (ha : s.agenda = []) (h : arbitrateInReset s = .next t) :
    t.agenda = [] ∨ ∃ w, t.agenda = [w] := by
  unfold arbitrateInReset at h
  split at h
  · cases h; exact .inl ha
  · cases h; exact .inl ha
  · split at h
    · cases h
    · cases h; exact .inr ⟨_, rfl⟩

/-- What the arbiter lines up stands in the order of R207. -/
theorem arbitrate_sorted {s t : State} (ha : s.agenda = []) (h : arbitrate s = .next t) :
    t.agenda.Pairwise fun a b => wordPlace a ≤ wordPlace b := by
  obtain ⟨-, h⟩ | ⟨-, h⟩ | ⟨-, h⟩ := arbitrate_cases h
  · obtain hnil | ⟨w, hw⟩ := arbitrateInReset_agenda (s := s.clearOut) ha h
    · rw [hnil]; exact List.Pairwise.nil
    · rw [hw]; exact List.pairwise_singleton ..
  · obtain ⟨w, -, hw, -⟩ := resetFirst_some h
    rw [hw]; exact List.pairwise_singleton ..
  · obtain ⟨-, hagenda⟩ := lineUp_next h
    rw [hagenda]; exact inDueOrder_sorted _

/-- The words taken at a time are those of inputs that stand there. -/
theorem mem_takeInputs {n : Nat} {w : TraceWord} {ins : List Input} {pins : Vector Bool 16}
    (h : w ∈ (takeInputs n ins pins).words) : .op n w ∈ ins := by
  induction ins generalizing pins with
  | nil => exact absurd h List.not_mem_nil
  | cons x rest ih =>
    cases x with
    | pin n' p level =>
      unfold takeInputs at h
      split at h
      · exact List.mem_cons_of_mem _ (ih h)
      · exact absurd h List.not_mem_nil
    | op n' w' =>
      unfold takeInputs at h
      split at h
      · next hn =>
        obtain rfl | hw := List.mem_cons.mp h
        · rw [hn.1]; exact List.mem_cons_self
        · exact List.mem_cons_of_mem _ (ih hw)
      · exact absurd h List.not_mem_nil

theorem mem_dueBy {n : Nat} {due : Option Nat} {i : Instr} {w : TraceWord} :
    w ∈ dueBy n due i ↔ w = encode i ∧ ∃ d, due = some d ∧ d ≤ n := by
  unfold dueBy
  cases due with
  | none => simp
  | some d => by_cases hd : d ≤ n <;> simp [hd]

theorem mem_samplesDue {s : State} {n : Nat} {pins : Vector Bool 16} {w : TraceWord} (hn : s.cfg.nRx ≤ 16)
    (h : w ∈ samplesDue s n pins) : ∃ (p : BitVec 4) (v : Bool), w = encode (.edgeSync p v) ∧ p.toNat < s.cfg.nRx ∧
      s.runState = .run ∧ s.env.sampling = true ∧ s.now < n := by
  unfold samplesDue at h
  split at h
  · next hdue =>
    obtain ⟨p, hp, rfl⟩ := List.mem_map.mp h
    have hp := List.mem_range.mp hp
    refine ⟨_, _, rfl, ?_, hdue⟩
    rw [BitVec.toNat_ofNat, Nat.mod_eq_of_lt (hp.trans_le hn)]
    exact hp
  · exact absurd h List.not_mem_nil

theorem nextTickTime_eq_some_iff {s : State} {d : Nat} :
    nextTickTime s = some d ↔ s.runState = .run ∧ d = s.tLastTick + s.cfg.tickPeriod :=
  Option.ite_none_right_eq_some.trans (and_congr_right fun _ => Option.some_inj.trans eq_comm)

theorem nextTxTime_eq_some_iff {s : State} {d : Nat} :
    nextTxTime s = some d ↔ (s.runState = .run ∧ s.tx.busy = true) ∧ d = s.tx.deadline :=
  Option.ite_none_right_eq_some.trans (and_congr_right fun _ => Option.some_inj.trans eq_comm)

theorem nextSampleTime_eq_some_iff {s : State} {d : Nat} :
    nextSampleTime s = some d ↔ (s.runState = .run ∧ s.env.sampling = true) ∧ d = s.now + 1 :=
  Option.ite_none_right_eq_some.trans (and_congr_right fun _ => Option.some_inj.trans eq_comm)

/-- Out of reset what the arbiter lines up is due at the clock's new value (R208). -/
theorem arbitrate_due {s t : State} (hn : s.cfg.nRx ≤ 16) (hr : s.runState ≠ .reset) (h : arbitrate s = .next t) :
    ∀ w ∈ t.agenda,
      .op t.now w ∈ s.env.inputs ∨
      w = encode .tick ∧ s.runState = .run ∧ s.tLastTick + s.cfg.tickPeriod ≤ t.now ∨
      w = encode .txStep ∧ s.runState = .run ∧ s.tx.busy = true ∧ s.tx.deadline ≤ t.now ∨
      ∃ (p : BitVec 4) (v : Bool), w = encode (.edgeSync p v) ∧ p.toNat < s.cfg.nRx ∧ s.runState = .run ∧
        s.env.sampling = true ∧ s.now < t.now := by
  intro w hw
  obtain ⟨hreset, -⟩ | ⟨-, h⟩ | ⟨-, h⟩ := arbitrate_cases h
  · exact absurd hreset hr
  · obtain ⟨x, hnow, hagenda, hin⟩ := resetFirst_some h
    rw [hagenda, List.mem_singleton] at hw
    rw [hnow, hw]
    exact .inl hin
  · obtain ⟨hnow, hagenda⟩ := lineUp_next h
    simp only [hagenda, mem_inDueOrder, List.mem_append, mem_dueBy] at hw
    rw [hnow]
    obtain ((hw | hw) | ⟨rfl, d, hd, hle⟩) | ⟨rfl, d, hd, hle⟩ := hw
    · exact .inl (mem_takeInputs hw)
    · exact .inr (.inr (.inr (mem_samplesDue (s := s.clearOut) hn hw)))
    · obtain ⟨⟨hrun, hb⟩, rfl⟩ := nextTxTime_eq_some_iff.mp hd
      exact .inr (.inr (.inl ⟨rfl, hrun, hb, hle⟩))
    · obtain ⟨hrun, rfl⟩ := nextTickTime_eq_some_iff.mp hd
      exact .inr (.inl ⟨rfl, hrun, hle⟩)

/-- The places of one timestamp's operations rise in the order of R207. -/
theorem duePlace_ascending (r : BitVec 3) (d n : Byte) {p q : BitVec 4} (l m : Bool) (a b : BitVec 64) (w : BitVec 80)
    (h : p.toNat < q.toNat) :
    ([Instr.shutdown, .cfgWrite r d, .edge p l a, .edge q m b, .cmdWrite w, .txStep, .tick, .statusRead n].map
      duePlace).Pairwise (· < ·) := by
  have hq := q.isLt
  change [2, 3, 4 + p.toNat, 4 + q.toNat, 20, 21, 22, 23].Pairwise (· < ·)
  simp
  omega

/-- Settles O55, from what a turn of the arbiter lines up. -/
theorem arbiterKeepsOrder : Obligations.ArbiterKeepsOrder := by
  refine ⟨fun r d n p q l m a b w h => duePlace_ascending r d n l m a b w h, fun s t ha hstep => ?_⟩
  obtain ⟨hl, ⟨w, rest, i, hcons, -⟩ | ⟨-, hx⟩⟩ := step_next hstep
  · exact absurd (ha.symm.trans hcons) nofun
  obtain ⟨ht, hback, hheld, -⟩ := arbitrate_next hx
  exact ⟨arbitrate_sorted ha hx, arbitrate_issued ha hx, fun hr => arbitrate_due (Params.legal_nRx hl) hr hx, hback, hheld,
    ht⟩

/-! ### The first time at which something is due (R208) -/

/-- Something is due at `d`: an input, the next tick, the transmit deadline or a sample (R208). -/
def DueAt (s : State) (d : Nat) : Prop :=
  nextInputTime s = some d ∨ nextTickTime s = some d ∨ nextTxTime s = some d ∨ nextSampleTime s = some d

theorem dueAt_iff {s : State} {d : Nat} :
    DueAt s d ↔ nextInputTime s = some d ∨ s.runState = .run ∧ (d = s.tLastTick + s.cfg.tickPeriod ∨
      s.tx.busy = true ∧ d = s.tx.deadline ∨ s.env.sampling = true ∧ d = s.now + 1) := by
  rw [DueAt, nextTickTime_eq_some_iff, nextTxTime_eq_some_iff, nextSampleTime_eq_some_iff]
  tauto

theorem earlier_eq_some {a b : Option Nat} {d : Nat} (h : earlier a b = some d) : a = some d ∨ b = some d := by
  cases a with
  | none => exact .inr h
  | some x =>
    cases b with
    | none => exact .inl h
    | some y =>
      cases h
      exact (min_choice x y).imp (congrArg some ·.symm) (congrArg some ·.symm)

theorem le_earlier_iff {a b : Option Nat} {t : Nat} :
    (∀ d, earlier a b = some d → t ≤ d) ↔ (∀ d, a = some d → t ≤ d) ∧ ∀ d, b = some d → t ≤ d := by
  cases a <;> cases b <;> simp [earlier]

/-- The next time is one at which something is due. -/
theorem dueAt_of_nextTime {s : State} {d : Nat} (h : nextTime s = some d) : DueAt s d :=
  (earlier_eq_some h).imp_right fun h => (earlier_eq_some h).imp_right earlier_eq_some

/-- It is the first. -/
theorem le_nextTime_iff {s : State} {t : Nat} : (∀ d, nextTime s = some d → t ≤ d) ↔ ∀ d, DueAt s d → t ≤ d := by
  simp only [nextTime, le_earlier_iff, DueAt, or_imp, forall_and]

/-- The clock moves at most to a time at which something is due. -/
theorem moveTo_le {s : State} {d : Nat} (h : DueAt s d) : moveTo s ≤ max s.now d := by
  unfold moveTo
  cases hnext : nextTime s with
  | none => exact absurd (le_nextTime_iff (t := d + 1).mp (by simp [hnext]) d h) (Nat.not_succ_le_self d)
  | some n =>
    have hn : n ≤ d := le_nextTime_iff.mp (fun e he => (Option.some.inj (hnext.symm.trans he)).le) d h
    exact max_le_max_left _ hn

/-- The clock moves at least to a time before which nothing is due, if anything is. -/
theorem le_moveTo {s : State} {t : Nat} (hmin : ∀ d, DueAt s d → t ≤ d) (h : (∃ d, DueAt s d) ∨ t ≤ s.now + 1) :
    t ≤ moveTo s := by
  unfold moveTo
  cases hnext : nextTime s with
  | none =>
    refine h.resolve_left fun ⟨d, hd⟩ => ?_
    exact Nat.not_succ_le_self d (le_nextTime_iff (t := d + 1).mp (by simp [hnext]) d hd)
  | some n => exact le_max_of_le_right (hmin n (dueAt_of_nextTime hnext))

/-- The clock moves to the first time at which something is due. -/
theorem moveTo_eq {s : State} {t : Nat} (hdue : DueAt s t) (hmin : ∀ d, DueAt s d → t ≤ d) (hnow : s.now ≤ t) :
    moveTo s = t :=
  Nat.le_antisymm ((moveTo_le hdue).trans (Nat.max_eq_right hnow).le) (le_moveTo hmin (.inl ⟨t, hdue⟩))

/-! ### What is taken and lined up (R207, R208) -/

theorem resetFirst_of_no_reset {s : State} {t : Nat}
    (h : ∀ w, s.env.inputs.head? = some (.op t w) → decode w ≠ .ok .reset) : resetFirst s t = none := by
  unfold resetFirst
  split
  · next t' w rest hin =>
    refine if_neg fun ⟨ht, hw⟩ => h w ?_ ((isResetWord_iff w).mp hw)
    rw [hin, ht]
    rfl
  · rfl

/-- A RESET that stands first is taken alone (R260). -/
theorem resetFirst_of_reset {s : State} {t : Nat} {w : TraceWord} {rest : List Input} (hin : s.env.inputs = .op t w :: rest)
    (hw : decode w = .ok .reset) :
    resetFirst s t = some { s with now := t, env := { s.env with inputs := rest }, agenda := [w] } := by
  rw [resetFirst, hin]
  exact if_pos ⟨rfl, (isResetWord_iff w).mpr hw⟩

/-- An input that stands at the clock's value or later is not late. -/
theorem inputLate_of_le {s : State} (h : ∀ d, nextInputTime s = some d → s.now ≤ d) : ¬inputLate s = true := by
  rw [inputLate, Option.any_eq_true]
  rintro ⟨d, hd, hlt⟩
  exact (h d hd).not_gt (of_decide_eq_true hlt)

/-- Out of reset, with no input late and the time base not at its end, the clock moves on: to a RESET, or to what is due. -/
theorem arbitrate_moves {s : State} (hr : s.runState ≠ .reset) (hinput : ∀ d, nextInputTime s = some d → s.now ≤ d)
    (hlimit : moveTo s < timeLimit) :
    arbitrate s = (resetFirst s.clearOut (moveTo s)).elim (lineUp s.clearOut (moveTo s)) .next := by
  rw [arbitrate]
  refine (if_neg hr).trans ((if_neg (inputLate_of_le (s := s.clearOut) hinput)).trans ((if_neg hlimit.not_ge).trans ?_))
  have hmove : moveTo s.clearOut = moveTo s := rfl
  cases hfirst : resetFirst s.clearOut (moveTo s) <;> simp only [hmove, hfirst] <;> rfl

/-- Nothing is taken of inputs that begin later, or with a RESET. -/
theorem takeInputs_stops {t : Nat} {rest : List Input}
    (h : ∀ x, rest.head? = some x → t < x.time ∨ ∃ w, x = .op t w ∧ decode w = .ok .reset) (pins : Vector Bool 16) :
    takeInputs t rest pins = { words := [], pins := pins, rest := rest } := by
  cases rest with
  | nil => rfl
  | cons x rest =>
    cases x with
    | pin t' p level =>
      obtain hlt | ⟨w, hx, -⟩ := h _ rfl
      · exact if_neg (Nat.ne_of_gt hlt)
      · cases hx
    | op t' w =>
      refine if_neg fun ⟨ht, hw⟩ => ?_
      obtain hlt | ⟨w', hx, hreset⟩ := h _ rfl
      · exact Nat.ne_of_gt hlt ht
      · cases hx
        exact Bool.false_ne_true (hw.symm.trans ((isResetWord_iff w).mpr hreset))

/-- The leading inputs of a time are taken, level changes applied, up to what stands later or a RESET. -/
theorem takeInputs_append {t : Nat} {xs rest : List Input} (hxs : ∀ x ∈ xs, x.time = t)
    (hwords : ∀ w ∈ inputWords xs, decode w ≠ .ok .reset)
    (hrest : ∀ x, rest.head? = some x → t < x.time ∨ ∃ w, x = .op t w ∧ decode w = .ok .reset) (pins : Vector Bool 16) :
    takeInputs t (xs ++ rest) pins = { words := inputWords xs, pins := levelsAfter xs pins, rest := rest } := by
  induction xs generalizing pins with
  | nil => exact takeInputs_stops hrest pins
  | cons x xs ih =>
    obtain ⟨hx, htail⟩ := List.forall_mem_cons.mp hxs
    cases x with
    | pin t' p level => exact (if_pos hx).trans (ih htail hwords _)
    | op t' w =>
      obtain ⟨hw, hwords⟩ := List.forall_mem_cons.mp hwords
      have hw : isResetWord w = false := Bool.eq_false_iff.mpr fun h => hw ((isResetWord_iff w).mp h)
      exact (if_pos ⟨hx, hw⟩).trans (congrArg (fun k : Taken => { k with words := w :: k.words }) (ih htail hwords pins))

theorem insertDue_perm (w : TraceWord) (l : List TraceWord) : (insertDue w l).Perm (w :: l) := by
  induction l with
  | nil => exact .refl _
  | cons x l ih =>
    unfold insertDue
    split
    · exact .refl _
    · exact (ih.cons x).trans (.swap ..)

theorem foldl_insertDue_perm (ws acc : List TraceWord) :
    (ws.foldl (fun acc w => insertDue w acc) acc).Perm (ws ++ acc) := by
  induction ws generalizing acc with
  | nil => exact .refl _
  | cons w ws ih => exact (ih _).trans (((insertDue_perm w acc).append_left ws).trans List.perm_middle)

/-- What is lined up is what was gathered, each word as often. -/
theorem inDueOrder_perm (ws : List TraceWord) : (inDueOrder ws).Perm ws := by
  simpa [inDueOrder] using foldl_insertDue_perm ws []

/-- The samples of the present pins are lined up where the clock moves in RUN with sampling on. -/
theorem samplesDue_eq_ite {s : State} (hn : s.cfg.nRx ≤ 16) (t : Nat) (pins : Vector Bool 16) :
    samplesDue s t pins =
      if s.runState = .run ∧ s.env.sampling = true ∧ s.now < t then (List.finRange 16).filterMap fun p =>
        if p.val < s.cfg.nRx then some (encode (.edgeSync (BitVec.ofNat 4 p.val) pins[p.val])) else none
      else [] := by
  split
  · next hdue => exact samplesDue_eq hn hdue pins
  · next hdue => exact if_neg hdue

theorem dueBy_of_le {t d : Nat} (h : d ≤ t) (i : Instr) : dueBy t (some d) i = [encode i] := if_pos h

theorem dueBy_of_lt {t d : Nat} (h : t < d) (i : Instr) : dueBy t (some d) i = [] := if_neg h.not_ge

/-- The block's own operation at a time not later than its own is lined up exactly at its own. -/
theorem dueBy_eq_ite {P Q : Prop} [Decidable P] [Decidable Q] {t d : Nat} (hQ : Q ↔ P ∧ t = d) (hle : P → t ≤ d)
    (i : Instr) : dueBy t (if P then some d else none) i = if Q then [encode i] else [] := by
  by_cases hP : P
  · have hdue : d ≤ t ↔ Q := by
      rw [hQ, and_iff_right hP]
      exact ⟨(hle hP).antisymm, Eq.ge⟩
    rw [if_pos hP]
    exact if_congr hdue rfl rfl
  · rw [if_neg hP, if_neg fun h => hP (hQ.mp h).1]
    rfl

theorem inputRefusal_of_external {w : TraceWord} {i : Instr} (hd : decode w = .ok i) (hi : isExternal i = true) :
    inputRefusal w = none := by
  simp [inputRefusal, hd, hi]

/-- What is taken at a time is lined up with the block's own operations due there, in the order of R207. -/
theorem lineUp_of_accepted {s : State} {t : Nat} {k : Taken} (htake : takeInputs t s.env.inputs s.env.pins = k)
    (h : firstRefusal k.words = none) :
    lineUp s t = .next { s with
      now := t
      env := { s.env with inputs := k.rest, pins := k.pins }
      agenda := inDueOrder (k.words ++ samplesDue s t k.pins ++ dueBy t (nextTxTime s) .txStep ++
        dueBy t (nextTickTime s) .tick) } := by
  rw [lineUp, htake]
  dsimp only
  rw [h]

/-- Nothing due, nor the end of the time base, comes before `t`, inputs apart. -/
def NoneBefore (s : State) (t : Nat) : Prop :=
  s.now ≤ t ∧ t < 2 ^ 64 ∧ (s.runState = .run → t ≤ s.tLastTick + s.cfg.tickPeriod) ∧
    (s.runState = .run → s.tx.busy = true → t ≤ s.tx.deadline) ∧
    (s.runState = .run → s.env.sampling = true → t ≤ s.now + 1)

theorem NoneBefore.le_due {s : State} {t : Nat} (h : NoneBefore s t) (hinput : ∀ d, nextInputTime s = some d → t ≤ d) :
    ∀ d, DueAt s d → t ≤ d := by
  obtain ⟨-, -, htick, htx, hsample⟩ := h
  intro d hd
  obtain hd | ⟨hrun, rfl | ⟨hb, rfl⟩ | ⟨hsampling, rfl⟩⟩ := dueAt_iff.mp hd
  · exact hinput d hd
  · exact htick hrun
  · exact htx hrun hb
  · exact hsample hrun hsampling

section
variable {s : State} {t : Nat} (hr : s.runState ≠ .reset) (hnone : NoneBefore s t)
include hr hnone

/-- A RESET that stands first among what is due is taken alone. -/
theorem arbitrate_of_reset {w : TraceWord} {rest : List Input} (hin : s.env.inputs = .op t w :: rest)
    (hw : decode w = .ok .reset) :
    arbitrate s = .next { s with now := t, env := { s.env with inputs := rest }, agenda := [w], out := {} } := by
  have hhead : nextInputTime s = some t := by rw [nextInputTime, hin]; rfl
  have hinput : ∀ d, nextInputTime s = some d → t ≤ d := fun d hd => (Option.some.inj (hhead.symm.trans hd)).le
  have hmove : moveTo s = t := moveTo_eq (.inl hhead) (hnone.le_due hinput) hnone.1
  rw [arbitrate_moves hr (fun d hd => hnone.1.trans (hinput d hd)) (hmove ▸ hnone.2.1), hmove,
    resetFirst_of_reset (s := s.clearOut) hin hw]
  rfl

/-- The leading inputs of the first time at which something is due are lined up with the block's own operations. -/
theorem arbitrate_linesUp {xs rest : List Input} (hin : s.env.inputs = xs ++ rest)
    (hdue : xs ≠ [] ∨ s.runState = .run ∧ (t = s.tLastTick + s.cfg.tickPeriod ∨ s.tx.busy = true ∧ t = s.tx.deadline ∨
      s.env.sampling = true ∧ t = s.now + 1))
    (hxs : ∀ x ∈ xs, x.time = t)
    (hrest : ∀ x, rest.head? = some x → t < x.time ∨ xs ≠ [] ∧ ∃ w, x = .op t w ∧ decode w = .ok .reset)
    (hwords : ∀ w ∈ inputWords xs, ∃ i, decode w = .ok i ∧ isExternal i = true ∧ i ≠ .reset) :
    arbitrate s = .next { s with
      now := t
      agenda := inDueOrder (inputWords xs ++ samplesDue s t (levelsAfter xs s.env.pins) ++ dueBy t (nextTxTime s) .txStep ++
        dueBy t (nextTickTime s) .tick)
      env := { s.env with inputs := rest, pins := levelsAfter xs s.env.pins }
      out := {} } := by
  have hnotReset : ∀ w ∈ inputWords xs, decode w ≠ .ok .reset := fun w hw hreset => by
    obtain ⟨i, hd, -, hi⟩ := hwords w hw
    exact hi (Except.ok.inj (hd.symm.trans hreset))
  have hhead : ∀ x, s.env.inputs.head? = some x → t ≤ x.time ∧ ∀ w, x = .op t w → decode w ≠ .ok .reset := fun x hx => by
    rw [hin] at hx
    cases xs with
    | nil =>
      have hlater := (hrest x hx).resolve_right fun h => h.1 rfl
      exact ⟨hlater.le, fun w hw => absurd (congrArg Input.time hw) (Nat.ne_of_gt hlater)⟩
    | cons y xs =>
      cases hx
      exact ⟨(hxs _ List.mem_cons_self).ge, fun w hw => hnotReset w (by rw [hw]; exact List.mem_cons_self)⟩
  have hinput : ∀ d, nextInputTime s = some d → t ≤ d := fun d hd => by
    obtain ⟨x, hx, rfl⟩ := Option.map_eq_some_iff.mp hd
    exact (hhead x hx).1
  have hmove : moveTo s = t := by
    refine moveTo_eq (dueAt_iff.mpr (hdue.imp_left fun hne => ?_)) (hnone.le_due hinput) hnone.1
    obtain ⟨x, xs, rfl⟩ := List.exists_cons_of_ne_nil hne
    rw [nextInputTime, hin]
    exact congrArg some (hxs x List.mem_cons_self)
  have hfirst : resetFirst s.clearOut t = none := resetFirst_of_no_reset fun w hw => (hhead _ hw).2 w rfl
  have htake : takeInputs t s.env.inputs s.env.pins =
      { words := inputWords xs, pins := levelsAfter xs s.env.pins, rest := rest } :=
    hin ▸ takeInputs_append hxs hnotReset (fun x hx => (hrest x hx).imp_right And.right) _
  have haccepted : firstRefusal (inputWords xs) = none := List.findSome?_eq_none_iff.mpr fun w hw => by
    obtain ⟨i, hd, hi, -⟩ := hwords w hw
    exact inputRefusal_of_external hd hi
  rw [arbitrate_moves hr (fun d hd => hnone.1.trans (hinput d hd)) (hmove ▸ hnone.2.1), hmove, hfirst]
  exact lineUp_of_accepted (s := s.clearOut) htake haccepted

end

/-- With `rst` high a turn of the arbiter offers the next input (R260). -/
theorem arbitrate_held {s : State} (hr : s.runState = .reset) : arbitrate s = arbitrateInReset s.clearOut := if_pos hr

/-- The transmitter's and the loop's own operations stand in the order of R207. -/
theorem dueBy_sorted (t : Nat) (tx tick : Option Nat) :
    (dueBy t tx .txStep ++ dueBy t tick .tick).Pairwise fun a b => wordPlace a ≤ wordPlace b := by
  have hplaces : wordPlace (encode .txStep) ≤ wordPlace (encode .tick) := by decide
  have hone {due : Option Nat} {i : Instr} : (dueBy t due i).Pairwise fun a b => wordPlace a ≤ wordPlace b := by
    unfold dueBy
    split
    · exact .nil
    · split
      · exact List.pairwise_singleton ..
      · exact .nil
  refine List.pairwise_append.mpr ⟨hone, hone, fun a ha b hb => ?_⟩
  rw [(mem_dueBy.mp ha).1, (mem_dueBy.mp hb).1]
  exact hplaces

/-- In RUN, with no input to come and the pins not sampled, the clock moves to the next tick or the transmit deadline. -/
theorem arbitrate_of_schedule {s : State} {t : Nat} (hrun : s.runState = .run) (hnone : NoneBefore s t)
    (hin : s.env.inputs = []) (hsampling : s.env.sampling = false)
    (hdue : t = s.tLastTick + s.cfg.tickPeriod ∨ s.tx.busy = true ∧ t = s.tx.deadline) :
    arbitrate s = .next { s with
      now := t
      agenda := dueBy t (nextTxTime s) .txStep ++ dueBy t (nextTickTime s) .tick
      out := {} } := by
  have hr : s.runState ≠ .reset := by rw [hrun]; decide
  have hinput : ∀ d, nextInputTime s = some d → t ≤ d := by rw [nextInputTime, hin]; exact nofun
  have hmove : moveTo s = t := moveTo_eq
    (dueAt_iff.mpr (.inr ⟨hrun, hdue.imp_right .inl⟩)) (hnone.le_due hinput) hnone.1
  have hsamples : samplesDue s t s.env.pins = [] := if_neg fun h => Bool.false_ne_true (hsampling.symm.trans h.2.1)
  rw [arbitrate_of_no_input hr hin (hmove ▸ hnone.2.1), hmove, hsamples, List.nil_append,
    inDueOrder_of_sorted (dueBy_sorted ..)]

/-- Settles O53: what is due first is `moveTo`'s time, and there the inputs are taken and the block's own
operations found. -/
theorem arbiterLinesUpWhatIsDue : Obligations.ArbiterLinesUpWhatIsDue := by
  intro s hl ha running tickTime noneBefore
  rw [step_of_idle hl ha]
  refine ⟨fun t xs rest hr hin hnone hdue hxs hrest hwords => ?_, fun t w rest hr hin hw hnone => ?_,
    fun hr t rest => ⟨fun w i hin hd hi => ?_, fun p l hin => ?_, fun hin => ?_⟩, fun hrun hin hsampling hnow hlimit => ?_⟩
  · refine ⟨_, arbitrate_linesUp hr hnone hin hdue hxs hrest hwords, (inDueOrder_perm _).trans (.of_eq ?_)⟩
    obtain ⟨-, -, htick, htx, -⟩ := hnone
    rw [samplesDue_eq_ite (Params.legal_nRx hl), nextTxTime, nextTickTime,
      dueBy_eq_ite and_assoc.symm (fun h => htx h.1 h.2), dueBy_eq_ite Iff.rfl htick]
  · exact arbitrate_of_reset hr hnone hin hw
  · rw [arbitrate_held hr, arbitrateInReset, clearOut_env, hin]
    dsimp only
    rw [inputRefusal_of_external hd hi]
    rfl
  · rw [arbitrate_held hr, arbitrateInReset, clearOut_env, hin]
    rfl
  · rw [arbitrate_held hr, arbitrateInReset, clearOut_env, hin]
    rfl
  · have hnone {t : Nat} (hnow : s.now ≤ t) (htick : t ≤ tickTime) (htx : s.tx.busy = true → t ≤ s.tx.deadline) :
        NoneBefore s t :=
      ⟨hnow, htick.trans_lt hlimit, fun _ => htick, fun _ => htx,
        fun _ h => absurd (hsampling.symm.trans h) Bool.false_ne_true⟩
    have hsent (hb : s.tx.busy = true) := nextTxTime_busy hrun hb
    have hidle (hb : s.tx.busy = false) : nextTxTime s = none := if_neg fun h => Bool.false_ne_true (hb.symm.trans h.2)
    refine ⟨fun hb => ?_, fun hb hdeadline hlt => ?_, fun hb heq => ?_, fun hb hlt => ?_⟩
    · rw [arbitrate_of_schedule hrun (hnone hnow le_rfl fun h => absurd (hb.symm.trans h) Bool.false_ne_true) hin hsampling
        (.inl rfl), hidle hb, nextTickTime_run hrun, dueBy_of_le le_rfl]
      rfl
    · rw [arbitrate_of_schedule hrun (hnone hdeadline hlt.le fun _ => le_rfl) hin hsampling (.inr ⟨hb, rfl⟩), hsent hb,
        nextTickTime_run hrun, dueBy_of_le le_rfl, dueBy_of_lt hlt]
      rfl
    · rw [arbitrate_of_schedule hrun (hnone hnow le_rfl fun _ => heq.ge) hin hsampling (.inl rfl), hsent hb,
        nextTickTime_run hrun, dueBy_of_le heq.le, dueBy_of_le le_rfl]
      rfl
    · rw [arbitrate_of_schedule hrun (hnone hnow le_rfl fun _ => hlt.le) hin hsampling (.inl rfl), hsent hb,
        nextTickTime_run hrun, dueBy_of_lt hlt, dueBy_of_le le_rfl]
      rfl

/-! ### What the arbiter refuses (R20, R96, R208) -/

/-- An input earlier than the clock is refused (R208). -/
theorem arbitrate_late {s : State} (hr : s.runState ≠ .reset) {d : Nat} (hinput : nextInputTime s = some d)
    (hlt : d < s.now) : arbitrate s = .refused .inputOutOfOrder := by
  have hlate : inputLate s.clearOut = true := (Option.any_eq_true ..).mpr ⟨d, hinput, decide_eq_true hlt⟩
  rw [arbitrate]
  exact (if_neg hr).trans (if_pos hlate)

/-- The end of the time base refuses the turn (R20). -/
theorem arbitrate_exhausted {s : State} (hr : s.runState ≠ .reset) (hinput : ∀ d, nextInputTime s = some d → s.now ≤ d)
    (hlimit : timeLimit ≤ moveTo s) : arbitrate s = .refused .timeBaseExhausted := by
  rw [arbitrate]
  exact (if_neg hr).trans ((if_neg (inputLate_of_le (s := s.clearOut) hinput)).trans (if_pos hlimit))

/-- An input that is turned away stops the turn at its time (R96). -/
theorem arbitrate_refuses {s : State} (hr : s.runState ≠ .reset) {w : TraceWord} {rest : List Input}
    (hin : s.env.inputs = .op s.now w :: rest) (hlimit : s.now < timeLimit) {r : Refusal} (hw : inputRefusal w = some r) :
    arbitrate s = .refused r := by
  have hreset : decode w ≠ .ok .reset := fun h => nomatch (inputRefusal_of_external h rfl).symm.trans hw
  have hhead : nextInputTime s = some s.now := by rw [nextInputTime, hin]; rfl
  have hmove : moveTo s = s.now :=
    Nat.le_antisymm ((moveTo_le (.inl hhead)).trans (max_self _).le) (moveTo_bounds s).1
  have hfirst : resetFirst s.clearOut s.now = none := resetFirst_of_no_reset fun x hx => by
    rw [clearOut_env, hin] at hx
    cases hx
    exact hreset
  have htaken : ∃ ws, (takeInputs s.now s.env.inputs s.env.pins).words = w :: ws := by
    rw [hin, takeInputs, if_pos ⟨rfl, Bool.eq_false_iff.mpr fun h => hreset ((isResetWord_iff w).mp h)⟩]
    exact ⟨_, rfl⟩
  obtain ⟨ws, hws⟩ := htaken
  have hrefused : firstRefusal (w :: ws) = some r := by rw [firstRefusal, List.findSome?_cons, hw]
  rw [arbitrate_moves hr (fun d hd => (Option.some.inj (hhead.symm.trans hd)).le) (hmove ▸ hlimit), hmove, hfirst]
  change lineUp s.clearOut s.now = _
  rw [lineUp, clearOut_env]
  dsimp only
  rw [hws, hrefused]

/-- Settles O56: nothing is due before the end of the time base where the turn is refused for it. -/
theorem arbiterRefusals : Obligations.ArbiterRefusals := by
  intro s hl ha hr
  rw [step_of_idle hl ha]
  refine ⟨fun t w rest hin => ⟨fun hlt => ?_, fun hnow hlimit => ?_⟩, fun hnow hinput hown hsome => ?_⟩
  · exact arbitrate_late hr (by rw [nextInputTime, hin]; rfl) hlt
  · subst hnow
    exact ⟨fun i hd hi => arbitrate_refuses hr hin hlimit (by simp [inputRefusal, hd, hi]),
      fun e hd => arbitrate_refuses hr hin hlimit (by simp [inputRefusal, hd])⟩
  · have hinput : ∀ d, nextInputTime s = some d → 2 ^ 64 ≤ d := fun d hd => by
      obtain ⟨x, hx, rfl⟩ := Option.map_eq_some_iff.mp hd
      exact hinput x hx
    have hmin : ∀ d, DueAt s d → 2 ^ 64 ≤ d := fun d hd => by
      obtain hd | ⟨hrun, hd⟩ := dueAt_iff.mp hd
      · exact hinput d hd
      · obtain ⟨htick, htx, hsample⟩ := hown hrun
        obtain rfl | ⟨hb, rfl⟩ | ⟨hsampling, rfl⟩ := hd
        · exact htick
        · exact htx hb
        · exact hsample hsampling
    refine arbitrate_exhausted hr (fun d hd => hnow.le.trans (hinput d hd)) (le_moveTo hmin ?_)
    obtain hrun | hne | hend := hsome
    · exact .inl ⟨_, dueAt_iff.mpr (.inr ⟨hrun, .inl rfl⟩)⟩
    · obtain ⟨x, rest, hin⟩ := List.exists_cons_of_ne_nil hne
      exact .inl ⟨x.time, .inl (by rw [nextInputTime, hin]; rfl)⟩
    · exact .inr hend

end Sys2Proof.Machine
end

section
/-! Family 60_exceptions (spec/60_exceptions.md): where the receiver's operations run, where they are ignored and where they are
refused (R230, R97 (g), R132). -/

namespace Sys2Proof.Machine

/-- The missing pins are those of N_RX and above (R97 (g)). -/
theorem not_pinPresent_eq (c : Params) (pin : BitVec 4) : (!pinPresent c pin) = decide (c.nRx ≤ pin.toNat) := by
  simp only [pinPresent, ← decide_not, Nat.not_lt]

/-- Settles O28: in RUN each operation is its body, an absent pin stops it before the run state is read, and outside RUN the rest
is ignored. -/
theorem receiverRunsUnlessPinAbsent : Obligations.ReceiverRunsUnlessPinAbsent := by
  intro s pin t id level
  refine ⟨fun hrun hp => ?_, fun hrun => ⟨_, exec_hitPush_run hrun id t⟩, fun habsent => ?_, fun hrun hp i hi => ?_⟩
  · exact ⟨⟨_, exec_edge_run hrun hp level t⟩, ⟨_, exec_edgeSync_run hrun hp level⟩, ⟨_, exec_rxFall_run hrun hp t⟩,
      ⟨_, exec_rxRise_run hrun hp t⟩⟩
  · have hmissing := (not_pinPresent_eq s.cfg pin).trans (decide_eq_true habsent)
    exact ⟨exec_pinMissing hmissing, exec_pinMissing hmissing, exec_pinMissing hmissing, exec_pinMissing hmissing⟩
  · have hpresent := (not_pinPresent_eq s.cfg pin).trans (decide_eq_false hp.not_ge)
    obtain ⟨-, hignored, -⟩ := noEffectOutsideRun s i
    obtain ⟨hready, hneeds⟩ : pinMissing s.cfg i = false ∧ needsRun i = true := by
      simp only [List.mem_cons, List.not_mem_nil, or_false] at hi
      obtain rfl | rfl | rfl | rfl := hi <;> exact ⟨hpresent, rfl⟩
    exact hignored hrun hready hneeds

end Sys2Proof.Machine
end

section
/-! Family 70_reset_and_hazards (spec/70_reset_and_hazards.md): BOOT at the release of `rst` (R262) and the first tick due after it
(R200). -/

namespace Sys2Proof.Machine

/-- BOOT with `drv_ready` (R262). -/
theorem exec_boot_ready {s : State} (hreset : s.runState = .reset) :
    exec (.boot true) s = .next { s with runState := .run, driveEnable := true, out := {} } := by
  rw [exec_boot, execBoot, if_pos hreset]
  rfl

/-- BOOT without `drv_ready` (R262). -/
theorem exec_boot_notReady {s : State} (hreset : s.runState = .reset) :
    exec (.boot false) s =
      .next { s with runState := .fatal, out := { outcome := .fatal, codes := [.driverNotReady] } } := by
  rw [exec_boot, execBoot, if_pos hreset]
  rfl

/-- Settles O7: the booted block is in RUN, so its tick is due a period after the last one, and with no tick yet that is
TICK_PERIOD_US. -/
theorem bootEntersRunOrFatal : Obligations.BootEntersRunOrFatal := by
  intro s hreset
  refine ⟨exec_boot_ready hreset, exec_boot_notReady hreset, fun hfirst t hboot => ?_⟩
  cases (exec_boot_ready hreset).symm.trans hboot
  rw [nextTickTime_run rfl, hfirst, Nat.zero_add]

end Sys2Proof.Machine
end

section
/-! Family other (spec/30_encoding.md, sections 1 to 3): the decoder reads back every instruction from its own word. -/

namespace Sys2Proof.Machine

/-! ### An operand read back from its field -/

@[simp] theorem field_cons_zero (f : Nat) (fs : List Nat) : field (f :: fs) 0 = f := rfl

@[simp] theorem field_cons_succ (f : Nat) (fs : List Nat) (k : Nat) : field (f :: fs) (k + 1) = field fs k := rfl

@[simp] theorem bitField_ofBit_cons (b : Bool) (fs : List Nat) : bitField (ofBit b :: fs) 0 = b := by cases b <;> rfl

@[simp] theorem bitField_cons_succ (f : Nat) (fs : List Nat) (k : Nat) :
    bitField (f :: fs) (k + 1) = bitField fs k := rfl

@[simp] theorem signField_ofSign_cons (g : Sign) (fs : List Nat) : signField (ofSign g :: fs) 0 = g := by
  cases g <;> rfl

@[simp] theorem signField_cons_succ (f : Nat) (fs : List Nat) (k : Nat) :
    signField (f :: fs) (k + 1) = signField fs k := rfl

/-! ### The fields of an array of words -/

/-- Words of one width fit as many fields of that width. -/
theorem fieldsFit_map_toNat {w : Nat} (xs : List (BitVec w)) :
    FieldsFit (List.replicate xs.length w) (xs.map BitVec.toNat) := by
  induction xs with
  | nil => trivial
  | cons x xs ih => exact ⟨x.isLt, ih⟩

theorem fieldsFit_vector {w n : Nat} (v : Vector (BitVec w) n) :
    FieldsFit (List.replicate n w) (v.toList.map BitVec.toNat) := by
  have h := fieldsFit_map_toNat v.toList
  rwa [Vector.length_toList] at h

theorem field_map_toNat {w n : Nat} (v : Vector (BitVec w) n) {k : Nat} (hk : k < n) :
    field (v.toList.map BitVec.toNat) k = v[k].toNat := by
  simp [field, hk]

/-- An array of words is read back from its fields, word by word. -/
theorem ofFn_field_map_toNat {w n : Nat} (v : Vector (BitVec w) n) :
    (Vector.ofFn fun i : Fin n => BitVec.ofNat w (field (v.toList.map BitVec.toNat) i.val)) = v := by
  ext k hk
  rw [Vector.getElem_ofFn, field_map_toNat v hk, BitVec.ofNat_toNat, BitVec.setWidth_eq]

/-! ### Every instruction -/

/-- A word of a record, from its format and fields that fit its widths (R82, R83, R88, R92, R94, R100). -/
theorem decode_recordWord {fmt : Format} {fs : List Nat} {i : Instr} (hfmt : fmt ≠ .op)
    (hf : FieldsFit (recordWidths fmt) fs) (hb : buildRecord fmt fs = some i) : decode (recordWord fmt fs) = .ok i := by
  have hrecord : decode (recordWord fmt fs) = decodeRecord fmt (recordWord fmt fs).bytes := by
    cases fmt with
    | op => exact absurd rfl hfmt
    | _ => rfl
  rw [hrecord]
  simp only [decodeRecord, recordWord, payloadFields_bytesLE _ fs hf, hb]

/-- Settles O2, by the instructions, grouped by their layouts: the operands fit their fields, so the payload reads back as
those fields, and each field gives its operand back. -/
theorem decodeOfEncode : Obligations.DecodeOfEncode := by
  intro i
  cases i with
  | reset | shutdown | tick | txStep | hitTake | safetyStop | standbyUpdate | fireDispatch =>
    exact decode_opWord (by decide) rfl trivial rfl
  | cmdWrite x | statusRead x | txRequest x | encodeId x | classify x | meaningful x =>
    exact decode_opWord (by decide) rfl ⟨x.isLt, trivial⟩ (by simp [buildOp])
  | boot b | motorApply b =>
    exact decode_opWord (by decide) rfl ⟨ofBit_lt b, trivial⟩ (by simp [buildOp])
  | cfgWrite reg data =>
    exact decode_opWord (by decide) rfl ⟨data.isLt, reg.isLt, trivial⟩ (by simp [buildOp])
  | hitPush x t | rxFall x t | rxRise x t =>
    exact decode_opWord (by decide) rfl ⟨x.isLt, t.isLt, trivial⟩ (by simp [buildOp])
  | edgeSync x b | hitExpire x b =>
    exact decode_opWord (by decide) rfl ⟨x.isLt, ofBit_lt b, trivial⟩ (by simp [buildOp])
  | edge pin level ts =>
    exact decode_opWord (by decide) rfl ⟨ts.isLt, ofBit_lt level, pin.isLt, trivial⟩ (by simp [buildOp])
  | mecanum vx vy omega speed =>
    exact decode_opWord (by decide) rfl ⟨vx.isLt, vy.isLt, omega.isLt, speed.isLt, trivial⟩ (by simp [buildOp])
  | dutymap num denLess1 sign =>
    exact decode_opWord (by decide) rfl ⟨num.isLt, denLess1.isLt, ofSign_lt sign, trivial⟩ (by simp [buildOp])
  | decodeBuf buf =>
    exact decode_opWord (by decide) rfl (fieldsFit_vector buf) (by simp [buildOp, ofFn_field_map_toNat])
  | symNone | symBit0 | symBit1 | symStartEnd =>
    exact decode_recordWord (by decide) ⟨by decide, trivial⟩ rfl
  | irFrame x | cmdWord x =>
    exact decode_recordWord (by decide) ⟨x.isLt, trivial⟩ (by simp [buildRecord])
  | cfgRecord reg data =>
    exact decode_recordWord (by decide) ⟨data.isLt, reg.isLt, trivial⟩ (by simp [buildRecord])
  | motorRecord dirB dirA fullOn duty =>
    exact decode_recordWord (by decide) ⟨duty.isLt, ofBit_lt fullOn, ofBit_lt dirA, ofBit_lt dirB, trivial⟩
      (by simp [buildRecord])
  | hitRecord self team receivedAt =>
    exact decode_recordWord (by decide) ⟨receivedAt.isLt, team.isLt, ofBit_lt self, trivial⟩ (by simp [buildRecord])

end Sys2Proof.Machine
end
